-- ==== Sys2Proof/Word.lean ====
section
/-! DEFINITION. The word types of the FGK codec block and the arithmetic of its notation (00_scope.md R7 to R9). -/

namespace Sys2Proof

/-- One byte, and one symbol (00_scope.md R5 `SYM_BITS`, R8). -/
abbrev Byte := BitVec 8

/-- One host register (00_scope.md R5 `REG_BITS`). -/
abbrev Word := BitVec 64

/-- One command word (00_scope.md R5 `CMD_BITS`). -/
abbrev CmdWord := BitVec 32

/-- `cdiv(a, b)`, the quotient rounded up, computed as 00_scope.md R13 (c) says. -/
def cdiv (a b : Nat) : Nat := a / b + (if a % b ≠ 0 then 1 else 0)

end Sys2Proof
end

