-- ==== Sys2Proof/Syntax.lean ====
section
/-! DEFINITION. The 18 commands of the opcode map (30_encoding.md R92), the host registers
(10_state.md R21) and the host's moves (44_system.md R242 to R246). -/

namespace Sys2Proof

/-- A command: one constructor per row of the opcode map, with the operand fields of its format
(30_encoding.md R90, R91). -/
inductive Instr where
  | nop
  | srst
  | htInit
  | htEnc (sym : Byte)
  | htUpd (sym : Byte)
  | htDec
  | htEncbuf
  | htDecbuf
  | bpInit
  | bpPut (n : BitVec 4) (val : Byte)
  | bpFlush
  | buInit
  | buGet (n : BitVec 4)
  | rleEnc
  | rleDec
  | abrEnc1
  | abrEnc
  | abrDec
  deriving DecidableEq, Repr

/-- The 17 host registers (10_state.md R21). -/
inductive Reg where
  | cmd | status | err | errinfo | ilen | width | bsize | symcnt | olen
  | result | selbs | outw | outh | ipos | ibit | bpacc | bpcnt
  deriving DecidableEq, Repr

/-- A host access by bus address: `bytes` bytes from address `addr` on (20_memory.md R64, R65, R67). -/
inductive BusAccess where
  | read (addr bytes : Nat)
  | write (addr bytes : Nat) (value : Word)
  deriving DecidableEq, Repr

/-- One move of the host (44_system.md R246). A write to `CMD` issues a command (R245). -/
inductive HostMove where
  | hwReset
  | regRead (r : Reg)
  | regWrite (r : Reg) (value : Word)
  | ibufRead (i : Nat)
  | ibufWrite (i : Nat) (value : Byte)
  | obufRead (i : Nat)
  | obufWrite (i : Nat) (value : Byte)
  | bus (access : BusAccess)
  deriving DecidableEq, Repr

/-- The move by which the host issues command word `w` (44_system.md R245). -/
def HostMove.issue (w : CmdWord) : HostMove := .regWrite .cmd (w.setWidth 64)

end Sys2Proof
end

