-- ==== Sys2Proof/WellFormed.lean ====
section
/-! DEFINITION. The operand constraints of the opcode map (30_encoding.md R91, R92). -/

namespace Sys2Proof

/-- "`n` ... legal values 1 to 8" (30_encoding.md R91). -/
def countOk (n : BitVec 4) : Bool := decide (1 ≤ n.toNat ∧ n.toNat ≤ 8)

/-- "in format B it must satisfy `val < 2^n`" (30_encoding.md R91). -/
def valueOk (n : BitVec 4) (val : Byte) : Bool := decide (val.toNat < 2 ^ n.toNat)

/-- The operand constraint of the command's row (30_encoding.md R92). -/
def Instr.wellFormed : Instr → Bool
  | .nop => true
  | .srst => true
  | .htInit => true
  | .htEnc _ => true
  | .htUpd _ => true
  | .htDec => true
  | .htEncbuf => true
  | .htDecbuf => true
  | .bpInit => true
  | .bpPut n val => countOk n && valueOk n val
  | .bpFlush => true
  | .buInit => true
  | .buGet n => countOk n
  | .rleEnc => true
  | .rleDec => true
  | .abrEnc1 => true
  | .abrEnc => true
  | .abrDec => true

end Sys2Proof
end

