-- ==== Sys2Proof/Decode.lean ====
section
/-! DEFINITION. The command decoder, total on 32-bit words and refusing by name (30_encoding.md R90 to
R94), and the encoder, both from the format table of R90 and the opcode map of R92. -/

namespace Sys2Proof

/-- Why a word selects no row (the cases of 30_encoding.md R94). -/
inductive Illegal where
  /-- "an opcode not in the table" -/
  | unknownOpcode
  /-- a bit that the format shows as 0 is set (formats Z, S, B and N) -/
  | zeroFieldSet
  /-- "with `n` = 0 or `n` > 8" -/
  | badCount
  /-- "with `val >= 2^n` (format B)" -/
  | badValue
  deriving DecidableEq, Repr

/-- Bits 31:24 (30_encoding.md R90). -/
def opField (w : CmdWord) : Byte := w.extractLsb' 24 8

/-- `sym` and `val`, bits 7:0 (30_encoding.md R91). -/
def lowField (w : CmdWord) : Byte := w.extractLsb' 0 8

/-- `n`, bits 11:8 (30_encoding.md R91). -/
def countField (w : CmdWord) : BitVec 4 := w.extractLsb' 8 4

/-- Format Z: bits 23:0 are 0 (30_encoding.md R90). -/
def formatZ (w : CmdWord) (i : Instr) : Except Illegal Instr :=
  if w.extractLsb' 0 24 = 0 then .ok i else .error .zeroFieldSet

/-- Format S: bits 23:8 are 0 (30_encoding.md R90). -/
def formatS (w : CmdWord) (mk : Byte → Instr) : Except Illegal Instr :=
  if w.extractLsb' 8 16 = 0 then .ok (mk (lowField w)) else .error .zeroFieldSet

/-- Format B: bits 23:12 are 0, `1 <= n <= 8`, `val < 2^n` (30_encoding.md R90, R92). -/
def formatB (w : CmdWord) (mk : BitVec 4 → Byte → Instr) : Except Illegal Instr :=
  if w.extractLsb' 12 12 = 0 then
    if countOk (countField w) then
      if valueOk (countField w) (lowField w) then .ok (mk (countField w) (lowField w))
      else .error .badValue
    else .error .badCount
  else .error .zeroFieldSet

/-- Format N: bits 23:12 and 7:0 are 0, `1 <= n <= 8` (30_encoding.md R90, R92). -/
def formatN (w : CmdWord) (mk : BitVec 4 → Instr) : Except Illegal Instr :=
  if w.extractLsb' 12 12 = 0 ∧ lowField w = 0 then
    if countOk (countField w) then .ok (mk (countField w)) else .error .badCount
  else .error .zeroFieldSet

/-- The decoder: "a word selects exactly one row or is illegal" (30_encoding.md R92). -/
def decode (w : CmdWord) : Except Illegal Instr :=
  match (opField w).toNat with
  | 0x00 => formatZ w .nop
  | 0x01 => formatZ w .srst
  | 0x10 => formatZ w .htInit
  | 0x11 => formatS w .htEnc
  | 0x12 => formatS w .htUpd
  | 0x13 => formatZ w .htDec
  | 0x18 => formatZ w .htEncbuf
  | 0x19 => formatZ w .htDecbuf
  | 0x20 => formatZ w .bpInit
  | 0x21 => formatB w .bpPut
  | 0x22 => formatZ w .bpFlush
  | 0x24 => formatZ w .buInit
  | 0x25 => formatN w .buGet
  | 0x30 => formatZ w .rleEnc
  | 0x31 => formatZ w .rleDec
  | 0x40 => formatZ w .abrEnc1
  | 0x41 => formatZ w .abrEnc
  | 0x42 => formatZ w .abrDec
  | _ => .error .unknownOpcode

/-- A Z-format word: the opcode over 24 zero bits (30_encoding.md R90). -/
def wordZ (op : Byte) : CmdWord := op ++ (0 : BitVec 24)

/-- An S-format word (30_encoding.md R90). -/
def wordS (op sym : Byte) : CmdWord := op ++ (0 : BitVec 16) ++ sym

/-- A B-format word, and with `val` = 0 an N-format word (30_encoding.md R90). -/
def wordB (op : Byte) (n : BitVec 4) (val : Byte) : CmdWord := op ++ (0 : BitVec 12) ++ n ++ val

/-- The encoder, from the opcode map (30_encoding.md R92). -/
def encode : Instr → CmdWord
  | .nop => wordZ 0x00
  | .srst => wordZ 0x01
  | .htInit => wordZ 0x10
  | .htEnc sym => wordS 0x11 sym
  | .htUpd sym => wordS 0x12 sym
  | .htDec => wordZ 0x13
  | .htEncbuf => wordZ 0x18
  | .htDecbuf => wordZ 0x19
  | .bpInit => wordZ 0x20
  | .bpPut n val => wordB 0x21 n val
  | .bpFlush => wordZ 0x22
  | .buInit => wordZ 0x24
  | .buGet n => wordB 0x25 n 0
  | .rleEnc => wordZ 0x30
  | .rleDec => wordZ 0x31
  | .abrEnc1 => wordZ 0x40
  | .abrEnc => wordZ 0x41
  | .abrDec => wordZ 0x42

/-- `match` of the command's row (30_encoding.md R92). -/
def Instr.rowMatch : Instr → CmdWord
  | .nop => 0x00000000
  | .srst => 0x01000000
  | .htInit => 0x10000000
  | .htEnc _ => 0x11000000
  | .htUpd _ => 0x12000000
  | .htDec => 0x13000000
  | .htEncbuf => 0x18000000
  | .htDecbuf => 0x19000000
  | .bpInit => 0x20000000
  | .bpPut _ _ => 0x21000000
  | .bpFlush => 0x22000000
  | .buInit => 0x24000000
  | .buGet _ => 0x25000000
  | .rleEnc => 0x30000000
  | .rleDec => 0x31000000
  | .abrEnc1 => 0x40000000
  | .abrEnc => 0x41000000
  | .abrDec => 0x42000000

/-- `mask` of the command's row (30_encoding.md R92). -/
def Instr.rowMask : Instr → CmdWord
  | .htEnc _ | .htUpd _ => 0xFFFFFF00
  | .bpPut _ _ => 0xFFFFF000
  | .buGet _ => 0xFFFFF0FF
  | .nop | .srst | .htInit | .htDec | .htEncbuf | .htDecbuf | .bpInit | .bpFlush | .buInit | .rleEnc
  | .rleDec | .abrEnc1 | .abrEnc | .abrDec => 0xFFFFFFFF

/-- The operands of `i` are the fields of `w` (30_encoding.md R91). -/
def Instr.operandsIn (i : Instr) (w : CmdWord) : Bool :=
  match i with
  | .htEnc sym | .htUpd sym => decide (sym = lowField w)
  | .bpPut n val => decide (n = countField w ∧ val = lowField w)
  | .buGet n => decide (n = countField w)
  | .nop | .srst | .htInit | .htDec | .htEncbuf | .htDecbuf | .bpInit | .bpFlush | .buInit | .rleEnc
  | .rleDec | .abrEnc1 | .abrEnc | .abrDec => true

/-- The instruction the decoder reads from an instruction whose bits are `w`, of which the table gives
`nbits`; every bit above them is 0. A command is one 32-bit word, so the word is `w` itself. -/
def decodeTableWord (nbits w : Nat) : Option Instr :=
  (decode (BitVec.ofNat 32 (w % 2 ^ nbits))).toOption

end Sys2Proof
end

