-- ==== Sys2Proof/Config.lean ====
section
/-! DEFINITION. What a build of the block fixes (00_scope.md R5) and the values the spec leaves free. -/

namespace Sys2Proof

/-- Node number of the root (00_scope.md R5 `ROOT_NUM`). -/
def rootNum : Nat := 512

/-- Entries of the node table (00_scope.md R5 `NODE_SLOTS`). -/
def nodeSlots : Nat := 513

/-- Largest value of a frequency counter of `FREQ_BITS` = 64 bits (00_scope.md R5, 10_state.md R28). -/
def freqMax : Nat := 2 ^ 64 - 1

/-- Equal literal bytes after which a count byte follows (00_scope.md R5 `RLE_TRIGGER`). -/
def rleTrigger : Nat := 3

/-- Longest run one token covers (00_scope.md R5 `RLE_MAX_RUN` = `RLE_TRIGGER` + 255). -/
def rleMaxRun : Nat := 258

/-- Bytes of the fixed part of the Adaptive-RLE header (30_encoding.md R105). -/
def abrFixedHeader : Nat := 24

/-- The parameters 00_scope.md R5 and 20_memory.md R67 leave OPEN, "an argument the model takes".
A capacity is a 64-bit number because `ILEN` and `OLEN`, which are compared with it and count up to
it, are 64-bit registers (DEDUCED, log 11, safe). The defaults are the values the test vectors use
and the defaults of R5; `blockBase` 0 is a DESIGN CHOICE (log 1, safe: no statement rests on them). -/
structure Build where
  bsMin           : Nat  := 8
  bsMaxDoublings  : Nat  := 3
  ibufCap         : Word := 0x100000
  obufCap         : Word := 0x100000
  blockBase       : Nat  := 0
  deriving DecidableEq, Repr

/-- "`BS_MIN` must be at least 1 and `BS_MIN * 2^BS_MAX_DOUBLINGS` must be below 2^63" (00_scope.md R5). -/
abbrev Build.wf (b : Build) : Prop := 1 ≤ b.bsMin ∧ b.bsMin * 2 ^ b.bsMaxDoublings < 2 ^ 63

/-- FREE VALUE (log 2, safe): byte `i` of `IBUF` while the host has not written it since hardware reset
number `epoch` (10_state.md R37 "unspecified (any value)", 93_implementation_defined.md U5). -/
opaque Config.freeIbufByte (epoch i : Nat) : Byte

/-- FREE VALUE (log 3, safe): byte `i` of `OBUF` where no rule specifies it, between accepted command
number `epoch` and the next one (10_state.md R34, 20_memory.md R75, 93_implementation_defined.md U4, U5). -/
opaque Config.freeObufByte (epoch i : Nat) : Byte

/-- FREE VALUE (log 6, safe): `BPCNT` after `putbit` raised `Capacity(0)` in accepted command number
`epoch`: the pseudocode holds 8 there, which the 3-bit register cannot (41_bitpacker.md R170). -/
opaque Config.freePackerCount (epoch : Nat) : BitVec 3

end Sys2Proof
end

