-- ==== Sys2Proof/Machine/State.lean ====
section
/-! DEFINITION. The state of the block as plain data (10_state.md R20), the reasons a step can stop, and
the state after reset (10_state.md R37). -/

namespace Sys2Proof.Machine

/-- No behaviour of the spec stops the machine: its faults are latched in `STATUS`, `ERR` and `ERRINFO` and
the machine goes on (60_exceptions.md R276), so this type has no constructor. -/
inductive Fault where
  deriving DecidableEq, Repr

/-- What the model offers no step for. -/
inductive Refusal where
  /-- Raised by a refused arm of `exec` only: a command that has no meaning yet. Safe. -/
  | notModelled (mnemonic : String)
  /-- Raised by a host move: the host writes `OBUF`, "refused by the model" (20_memory.md R68). Safe. -/
  | hostWriteToObuf
  /-- Raised by a host move: an access outside the four ranges of the window or beyond a buffer's capacity,
  "refused by the model" (20_memory.md R68). Safe. -/
  | outsideWindow
  /-- Raised by a host move: an access to the registers that is not a whole 64-bit access at a listed offset,
  "the model gives it no step (refused)" (20_memory.md R65). Safe. -/
  | notARegisterAccess
  /-- Raised by a host move: an access of more or less than one byte to a buffer window, for which the spec gives
  no effect (44_system.md R244 gives byte accesses only; log 8). Safe. -/
  | notAByteAccess
  /-- Raised by a host move other than reset while `STATUS.BUSY` is 1, "not defined by this spec"
  (70_reset_and_hazards.md R303, 93_implementation_defined.md U3; log 7). Safe. -/
  | hostWhileBusy
  deriving DecidableEq, Repr

/-- The kinds of 60_exceptions.md R270. -/
inductive ErrKind where
  | malformedHeader | corruptBitstream | invalidDimensions | truncatedBlockData | trailingData
  | runOverrun | capacity | illegalCommand
  deriving DecidableEq, Repr

/-- A table keyed by number, in canonical form when the keys rise strictly. -/
abbrev Table (α : Type) := List (Nat × α)

/-- Bytes by address. A listed byte is a specified one; an unlisted address has no specified value. -/
abbrev Memory := List Host.Cell

/-- What a node-table entry is, with the fields valid for its `kind` (10_state.md R28). -/
inductive Body where
  | nyt
  | leaf (sym : Byte)
  | int (left right : Nat)
  deriving DecidableEq, Repr

/-- An allocated node-table entry (10_state.md R28). `parent` has no value at the root. The contents that a
swap exchanges are `freq` and `body`; `parent` belongs to the position (40_aht.md R139). -/
structure Entry where
  parent : Option Nat
  freq   : Nat
  body   : Body
  deriving DecidableEq, Repr

/-- One Adaptive Huffman Tree instance, the triple (`NODE`, `NYTN`, `LEAFOF`) (40_aht.md R130). An unlisted
entry of `node` is `FREE`, an unlisted symbol of `leafOf` is `unset` (10_state.md R28, R30). -/
structure Tree where
  node   : Table Entry
  nytn   : Nat
  leafOf : Table Nat
  deriving DecidableEq, Repr

/-- `STATUS`, `ERR` and `ERRINFO`: the fields that R25 and R26 define, all other bits read 0 (10_state.md). -/
structure Latch where
  busy    : Bool
  fault   : Bool
  err     : Byte
  errInfo : Word
  deriving DecidableEq, Repr

/-- The host-writable operand registers (10_state.md R22). -/
structure Operands where
  ilen   : Word
  width  : Word
  bsize  : Word
  symcnt : Word
  deriving DecidableEq, Repr

/-- The packer state (10_state.md R32). -/
structure Packer where
  olen  : Word
  bpacc : Byte
  bpcnt : BitVec 3
  deriving DecidableEq, Repr

/-- The unpacker state (10_state.md R33). -/
structure Unpacker where
  ipos : Word
  ibit : BitVec 3
  deriving DecidableEq, Repr

/-- `RESULT` (`val`, `eos`), `SELBS`, `OUTW` and `OUTH` (10_state.md R21, R23, R26). -/
structure Results where
  val   : Byte
  eos   : Bool
  selbs : Word
  outw  : Word
  outh  : Word
  deriving DecidableEq, Repr

/-- The state of the block (10_state.md R20) and the model's own fields. -/
structure State where
  latch     : Latch
  operands  : Operands
  packer    : Packer
  unpacker  : Unpacker
  results   : Results
  tree      : Tree
  ibuf      : Memory
  obuf      : Memory
  /-- the model's own: the build's parameters, never written (log 1) -/
  build     : Build
  /-- the model's own: hardware resets so far, for the free bytes of `IBUF` (log 2) -/
  ibufEpoch : Nat
  /-- the model's own: accepted commands and hardware resets so far, for the free bytes of `OBUF` (log 3) -/
  obufEpoch : Nat
  /-- the model's own: the host's pending moves, first one next (log 4) -/
  host      : List HostMove
  /-- the model's own: what the host's last read returned, zero-extended (log 5) -/
  reply     : Option Word
  deriving DecidableEq, Repr

/-- The fresh tree: one `NYT` entry at the root (10_state.md R37, 40_aht.md R144). -/
def Tree.fresh : Tree := ⟨[(rootNum, ⟨none, 0, .nyt⟩)], rootNum, []⟩

/-- Reset values of the registers (10_state.md R37). -/
def Latch.reset : Latch := ⟨false, false, 0, 0⟩

/-- Reset values of the operand registers (10_state.md R37). -/
def Operands.reset : Operands := ⟨0, 0, 0, 0⟩

/-- The empty packer (10_state.md R37, 41_bitpacker.md R172). -/
def Packer.reset : Packer := ⟨0, 0, 0⟩

/-- The rewound unpacker (10_state.md R37, 41_bitpacker.md R175). -/
def Unpacker.reset : Unpacker := ⟨0, 0⟩

/-- Reset values of the result registers (10_state.md R37). -/
def Results.reset : Results := ⟨0, false, 0, 0, 0⟩

/-- The block right after hardware reset (10_state.md R37): nothing of the buffers is specified, and no host
move is pending. -/
def State.reset : State where
  latch     := Latch.reset
  operands  := Operands.reset
  packer    := Packer.reset
  unpacker  := Unpacker.reset
  results   := Results.reset
  tree      := Tree.fresh
  ibuf      := []
  obuf      := []
  build     := {}
  ibufEpoch := 0
  obufEpoch := 0
  host      := []
  reply     := none

end Sys2Proof.Machine
end

