-- ==== Sys2Proof/Machine/Flags.lean ====
section
/-! DEFINITION. The three flag bits and the registers that hold them (10_state.md R25, R26), and the codes
of the fault kinds (60_exceptions.md R270). -/

namespace Sys2Proof.Machine

/-- The code of a fault kind (60_exceptions.md R270). -/
def ErrKind.code : ErrKind → Byte
  | .malformedHeader => 1
  | .corruptBitstream => 2
  | .invalidDimensions => 3
  | .truncatedBlockData => 4
  | .trailingData => 5
  | .runOverrun => 6
  | .capacity => 7
  | .illegalCommand => 8

/-- `STATUS` as the host reads it: bit 0 `BUSY`, bit 1 `FAULT`, bits 63:2 read 0 (10_state.md R26). -/
def Latch.statusWord (l : Latch) : Word := (BitVec.ofBool l.fault ++ BitVec.ofBool l.busy).setWidth 64

/-- `RESULT` as the host reads it: bits 7:0 `VAL`, bit 8 `EOS`, bits 63:9 read 0 (10_state.md R26). -/
def Results.resultWord (r : Results) : Word := (BitVec.ofBool r.eos ++ r.val).setWidth 64

/-- Write `RESULT` whole: a value, or the end-of-stream mark 0x100 (10_state.md R25, 40_aht.md R147,
41_bitpacker.md R176). -/
def State.setResult (v : Option Byte) (s : State) : State :=
  { s with results := { s.results with val := v.getD 0, eos := v.isNone } }

/-- The latch after a fault of this kind (60_exceptions.md R276). -/
def Latch.latched (k : ErrKind) (info : Word) : Latch := ⟨false, true, k.code, info⟩

end Sys2Proof.Machine
end

