-- ==== Sys2Proof/Machine/Operands.lean ====
section
/-! DEFINITION. The registers as operands of commands and as the host reads and writes them
(10_state.md R21, R22; 44_system.md R242, R243), and the operand checks that commands share. -/

namespace Sys2Proof.Machine

/-- Host register read: the 64-bit value, `CMD` reads 0 (10_state.md R21, R26; 44_system.md R242). -/
def State.readReg (s : State) : Reg → Word
  | .cmd => 0
  | .status => s.latch.statusWord
  | .err => s.latch.err.setWidth 64
  | .errinfo => s.latch.errInfo
  | .ilen => s.operands.ilen
  | .width => s.operands.width
  | .bsize => s.operands.bsize
  | .symcnt => s.operands.symcnt
  | .olen => s.packer.olen
  | .result => s.results.resultWord
  | .selbs => s.results.selbs
  | .outw => s.results.outw
  | .outh => s.results.outh
  | .ipos => s.unpacker.ipos
  | .ibit => s.unpacker.ibit.setWidth 64
  | .bpacc => s.packer.bpacc.setWidth 64
  | .bpcnt => s.packer.bpcnt.setWidth 64

/-- Host register write: `ILEN`, `WIDTH`, `BSIZE` and `SYMCNT` hold the value written, a write to any other
register is ignored (44_system.md R243). A write to `CMD` issues a command and is no part of this (R245). -/
def State.writeReg (s : State) (r : Reg) (v : Word) : State :=
  match r with
  | .ilen => { s with operands := { s.operands with ilen := v } }
  | .width => { s with operands := { s.operands with width := v } }
  | .bsize => { s with operands := { s.operands with bsize := v } }
  | .symcnt => { s with operands := { s.operands with symcnt := v } }
  | .cmd | .status | .err | .errinfo | .olen | .result | .selbs | .outw | .outh | .ipos | .ibit | .bpacc
  | .bpcnt => s

/-- The offset of a register in the window (10_state.md R21). -/
def Reg.offset : Reg → Nat
  | .cmd => 0x00
  | .status => 0x08
  | .err => 0x10
  | .errinfo => 0x18
  | .ilen => 0x20
  | .width => 0x28
  | .bsize => 0x30
  | .symcnt => 0x38
  | .olen => 0x40
  | .result => 0x48
  | .selbs => 0x50
  | .outw => 0x58
  | .outh => 0x60
  | .ipos => 0x68
  | .ibit => 0x70
  | .bpacc => 0x78
  | .bpcnt => 0x80

/-- All 17 registers, in offset order. -/
def Reg.all : List Reg :=
  [.cmd, .status, .err, .errinfo, .ilen, .width, .bsize, .symcnt, .olen, .result, .selbs, .outw, .outh,
    .ipos, .ibit, .bpacc, .bpcnt]

/-- `x[ILEN] > IBUF_CAP`, the check of every command that reads `IBUF` by index (20_memory.md R68). -/
def State.inputTooLong (s : State) : Bool := decide (s.build.ibufCap.toNat < s.operands.ilen.toNat)

/-- `min(x[ILEN], IBUF_CAP)`, where the bit source ends (41_bitpacker.md R171). -/
def State.inputEnd (s : State) : Nat := min s.operands.ilen.toNat s.build.ibufCap.toNat

end Sys2Proof.Machine
end

