-- ==== Sys2Proof/Machine/Table.lean ====
section
/-! DEFINITION. Reading and writing tables and memories in their canonical form, and the byte strings of
the header integers (00_scope.md R8). -/

namespace Sys2Proof.Machine

/-- The entry at `a`, if one is listed. -/
def Table.get {α : Type} : Table α → Nat → Option α
  | [], _ => none
  | (k, v) :: m, a => if k = a then some v else Table.get m a

/-- Write the entry at `a`, in key order. -/
def Table.set {α : Type} : Table α → Nat → α → Table α
  | [], a, v => [(a, v)]
  | (k, w) :: m, a, v =>
    if a < k then (a, v) :: (k, w) :: m
    else if k = a then (a, v) :: m
    else (k, w) :: Table.set m a v

/-- The canonical form: keys rise strictly. -/
abbrev Table.wf {α : Type} (m : Table α) : Prop := (m.map Prod.fst).Pairwise (· < ·)

/-- The canonical form of a memory: addresses rise strictly. No byte is equal to what an unlisted address reads
as, because an unlisted address has no value of its own (logs 2 and 3). -/
abbrev Memory.wf (m : Memory) : Prop := (m.map Prod.fst).Pairwise (· < ·)

/-- `LE64(v)` (00_scope.md R8). -/
def le64 (v : Nat) : List Byte := (List.range 8).map fun i => BitVec.ofNat 8 (v / 256 ^ i)

/-- `unLE64(b)`, the inverse of `LE64` (00_scope.md R8). -/
def unLE64 (b : List Byte) : Nat := b.foldr (fun v acc => v.toNat + 256 * acc) 0

/-- The `n` low bits of `v`, most significant of them first (30_encoding.md R91, R101). -/
def msbFirst (n : Nat) (v : Byte) : List Bool := (List.range n).map fun i => v.getLsbD (n - 1 - i)

/-- The number a bit sequence stands for, first bit most significant (40_aht.md R136, 41_bitpacker.md R176). -/
def bitsValue (bits : List Bool) : Nat := bits.foldl (fun v b => 2 * v + b.toNat) 0

end Sys2Proof.Machine
end

