-- ==== Sys2Proof/Machine/Ops.lean ====
section
/-! DEFINITION. The operations that commands share: taking a fault and returning from one
(60_exceptions.md R276, R278), the pseudocode primitives on the buffers (00_scope.md R10), and the bit
packer and unpacker (41_bitpacker.md R170, R171, R174). -/

namespace Sys2Proof.Machine

/-- How far a command has come: it goes on, or a `raise` has ended it (00_scope.md R10). Either way the state
is the one reached. -/
inductive Run where
  | going (s : State)
  | ended (s : State)
  deriving DecidableEq, Repr

/-- The rest of the pseudocode: "nothing after [a `raise`] runs" (00_scope.md R10). -/
def Run.andThen (r : Run) (f : State → Run) : Run :=
  match r with
  | .going s => f s
  | .ended s => .ended s

/-- The state a run has reached. -/
def Run.state : Run → State
  | .going s => s
  | .ended s => s

/-- A command always ends in a next state, whether or not it raised (60_exceptions.md R276). -/
def Run.outcome (r : Run) : Host.Outcome State Fault Refusal := .next r.state

/-- Fault entry, `raise Kind(info)` (60_exceptions.md R276): the latch is set, `OLEN` is 0, all of `OBUF` is
unspecified, everything else keeps its value. -/
def State.raise (k : ErrKind) (info : Word) (s : State) : State :=
  { s with latch := Latch.latched k info, packer := { s.packer with olen := 0 }, obuf := [] }

/-- The return from a fault, which is the soft reset: every register and the tree take their reset values, the
buffers keep their contents (44_system.md R241, 60_exceptions.md R278). -/
def State.softReset (s : State) : State :=
  { s with
    latch := Latch.reset, operands := Operands.reset, packer := Packer.reset, unpacker := Unpacker.reset
    results := Results.reset, tree := Tree.fresh }

/-- Hardware reset: the state of 10_state.md R37, both buffers unspecified anew (70_reset_and_hazards.md R300,
R301). The build and the host's further moves are no state of the block. -/
def State.hardwareReset (s : State) : State :=
  { s.softReset with ibuf := [], obuf := [], ibufEpoch := s.ibufEpoch + 1, obufEpoch := s.obufEpoch + 1 }

/-- `IBUF[i]`: the byte the host wrote, or a free value where it wrote none (00_scope.md R10, 10_state.md R37). -/
def State.readIbuf (s : State) (i : Nat) : Byte :=
  (Table.get s.ibuf i).getD (Config.freeIbufByte s.ibufEpoch i)

/-- What the host reads at `OBUF[i]`: a specified byte below `OLEN`, else a free value (10_state.md R34). -/
def State.readObuf (s : State) (i : Nat) : Byte :=
  if i < s.packer.olen.toNat then (Table.get s.obuf i).getD (Config.freeObufByte s.obufEpoch i)
  else Config.freeObufByte s.obufEpoch i

/-- `MemRead(a, n)` (00_scope.md R10). -/
def State.memRead (s : State) (a n : Nat) : List Byte := (List.range n).map fun i => s.readIbuf (a + i)

/-- `IBUF[0 .. ILEN)`, the valid content of the input buffer (10_state.md R34). -/
def State.input (s : State) : List Byte := s.memRead 0 s.operands.ilen.toNat

/-- `OBUF[0 .. OLEN)`, the valid content of the output buffer (10_state.md R34). -/
def State.output (s : State) : List Byte := (List.range s.packer.olen.toNat).map s.readObuf

/-- The host writes `IBUF[i]`; `ILEN` does not change (44_system.md R244). -/
def State.writeIbuf (s : State) (i : Nat) (b : Byte) : State := { s with ibuf := Table.set s.ibuf i b }

/-- `OBUF[i] <- b` (00_scope.md R10). -/
def State.writeObuf (s : State) (i : Nat) (b : Byte) : State := { s with obuf := Table.set s.obuf i b }

/-- `emit(b)` (00_scope.md R10). -/
def emit (b : Byte) (s : State) : Run :=
  if s.build.obufCap.toNat ≤ s.packer.olen.toNat then .ended (s.raise .capacity 0)
  else
    .going { s with
      obuf := Table.set s.obuf s.packer.olen.toNat b
      packer := { s.packer with olen := s.packer.olen + 1 } }

/-- `for v in bytes: emit(v)`. -/
def emitAll : List Byte → State → Run
  | [], s => .going s
  | b :: bs, s => (emit b s).andThen (emitAll bs)

/-- `x[OLEN] <- 0; x[BPACC] <- 0; x[BPCNT] <- 0`: the packer and the output start anew, and nothing of `OBUF` is
specified (41_bitpacker.md R172, R177; 93_implementation_defined.md U4). -/
def State.restartOutput (s : State) : State := { s with packer := Packer.reset, obuf := [] }

/-- `x[IPOS] <- 0; x[IBIT] <- 0` (41_bitpacker.md R175). -/
def State.rewindInput (s : State) : State := { s with unpacker := Unpacker.reset }

/-- The opening of every command that reads `IBUF` by index: `Capacity(1)` before anything has changed, else the
output starts anew (60_exceptions.md R274, R280; 41_bitpacker.md R177). -/
def withInput (s : State) (f : State → Run) : Run :=
  if s.inputTooLong then .ended (s.raise .capacity 1) else f s.restartOutput

/-- `BPACC` with bit `b` put at position `7 - BPCNT` (41_bitpacker.md R170). -/
def Packer.accWith (p : Packer) (b : Bool) : Byte :=
  p.bpacc ||| (BitVec.ofNat 8 b.toNat <<< (7 - p.bpcnt.toNat))

/-- `putbit(b)` (41_bitpacker.md R170). Where `emit` raises, `BPACC` holds the completed byte, and `BPCNT`, for which
the pseudocode holds 8, is a free value (log 6). -/
def putBit (b : Bool) (s : State) : Run :=
  if s.packer.bpcnt = 7 then
    match emit (s.packer.accWith b) s with
    | .going t => .going { t with packer := { t.packer with bpacc := 0, bpcnt := 0 } }
    | .ended t =>
      .ended { t with
        packer := { t.packer with bpacc := s.packer.accWith b, bpcnt := Config.freePackerCount s.obufEpoch } }
  else
    .going { s with packer := { s.packer with bpacc := s.packer.accWith b, bpcnt := s.packer.bpcnt + 1 } }

/-- `for b in bits: putbit(b)`. -/
def putBits : List Bool → State → Run
  | [], s => .going s
  | b :: bs, s => (putBit b s).andThen (putBits bs)

/-- `flush()` (41_bitpacker.md R174). -/
def flush (s : State) : Run :=
  if s.packer.bpcnt = 0 then .going s
  else
    (emit s.packer.bpacc s).andThen fun t => .going { t with packer := { t.packer with bpacc := 0, bpcnt := 0 } }

/-- The unpacker's cursor after one more bit (41_bitpacker.md R171). -/
def Unpacker.next (u : Unpacker) : Unpacker :=
  if u.ibit = 7 then ⟨u.ipos + 1, 0⟩ else ⟨u.ipos, u.ibit + 1⟩

/-- `getbit()`: a bit and the state after it, or `EOS` (`none`) with nothing changed (41_bitpacker.md R171). -/
def getBit (s : State) : Option Bool × State :=
  if s.inputEnd ≤ s.unpacker.ipos.toNat then (none, s)
  else
    (some ((s.readIbuf s.unpacker.ipos.toNat).getLsbD (7 - s.unpacker.ibit.toNat)),
      { s with unpacker := s.unpacker.next })

/-- `n` bits read most significant first onto the value `v`; `none` when the bits run out, those already read
staying consumed (40_aht.md R136, 41_bitpacker.md R176). -/
def getBits : Nat → Nat → State → Option Nat × State
  | 0, v, s => (some v, s)
  | n + 1, v, s =>
    match getBit s with
    | (none, t) => (none, t)
    | (some b, t) => getBits n (2 * v + b.toNat) t

/-- The number of bits the unpacker can still deliver (10_state.md R33). -/
def State.bitsLeft (s : State) : Nat :=
  8 * (s.inputEnd - s.unpacker.ipos.toNat) - s.unpacker.ibit.toNat

end Sys2Proof.Machine
end

