-- ==== Sys2Proof/Machine/Rle.lean ====
section
/-! DEFINITION. The run-length family: the flat RLE transforms (42_rle.md Parts A and B), `RLE.ENC` and `RLE.DEC`
(Part C). -/

namespace Sys2Proof.Machine

/-- How many of the bytes of `rest` extend a match of `b`, at most `k`: bytes equal to `b`, never the last byte of
the sequence (42_rle.md R190, R191). -/
def matchMore (b : Byte) : Nat → List Byte → Nat
  | 0, _ => 0
  | _ + 1, [] => 0
  | _ + 1, [_] => 0
  | k + 1, c :: d :: rest => if c = b then matchMore b k (d :: rest) + 1 else 0

/-- `L`, the length of the match that starts with `b`, at most 258 (42_rle.md R190, R192). -/
def matchLen (b : Byte) (rest : List Byte) : Nat := 1 + matchMore b (rleMaxRun - 1) rest

/-- The loop of `rle_fwd`, at most `k` rounds; each round takes at least one byte (42_rle.md R190). -/
def rleFwdLoop : Nat → List Byte → List Byte
  | 0, _ => []
  | _ + 1, [] => []
  | k + 1, b :: rest =>
    if rleTrigger ≤ matchLen b rest then
      [b, b, b, BitVec.ofNat 8 (matchLen b rest - rleTrigger)]
        ++ rleFwdLoop k (rest.drop (matchLen b rest - 1))
    else b :: rleFwdLoop k rest

/-- `rle_fwd(x)` (42_rle.md R190). -/
def rleFwd (x : List Byte) : List Byte := rleFwdLoop x.length x

/-- The run state `(last, cnt)` of the inverse (42_rle.md R193). -/
structure RunState where
  last : Option Byte
  cnt  : Nat
  deriving DecidableEq, Repr

/-- The initial run state `(none, 0)` (42_rle.md R193). -/
def RunState.start : RunState := ⟨none, 0⟩

/-- `rle_step` (42_rle.md R193). -/
def rleStep (st : RunState) (v : Byte) : RunState × List Byte :=
  if st.cnt = rleTrigger then (RunState.start, List.replicate v.toNat (st.last.getD 0))
  else if st.last = some v then (⟨some v, st.cnt + 1⟩, [v])
  else (⟨some v, 1⟩, [v])

/-- `rle_inv` from a run state on (42_rle.md R194). -/
def rleInvFrom : RunState → List Byte → List Byte
  | _, [] => []
  | st, v :: y => (rleStep st v).2 ++ rleInvFrom (rleStep st v).1 y

/-- `rle_inv(y)` (42_rle.md R194). -/
def rleInv (y : List Byte) : List Byte := rleInvFrom RunState.start y

/-- `RLE.ENC` (42_rle.md R199). -/
def execRleEnc (s : State) : Host.Outcome State Fault Refusal :=
  (withInput s fun t => emitAll (rleFwd t.input) t).outcome

/-- `RLE.DEC` (42_rle.md R200). -/
def execRleDec (s : State) : Host.Outcome State Fault Refusal :=
  (withInput s fun t => emitAll (rleInv t.input) t).outcome

end Sys2Proof.Machine
end

