-- ==== Sys2Proof/Machine/Abr.lean ====
section
/-! DEFINITION. The adaptive block RLE family: geometry, forward transform, search, reverse transform
(43_abr.md Parts A to D), `ABR.ENC1`, `ABR.ENC` and `ABR.DEC` (Part E). -/

namespace Sys2Proof.Machine

/-- A block of the matrix: its top left element and its clipped size (43_abr.md R211). -/
structure Tile where
  x0 : Nat
  y0 : Nat
  w  : Nat
  h  : Nat
  deriving DecidableEq, Repr

/-- `nb`, the number of blocks (43_abr.md R211). -/
def blockCount (W H bs : Nat) : Nat := cdiv W bs * cdiv H bs

/-- Block `k` (43_abr.md R211). -/
def tileOf (W H bs k : Nat) : Tile :=
  let x0 := k % cdiv W bs * bs
  let y0 := k / cdiv W bs * bs
  ⟨x0, y0, min bs (W - x0), min bs (H - y0)⟩

/-- Index in the flat sequence of the element in row `r`, column `c` of the block (43_abr.md R210, R212). -/
def Tile.index (b : Tile) (W r c : Nat) : Nat := (b.y0 + r) * W + b.x0 + c

/-- The indices of the block in row-major order (43_abr.md R212). -/
def Tile.horIndices (b : Tile) (W : Nat) : List Nat :=
  (List.range b.h).flatMap fun r => (List.range b.w).map fun c => b.index W r c

/-- The indices of the block in column-major order (43_abr.md R212). -/
def Tile.verIndices (b : Tile) (W : Nat) : List Nat :=
  (List.range b.w).flatMap fun c => (List.range b.h).map fun r => b.index W r c

/-- The indices of the block in the order its direction bit names: 1 horizontal, 0 vertical (43_abr.md R213). -/
def Tile.indices (b : Tile) (W : Nat) (dir : Bool) : List Nat :=
  if dir then b.horIndices W else b.verIndices W

/-- `hor(k)` and `ver(k)`: the block's bytes in one of the two orders (43_abr.md R212). -/
def Tile.extract (b : Tile) (x : List Byte) (W : Nat) (dir : Bool) : List Byte :=
  (b.indices W dir).map fun i => x.getD i 0

/-- `choose(k)`: the direction bit and the encoding; ties are horizontal (43_abr.md R213, R217). -/
def choose (x : List Byte) (W : Nat) (b : Tile) : Bool × List Byte :=
  let eh := rleFwd (b.extract x W true)
  let ev := rleFwd (b.extract x W false)
  if eh.length ≤ ev.length then (true, eh) else (false, ev)

/-- Direction byte `j`: block `8 * j + i` at bit `7 - i`, unused bits 0 (43_abr.md R214). -/
def dirByte (dirs : List Bool) (j : Nat) : Byte :=
  BitVec.ofNat 8 (bitsValue ((List.range 8).map fun i => dirs.getD (8 * j + i) false))

/-- The packed direction bits (43_abr.md R214, 30_encoding.md R106). -/
def packDirs (dirs : List Bool) : List Byte := (List.range (cdiv dirs.length 8)).map (dirByte dirs)

/-- The Adaptive-RLE header (30_encoding.md R105). -/
def abrHeader (W H bs : Nat) (dirs : List Bool) : List Byte := le64 W ++ le64 H ++ le64 bs ++ packDirs dirs

/-- `choose(k)` for every block, in block order (43_abr.md R215). -/
def choices (x : List Byte) (W H bs : Nat) : List (Bool × List Byte) :=
  (List.range (blockCount W H bs)).map fun k => choose x W (tileOf W H bs k)

/-- `abr_cand(x, W, H, bs)`: the full encoded output for one block size (43_abr.md R215, 30_encoding.md R107). -/
def abrCand (x : List Byte) (W H bs : Nat) : List Byte :=
  abrHeader W H bs ((choices x W H bs).map Prod.fst) ++ (choices x W H bs).flatMap Prod.snd

/-- A candidate of the search: its output and its block size (43_abr.md R216). -/
structure Candidate where
  out : List Byte
  bs  : Nat
  deriving DecidableEq, Repr

/-- Keep the smaller output, and the earlier one where they are equal (43_abr.md R216, R217). -/
def better (best : Option Candidate) (c : Candidate) : Candidate :=
  match best with
  | none => c
  | some b => if c.out.length < b.out.length then c else b

/-- The loop of `abr_search` with `k` steps to go (43_abr.md R216). -/
def abrSearchFrom (x : List Byte) (W H : Nat) : Nat → Nat → Option Candidate → Option Candidate
  | 0, _, best => best
  | k + 1, bs, best =>
    if W < bs ∨ H < bs then best
    else abrSearchFrom x W H k (2 * bs) (some (better best ⟨abrCand x W H bs, bs⟩))

/-- `abr_search(x, W, H)`, for the build's `BS_MIN` and `BS_MAX_DOUBLINGS` (43_abr.md R216). -/
def abrSearch (b : Build) (x : List Byte) (W H : Nat) : Option Candidate :=
  abrSearchFrom x W H (b.bsMaxDoublings + 1) b.bsMin none

/-- `SELBS` and `OUTH` of the forward commands (43_abr.md R222, R223). -/
def State.setForward (bs h : Nat) (s : State) : State :=
  { s with results := { s.results with selbs := BitVec.ofNat 64 bs, outh := BitVec.ofNat 64 h } }

/-- `ABR.ENC1` after the common opening (43_abr.md R222). -/
def abrEnc1Body (s : State) : Run :=
  let n := s.operands.ilen.toNat
  let W := s.operands.width.toNat
  let bs := s.operands.bsize.toNat
  if W = 0 ∨ n = 0 ∨ n % W ≠ 0 ∨ bs = 0 then .ended (s.raise .invalidDimensions 0)
  else (emitAll (abrCand s.input W (n / W) bs) s).andThen fun t => .going (t.setForward bs (n / W))

/-- `ABR.ENC1` (43_abr.md R222). -/
def execAbrEnc1 (s : State) : Host.Outcome State Fault Refusal := (withInput s abrEnc1Body).outcome

/-- `ABR.ENC` after the common opening (43_abr.md R223). The search has no candidate exactly when a dimension is
below `BS_MIN`, which the check before it has ruled out (R216: "`best` is never `none`"). -/
def abrEncBody (s : State) : Run :=
  let n := s.operands.ilen.toNat
  let W := s.operands.width.toNat
  let H := n / W
  if W = 0 ∨ n % W ≠ 0 then .ended (s.raise .invalidDimensions 0)
  else if W < s.build.bsMin ∨ H < s.build.bsMin then .ended (s.raise .invalidDimensions 0)
  else
    match abrSearch s.build s.input W H with
    | none => .ended (s.raise .invalidDimensions 0)
    | some best => (emitAll best.out s).andThen fun t => .going (t.setForward best.bs H)

/-- `ABR.ENC` (43_abr.md R223). -/
def execAbrEnc (s : State) : Host.Outcome State Fault Refusal := (withInput s abrEncBody).outcome

/-- What `abr_parse` finds in a header (43_abr.md R219). -/
structure Header where
  W   : Nat
  H   : Nat
  bs  : Nat
  deriving DecidableEq, Repr

/-- `nb` of the header (43_abr.md R219). -/
def Header.blocks (h : Header) : Nat := blockCount h.W h.H h.bs

/-- `dbn`, the number of direction bytes (43_abr.md R219). -/
def Header.dirBytes (h : Header) : Nat := cdiv h.blocks 8

/-- `abr_parse()`; none where it raises `MalformedHeader(0)` (43_abr.md R219). -/
def abrParse (s : State) : Option Header :=
  let n := s.operands.ilen.toNat
  if n < abrFixedHeader then none
  else
    let h : Header := ⟨unLE64 (s.memRead 0 8), unLE64 (s.memRead 8 8), unLE64 (s.memRead 16 8)⟩
    if h.W = 0 ∨ h.H = 0 ∨ h.bs = 0 then none
    else if 2 ^ 64 ≤ h.W * h.H then none
    else if n - abrFixedHeader < h.dirBytes then none
    else some h

/-- Why a block cannot be decoded (42_rle.md R196). -/
inductive BlockError where
  | truncated
  | overrun
  deriving DecidableEq, Repr

/-- The loop of `rle_block` (42_rle.md R196): `left` input bytes remain from `pos` on, `need` bytes are still to be
produced. The bytes produced and the index after the last byte consumed. -/
def rleBlockLoop (s : State) : Nat → Nat → Nat → RunState → Except BlockError (List Byte × Nat)
  | left, pos, need, st =>
    if need = 0 then .ok ([], pos)
    else
      match left with
      | 0 => .error .truncated
      | left + 1 =>
        if need < (rleStep st (s.readIbuf pos)).2.length then .error .overrun
        else
          match rleBlockLoop s left (pos + 1) (need - (rleStep st (s.readIbuf pos)).2.length)
              (rleStep st (s.readIbuf pos)).1 with
          | .error e => .error e
          | .ok (out, pos') => .ok ((rleStep st (s.readIbuf pos)).2 ++ out, pos')

/-- `rle_block(pos, need, k)`, with a fresh run state (42_rle.md R196). -/
def rleBlock (s : State) (pos need : Nat) : Except BlockError (List Byte × Nat) :=
  rleBlockLoop s (s.operands.ilen.toNat - pos) pos need RunState.start

/-- The fault of a block that cannot be decoded, with the block's index (42_rle.md R196, 60_exceptions.md R272). -/
def State.raiseBlock (e : BlockError) (k : Nat) (s : State) : State :=
  match e with
  | .truncated => s.raise .truncatedBlockData (BitVec.ofNat 64 k)
  | .overrun => s.raise .runOverrun (BitVec.ofNat 64 k)

/-- The recorded direction of block `k` (43_abr.md R220, 30_encoding.md R106). -/
def dirOf (s : State) (k : Nat) : Bool := (s.readIbuf (abrFixedHeader + k / 8)).getLsbD (7 - k % 8)

/-- Write each byte to its index of `OBUF`. -/
def writeAt : List (Nat × Byte) → State → State
  | [], s => s
  | (i, v) :: rest, s => writeAt rest (s.writeObuf i v)

/-- `scatter(d, dir, x0, y0, w, h, W)`: the inverse of the extraction (43_abr.md R221). Element `j` of `d` goes to the
index that the block's `j`-th element in the recorded order has. -/
def scatter (d : List Byte) (dir : Bool) (b : Tile) (W : Nat) (s : State) : State :=
  writeAt ((b.indices W dir).zip d) s

/-- The loop of `abr_rev`: `m` more blocks from block `k` and input index `pos` on (43_abr.md R220). -/
def abrBlocks (h : Header) : Nat → Nat → Nat → State → Run
  | 0, _, pos, s =>
    if pos < s.operands.ilen.toNat then .ended (s.raise .trailingData (BitVec.ofNat 64 pos)) else .going s
  | m + 1, k, pos, s =>
    match rleBlock s pos ((tileOf h.W h.H h.bs k).w * (tileOf h.W h.H h.bs k).h) with
    | .error e => .ended (s.raiseBlock e k)
    | .ok (d, pos') => abrBlocks h m (k + 1) pos' (scatter d (dirOf s k) (tileOf h.W h.H h.bs k) h.W s)

/-- What a completed `ABR.DEC` reports (43_abr.md R224). -/
def State.setReverse (h : Header) (s : State) : State :=
  { s with
    results := { s.results with
      outw := BitVec.ofNat 64 h.W, outh := BitVec.ofNat 64 h.H, selbs := BitVec.ofNat 64 h.bs }
    packer := { s.packer with olen := BitVec.ofNat 64 (h.W * h.H) } }

/-- `ABR.DEC` after the common opening (43_abr.md R220, R224). -/
def abrDecBody (s : State) : Run :=
  match abrParse s with
  | none => .ended (s.raise .malformedHeader 0)
  | some h =>
    if s.build.obufCap.toNat < h.W * h.H then .ended (s.raise .capacity 0)
    else
      (abrBlocks h h.blocks 0 (abrFixedHeader + h.dirBytes) s).andThen fun t => .going (t.setReverse h)

/-- `ABR.DEC` (43_abr.md R224). -/
def execAbrDec (s : State) : Host.Outcome State Fault Refusal := (withInput s abrDecBody).outcome

end Sys2Proof.Machine
end

