-- ==== Sys2Proof/Machine/Tree.lean ====
section
/-! DEFINITION. The functions on the Adaptive Huffman Tree: path, code, decoding, split, leader search, swap and
update (40_aht.md Part A). The loops run on fuel that never runs out on a tree of 10_state.md R31 (log 9). -/

namespace Sys2Proof.Machine

/-- `NODE[n].parent`, where it is valid (10_state.md R28). -/
def Tree.parent (t : Tree) (n : Nat) : Option Nat := (Table.get t.node n).bind Entry.parent

/-- `NODE[n].freq`, where it is valid (10_state.md R28). -/
def Tree.freq (t : Tree) (n : Nat) : Option Nat := (Table.get t.node n).map Entry.freq

/-- `NODE[n].kind` with its fields; none where it is `FREE` (10_state.md R28). -/
def Tree.body (t : Tree) (n : Nat) : Option Body := (Table.get t.node n).map Entry.body

/-- `LEAFOF[s]`; none where it is `unset` (10_state.md R30). -/
def Tree.leafNum (t : Tree) (s : Byte) : Option Nat := Table.get t.leafOf s.toNat

/-- The direction bit from `p` to `n`: 0 when `NODE[p].left == n`, else 1 (40_aht.md R132). -/
def Tree.dirBit (t : Tree) (p n : Nat) : Bool :=
  match t.body p with
  | some (.int l _) => decide (l ≠ n)
  | _ => true

/-- The loop of `path`, with the bits found so far (40_aht.md R132). -/
def Tree.pathFrom (t : Tree) : Nat → Nat → List Bool → List Bool
  | 0, _, bits => bits
  | k + 1, n, bits =>
    if n = rootNum then bits
    else
      match t.parent n with
      | none => bits
      | some p => Tree.pathFrom t k p (t.dirBit p n :: bits)

/-- `path(n)`: the direction bits from the root to entry `n` (40_aht.md R132). -/
def Tree.path (t : Tree) (n : Nat) : List Bool := t.pathFrom nodeSlots n []

/-- `code(s)` (40_aht.md R135, 30_encoding.md R100, R101). -/
def Tree.code (t : Tree) (s : Byte) : List Bool :=
  match t.leafNum s with
  | some n => t.path n
  | none => t.path t.nytn ++ msbFirst 8 s

/-- `split(s)` (40_aht.md R137): new NYT on the left with number `o - 2`, new leaf on the right with `o - 1`. -/
def Tree.split (t : Tree) (s : Byte) : Tree :=
  match Table.get t.node t.nytn with
  | none => t
  | some e =>
    let o := t.nytn
    let opened := Table.set t.node o { e with body := .int (o - 2) (o - 1) }
    let withNyt := Table.set opened (o - 2) ⟨some o, 0, .nyt⟩
    { node := Table.set withNyt (o - 1) ⟨some o, 0, .leaf s⟩
      nytn := o - 2
      leafOf := Table.set t.leafOf s.toNat (o - 1) }

/-- The scan of `leader` from number `m` down to `cur + 1`, for frequency `f` and excluded parent `p`
(40_aht.md R138). -/
def Tree.leaderScan (t : Tree) (cur f : Nat) (p : Option Nat) : Nat → Option Nat
  | 0 => none
  | m + 1 =>
    if m + 1 ≤ cur then none
    else if some (m + 1) ≠ p ∧ t.freq (m + 1) = some f then some (m + 1)
    else Tree.leaderScan t cur f p m

/-- `leader(cur)`: the highest number above `cur` of equal frequency that is not the parent (40_aht.md R138). -/
def Tree.leader (t : Tree) (cur : Nat) : Option Nat :=
  match Table.get t.node cur with
  | none => none
  | some e => t.leaderScan cur e.freq e.parent rootNum

/-- `NODE[c].parent <- n`. -/
def Tree.setParent (t : Tree) (c n : Nat) : Tree :=
  match Table.get t.node c with
  | none => t
  | some e => { t with node := Table.set t.node c { e with parent := some n } }

/-- The repair of `swap` at `n`: the children of an `INT` entry and the symbol of a `LEAF` entry are told that
they hang at `n` (40_aht.md R139). -/
def Tree.repair (t : Tree) (n : Nat) : Tree :=
  match t.body n with
  | some (.int l r) => (t.setParent l n).setParent r n
  | some (.leaf s) => { t with leafOf := Table.set t.leafOf s.toNat n }
  | some .nyt => t
  | none => t

/-- The exchange of `swap`: contents move, `parent` stays with the position (40_aht.md R139). -/
def Tree.exchange (t : Tree) (p q : Nat) : Tree :=
  match Table.get t.node p, Table.get t.node q with
  | some a, some b =>
    { t with
      node := Table.set (Table.set t.node p ⟨a.parent, b.freq, b.body⟩) q ⟨b.parent, a.freq, a.body⟩ }
  | _, _ => t

/-- `swap(p, q)` (40_aht.md R139). -/
def Tree.swap (t : Tree) (p q : Nat) : Tree := ((t.exchange p q).repair p).repair q

/-- `NODE[n].freq <- NODE[n].freq + 1`. -/
def Tree.bump (t : Tree) (n : Nat) : Tree :=
  match Table.get t.node n with
  | none => t
  | some e => { t with node := Table.set t.node n { e with freq := e.freq + 1 } }

/-- One visit of step 2 of `update`: swap with the leader if there is one, increment, and give the position
reached (40_aht.md R140). -/
def Tree.visit (t : Tree) (cur : Nat) : Tree × Nat :=
  match t.leader cur with
  | some l => ((t.swap cur l).bump l, l)
  | none => (t.bump cur, cur)

/-- Step 2 of `update`, the walk from `cur` to the root (40_aht.md R140). -/
def Tree.walk : Nat → Nat → Tree → Tree
  | 0, _, t => t
  | k + 1, cur, t =>
    if cur = rootNum then t
    else
      match (t.visit cur).1.parent (t.visit cur).2 with
      | none => (t.visit cur).1
      | some p => Tree.walk k p (t.visit cur).1

/-- Step 1 of `update`: the tree in which `s` has a leaf (40_aht.md R140). -/
def Tree.withLeaf (t : Tree) (s : Byte) : Tree :=
  match t.leafNum s with
  | none => t.split s
  | some _ => t

/-- Steps 2 and 3 of `update` (40_aht.md R140). -/
def Tree.promote (t : Tree) (s : Byte) : Tree :=
  match t.leafNum s with
  | none => t.bump rootNum
  | some n => (Tree.walk nodeSlots n t).bump rootNum

/-- `update(s)` (40_aht.md R140); none where the root's counter is full and `Capacity(2)` is raised before
anything has changed (R142). -/
def Tree.update (t : Tree) (s : Byte) : Option Tree :=
  if t.freq rootNum = some freqMax then none else some ((t.withLeaf s).promote s)

/-- `update(s)` as part of a command. -/
def updateTree (sym : Byte) (s : State) : Run :=
  match s.tree.update sym with
  | none => .ended (s.raise .capacity 2)
  | some t => .going { s with tree := t }

/-- The literal of `decode_symbol`: 8 bits, most significant first (40_aht.md R136). -/
def decodeLiteral (s : State) : Option Byte × State :=
  match getBits 8 0 s with
  | (none, t) => (none, t)
  | (some v, t) => (some (BitVec.ofNat 8 v), t)

/-- The walk of `decode_symbol` from entry `n` (40_aht.md R136). Each round reads a bit, so as many rounds as bits
are left, and one more, are enough for any table. -/
def decodeFrom : Nat → Nat → State → Option Byte × State
  | 0, _, s => (none, s)
  | k + 1, n, s =>
    match s.tree.body n with
    | some (.int l r) =>
      match getBit s with
      | (none, t) => (none, t)
      | (some b, t) => decodeFrom k (if b then r else l) t
    | some (.leaf sym) => (some sym, s)
    | some .nyt => decodeLiteral s
    | none => decodeLiteral s

/-- `decode_symbol()`: the symbol, or none for `EOS`, and the state after it (40_aht.md R136). -/
def decodeSymbol (s : State) : Option Byte × State := decodeFrom (s.bitsLeft + 1) rootNum s

end Sys2Proof.Machine
end

