-- ==== Sys2Proof/Machine/Aht.lean ====
section
/-! DEFINITION. The adaptive Huffman tree family: `HT.INIT`, `HT.ENC`, `HT.UPD`, `HT.DEC`, `HT.ENCBUF`,
`HT.DECBUF` (40_aht.md Part B). -/

namespace Sys2Proof.Machine

/-- The pseudocode of `HT.INIT`, which the session commands also run (40_aht.md R144, R148, R149). -/
def State.freshTree (s : State) : State := { s with tree := Tree.fresh }

/-- `HT.INIT` (40_aht.md R144). -/
def execHtInit (s : State) : Host.Outcome State Fault Refusal := .next s.freshTree

/-- `for b in code(sym): putbit(b)` (40_aht.md R145). -/
def putCode (sym : Byte) (s : State) : Run := putBits (s.tree.code sym) s

/-- `HT.ENC sym` (40_aht.md R145). -/
def execHtEnc (sym : Byte) (s : State) : Host.Outcome State Fault Refusal := (putCode sym s).outcome

/-- `HT.UPD sym` (40_aht.md R146). -/
def execHtUpd (sym : Byte) (s : State) : Host.Outcome State Fault Refusal := (updateTree sym s).outcome

/-- `HT.DEC` (40_aht.md R147): `EOS` gives `RESULT` = 0x100. -/
def execHtDec (s : State) : Host.Outcome State Fault Refusal :=
  .next ((decodeSymbol s).2.setResult (decodeSymbol s).1)

/-- The loop of `HT.ENCBUF` over `k` bytes from index `i` on (40_aht.md R148). -/
def encodeLoop : Nat → Nat → State → Run
  | 0, _, s => .going s
  | k + 1, i, s =>
    (putCode (s.readIbuf i) s).andThen fun t => (updateTree (s.readIbuf i) t).andThen (encodeLoop k (i + 1))

/-- `HT.ENCBUF` (40_aht.md R148). -/
def execHtEncbuf (s : State) : Host.Outcome State Fault Refusal :=
  (withInput s fun t => (encodeLoop t.operands.ilen.toNat 0 t.freshTree).andThen flush).outcome

/-- The loop of `HT.DECBUF`: `k` more symbols, `i` decoded so far (40_aht.md R149). -/
def decodeLoop : Nat → Nat → State → Run
  | 0, _, s => .going s
  | k + 1, i, s =>
    match decodeSymbol s with
    | (none, t) => .ended (t.raise .corruptBitstream (BitVec.ofNat 64 i))
    | (some v, t) => (emit v t).andThen fun u => (updateTree v u).andThen (decodeLoop k (i + 1))

/-- `used`, the input bytes of which at least one bit has been read (40_aht.md R149). -/
def Unpacker.bytesUsed (u : Unpacker) : Nat := u.ipos.toNat + (if u.ibit = 0 then 0 else 1)

/-- The last check of `HT.DECBUF`: whole bytes that no symbol reached (40_aht.md R149). -/
def checkAllUsed (s : State) : Run :=
  if s.unpacker.bytesUsed < s.operands.ilen.toNat then
    .ended (s.raise .trailingData (BitVec.ofNat 64 s.unpacker.bytesUsed))
  else .going s

/-- `HT.DECBUF` (40_aht.md R149). -/
def execHtDecbuf (s : State) : Host.Outcome State Fault Refusal :=
  (withInput s fun t =>
    (decodeLoop t.operands.symcnt.toNat 0 t.freshTree.rewindInput).andThen checkAllUsed).outcome

end Sys2Proof.Machine
end

