-- ==== Sys2Proof/Machine/Bsp.lean ====
section
/-! DEFINITION. The bit-stream family: `BP.INIT`, `BP.PUT`, `BP.FLUSH`, `BU.INIT`, `BU.GET`
(41_bitpacker.md Part B). -/

namespace Sys2Proof.Machine

/-- `BP.INIT` (41_bitpacker.md R172). -/
def execBpInit (s : State) : Host.Outcome State Fault Refusal := .next s.restartOutput

/-- `BP.PUT n, val` (41_bitpacker.md R173). -/
def execBpPut (n : BitVec 4) (val : Byte) (s : State) : Host.Outcome State Fault Refusal :=
  (putBits (msbFirst n.toNat val) s).outcome

/-- `BP.FLUSH` (41_bitpacker.md R174). -/
def execBpFlush (s : State) : Host.Outcome State Fault Refusal := (flush s).outcome

/-- `BU.INIT` (41_bitpacker.md R175). -/
def execBuInit (s : State) : Host.Outcome State Fault Refusal := .next s.rewindInput

/-- `BU.GET n` (41_bitpacker.md R176). -/
def execBuGet (n : BitVec 4) (s : State) : Host.Outcome State Fault Refusal :=
  match getBits n.toNat 0 s with
  | (none, t) => .next (t.setResult none)
  | (some v, t) => .next (t.setResult (some (BitVec.ofNat 8 v)))

end Sys2Proof.Machine
end

