-- ==== Sys2Proof/Machine/System.lean ====
section
/-! DEFINITION. The system family: `NOP` and `SRST` (44_system.md R240, R241). -/

namespace Sys2Proof.Machine

/-- `NOP`: "(no state change)" (44_system.md R240). -/
def execNop (s : State) : Host.Outcome State Fault Refusal := .next s

/-- `SRST` (44_system.md R241). -/
def execSrst (s : State) : Host.Outcome State Fault Refusal := .next s.softReset

end Sys2Proof.Machine
end

