-- ==== Sys2Proof/Machine/Dispatch.lean ====
section
/-! DEFINITION. One arm per command: the meaning it calls (30_encoding.md R92). -/

namespace Sys2Proof.Machine

def exec (i : Instr) (s : State) : Host.Outcome State Fault Refusal :=
  match i with
  | .nop => Sys2Proof.Machine.execNop s
  | .srst => Sys2Proof.Machine.execSrst s
  | .htInit => Sys2Proof.Machine.execHtInit s
  | .htEnc sym => Sys2Proof.Machine.execHtEnc sym s
  | .htUpd sym => Sys2Proof.Machine.execHtUpd sym s
  | .htDec => Sys2Proof.Machine.execHtDec s
  | .htEncbuf => Sys2Proof.Machine.execHtEncbuf s
  | .htDecbuf => Sys2Proof.Machine.execHtDecbuf s
  | .bpInit => Sys2Proof.Machine.execBpInit s
  | .bpPut n val => Sys2Proof.Machine.execBpPut n val s
  | .bpFlush => Sys2Proof.Machine.execBpFlush s
  | .buInit => Sys2Proof.Machine.execBuInit s
  | .buGet n => Sys2Proof.Machine.execBuGet n s
  | .rleEnc => Sys2Proof.Machine.execRleEnc s
  | .rleDec => Sys2Proof.Machine.execRleDec s
  | .abrEnc1 => Sys2Proof.Machine.execAbrEnc1 s
  | .abrEnc => Sys2Proof.Machine.execAbrEnc s
  | .abrDec => Sys2Proof.Machine.execAbrDec s

end Sys2Proof.Machine
end

