-- ==== Sys2Proof/Machine/Window.lean ====
section
/-! DEFINITION. The window of the block in the host's address space (20_memory.md R64, R65, R67, R68). -/

namespace Sys2Proof.Machine

/-- What an access through the window reaches (20_memory.md R67). -/
inductive Target where
  | reg (r : Reg)
  | reserved
  | ibuf (i : Nat)
  | obuf (i : Nat)
  deriving DecidableEq, Repr

/-- First offset after the registers (20_memory.md R67). -/
def regEnd : Nat := 0x88

/-- Offset of `IBUF[0]` (20_memory.md R67). -/
def ibufBase : Nat := 0x100000

/-- Offset of `OBUF[0]`: 0x0020_0000, or for a larger build the end of `IBUF` rounded up to a multiple of 2^20
(20_memory.md R67). -/
def obufBase (b : Build) : Nat := max 0x200000 (cdiv (ibufBase + b.ibufCap.toNat) 0x100000 * 0x100000)

/-- The register at a listed offset (10_state.md R21). -/
def regAt (off : Nat) : Option Reg := Reg.all.find? fun r => Reg.offset r = off

/-- What `bytes` bytes at offset `off` of the window reach, or why there is no step (20_memory.md R65, R67, R68;
log 8 for buffer accesses of another width). -/
def targetAt (b : Build) (off bytes : Nat) : Except Refusal Target :=
  if off < regEnd then
    if bytes = 8 then
      match regAt off with
      | some r => .ok (.reg r)
      | none => .error .notARegisterAccess
    else .error .notARegisterAccess
  else if off + bytes ≤ ibufBase ∧ 1 ≤ bytes ∧ bytes ≤ 8 then .ok .reserved
  else if ibufBase ≤ off ∧ off < ibufBase + b.ibufCap.toNat then
    if bytes = 1 then .ok (.ibuf (off - ibufBase)) else .error .notAByteAccess
  else if obufBase b ≤ off ∧ off < obufBase b + b.obufCap.toNat then
    if bytes = 1 then .ok (.obuf (off - obufBase b)) else .error .notAByteAccess
  else .error .outsideWindow

/-- What an access at a bus address reaches; the window starts at `BLOCK_BASE` (20_memory.md R67). -/
def busTarget (b : Build) (addr bytes : Nat) : Except Refusal Target :=
  if addr < b.blockBase then .error .outsideWindow else targetAt b (addr - b.blockBase) bytes

end Sys2Proof.Machine
end

