-- ==== Sys2Proof/Machine/Issue.lean ====
section
/-! DEFINITION. Issuing a command and the host's other moves (44_system.md R242 to R246). -/

namespace Sys2Proof.Machine

/-- A command is accepted: `BUSY` is 1 inside it (44_system.md R245), and no byte of `OBUF` that no rule specifies
keeps its value over it (20_memory.md R75; log 3). -/
def State.begin (s : State) : State :=
  { s with latch := { s.latch with busy := true }, obufEpoch := s.obufEpoch + 1 }

/-- A command has completed: `BUSY` is 0 (10_state.md R25). -/
def State.finish (s : State) : State := { s with latch := { s.latch with busy := false } }

/-- The completion of a command's outcome. -/
def finishOutcome : Host.Outcome State Fault Refusal → Host.Outcome State Fault Refusal
  | .next s => .next s.finish
  | .fault r => .fault r
  | .refused r => .refused r

/-- The word of `SRST`, "0x01000000" (44_system.md R245). -/
def srstWord : CmdWord := 0x01000000

/-- `issue(word)` (44_system.md R245): refused by the latch with no state change, `IllegalCommand`
(60_exceptions.md R283), or the command's pseudocode. -/
def issue (w : CmdWord) (s : State) : Host.Outcome State Fault Refusal :=
  if s.latch.fault = true ∧ w ≠ srstWord then .next s
  else
    match decode w with
    | .error _ => .next (s.begin.raise .illegalCommand (w.setWidth 64))
    | .ok i => finishOutcome (exec i s.begin)

/-- A host read returns a value and changes nothing of the block (20_memory.md R66; log 5). -/
def State.replyWith (v : Word) (s : State) : State := { s with reply := some v }

/-- Host read of `IBUF[i]` (44_system.md R244). -/
def readIbufMove (i : Nat) (s : State) : Host.Outcome State Fault Refusal :=
  if i < s.build.ibufCap.toNat then .next (s.replyWith ((s.readIbuf i).setWidth 64)) else .refused .outsideWindow

/-- Host read of `OBUF[i]` (44_system.md R244). -/
def readObufMove (i : Nat) (s : State) : Host.Outcome State Fault Refusal :=
  if i < s.build.obufCap.toNat then .next (s.replyWith ((s.readObuf i).setWidth 64)) else .refused .outsideWindow

/-- Host write of `IBUF[i]` (44_system.md R244). -/
def writeIbufMove (i : Nat) (v : Byte) (s : State) : Host.Outcome State Fault Refusal :=
  if i < s.build.ibufCap.toNat then .next (s.writeIbuf i v) else .refused .outsideWindow

/-- Host register write; a write to `CMD` issues bits 31:0 (44_system.md R243, R245). -/
def writeRegMove (r : Reg) (v : Word) (s : State) : Host.Outcome State Fault Refusal :=
  if r = .cmd then issue (v.setWidth 32) s else .next (s.writeReg r v)

/-- A host access by bus address (20_memory.md R67). -/
def busMove (a : BusAccess) (s : State) : Host.Outcome State Fault Refusal :=
  match a with
  | .read addr bytes =>
    match busTarget s.build addr bytes with
    | .error r => .refused r
    | .ok (.reg r) => .next (s.replyWith (s.readReg r))
    | .ok .reserved => .next (s.replyWith 0)
    | .ok (.ibuf i) => readIbufMove i s
    | .ok (.obuf i) => readObufMove i s
  | .write addr bytes v =>
    match busTarget s.build addr bytes with
    | .error r => .refused r
    | .ok (.reg r) => writeRegMove r v s
    | .ok .reserved => .next s
    | .ok (.ibuf i) => writeIbufMove i (v.setWidth 8) s
    | .ok (.obuf _) => .refused .hostWriteToObuf

/-- A move of the host other than reset, the unit being idle (44_system.md R242 to R245). -/
def idleMove (m : HostMove) (s : State) : Host.Outcome State Fault Refusal :=
  match m with
  | .hwReset => .next s.hardwareReset
  | .regRead r => .next (s.replyWith (s.readReg r))
  | .regWrite r v => writeRegMove r v s
  | .ibufRead i => readIbufMove i s
  | .ibufWrite i v => writeIbufMove i v s
  | .obufRead i => readObufMove i s
  | .obufWrite _ _ => .refused .hostWriteToObuf
  | .bus a => busMove a s

/-- A move of the host. Hardware reset has priority over everything (60_exceptions.md R285); any other move needs
the unit idle (70_reset_and_hazards.md R303; log 7). -/
def hostMove (m : HostMove) (s : State) : Host.Outcome State Fault Refusal :=
  if m = .hwReset then .next s.hardwareReset
  else if s.latch.busy = true then .refused .hostWhileBusy
  else idleMove m s

/-- The host's next move is taken off its list. -/
def State.popMove (s : State) : State := { s with host := s.host.tail }

/-- The state whose next move is to issue the word `w` (of which `nbits` bits are given, the rest 0). -/
def State.pushWord (s : State) (nbits w : Nat) : State :=
  { s with host := HostMove.issue (BitVec.ofNat 32 (w % 2 ^ nbits)) :: s.host }

end Sys2Proof.Machine
end

