-- ==== Sys2Proof/Machine/Step.lean ====
section
/-! DEFINITION. One step of the whole system: one move of the host (44_system.md R246). -/

namespace Sys2Proof.Machine

/-- One step (44_system.md R246). With no move pending "the block then waits for the host" and keeps all its state
(70_reset_and_hazards.md R300, 60_exceptions.md R286). -/
def step (s : State) : Host.Outcome State Fault Refusal :=
  match s.host with
  | [] => .next s
  | m :: _ => hostMove m s.popMove

/-- The state whose very next step issues the word `w` (log 4). -/
def State.withFetchWord (s : State) (nbits w : Nat) : State := s.pushWord nbits w

end Sys2Proof.Machine
end

