-- ==== Sys2Proof/Machine/Reference.lean ====
section
/-! DEFINITION. The host-side reference functions around the block: diff model, entropy-stream header, `compress` and
`decompress` (47_pipeline_reference.md). They are not hardware; they run the block's commands. -/

namespace Sys2Proof.Machine

/-- `diff_fwd` after the byte `prev` (47_pipeline_reference.md R250). -/
def diffFwdFrom : Byte → List Byte → List Byte
  | _, [] => []
  | prev, v :: x => (v - prev) :: diffFwdFrom v x

/-- `diff_fwd(x)`, seeded at 0 (47_pipeline_reference.md R250). -/
def diffFwd (x : List Byte) : List Byte := diffFwdFrom 0 x

/-- `diff_inv` after the decoded byte `prev` (47_pipeline_reference.md R251). -/
def diffInvFrom : Byte → List Byte → List Byte
  | _, [] => []
  | prev, v :: y => (v + prev) :: diffInvFrom (v + prev) y

/-- `diff_inv(y)`, seeded at 0 (47_pipeline_reference.md R251). -/
def diffInv (y : List Byte) : List Byte := diffInvFrom 0 y

/-- `options{use_diff_model, use_adaptive_block_rle, matrix_width}` (47_pipeline_reference.md R256). -/
structure Options where
  useDiff     : Bool
  useAdaptive : Bool
  matrixWidth : Word
  deriving DecidableEq, Repr

/-- The flags byte: bit 7 diff model, bit 6 adaptive block RLE, bits 5 to 0 written 0 (47_pipeline_reference.md
R253). -/
def Options.flags (o : Options) : Byte := BitVec.ofBool o.useDiff ++ BitVec.ofBool o.useAdaptive ++ (0 : BitVec 6)

/-- The block as a host finds it after hardware reset, with `x` in `IBUF` and its length in `ILEN`. -/
def loadedBlock (b : Build) (x : List Byte) (width symcnt : Word) : State :=
  { State.reset with
    build := b
    ibuf := x.zipIdx.map fun y => (y.2, y.1)
    operands := ⟨BitVec.ofNat 64 x.length, width, 0, symcnt⟩ }

/-- "result of" a command: "`OBUF[0 .. OLEN)` after it, or the fault it latched" (47_pipeline_reference.md R256), as
`ERR` and `ERRINFO`. An input that does not fit `IBUF` is `Capacity(1)` (60_exceptions.md R271). -/
def resultOf (b : Build) (i : Instr) (x : List Byte) (width symcnt : Word) : Except (Byte × Word) (List Byte) :=
  if b.ibufCap.toNat < x.length then .error (ErrKind.capacity.code, 1)
  else
    match exec i (loadedBlock b x width symcnt) with
    | .next t => if t.latch.fault then .error (t.latch.err, t.latch.errInfo) else .ok t.output
    | .fault _ => .error (0, 0)
    | .refused _ => .error (0, 0)

/-- The RLE stage of `compress` (47_pipeline_reference.md R256). -/
def compressRle (b : Build) (o : Options) (a : List Byte) : Except (Byte × Word) (List Byte) :=
  if o.useAdaptive then resultOf b .abrEnc a o.matrixWidth 0 else resultOf b .rleEnc a 0 0

/-- `compress(x, options)`: the entropy-stream header and the entropy-coded bits (47_pipeline_reference.md R252,
R254 to R256). -/
def compress (b : Build) (o : Options) (x : List Byte) : Except (Byte × Word) (List Byte) :=
  match compressRle b o (if o.useDiff then diffFwd x else x) with
  | .error e => .error e
  | .ok y =>
    match resultOf b .htEncbuf y 0 0 with
    | .error e => .error e
    | .ok bits => .ok (le64 y.length ++ [o.flags] ++ bits)

/-- The RLE and diff stages of `decompress` (47_pipeline_reference.md R257). -/
def decompressRle (b : Build) (flags : Byte) (y : List Byte) : Except (Byte × Word) (List Byte) :=
  match (if flags.getLsbD 6 then resultOf b .abrDec y 0 0 else resultOf b .rleDec y 0 0) with
  | .error e => .error e
  | .ok a => .ok (if flags.getLsbD 7 then diffInv a else a)

/-- `decompress(z)` (47_pipeline_reference.md R257). -/
def decompress (b : Build) (z : List Byte) : Except (Byte × Word) (List Byte) :=
  if z.length < 9 then .error (ErrKind.malformedHeader.code, 0)
  else
    match resultOf b .htDecbuf (z.drop 9) 0 (BitVec.ofNat 64 (unLE64 (z.take 8))) with
    | .error e => .error e
    | .ok y => decompressRle b (z.getD 8 0) y

end Sys2Proof.Machine
end

