-- ==== Sys2Proof/Safety.lean ====
section
/-! DEFINITION. The terms claims are stated in: the bit streams of a state, the invariant of the tree
(10_state.md R31) and the invariant of the rest of the state. -/

namespace Sys2Proof.Machine

/-- Bytes as bits, bit 7 of each first (20_memory.md R63). -/
def bytesBits (x : List Byte) : List Bool := x.flatMap (msbFirst 8)

/-- The output stream so far: the bits of `OBUF[0 .. OLEN)`, then the top `BPCNT` bits of `BPACC`
(10_state.md R32). -/
def State.packedBits (s : State) : List Bool :=
  bytesBits s.output ++ (msbFirst 8 s.packer.bpacc).take s.packer.bpcnt.toNat

/-- Every bit the bit source has: those of `IBUF[0 .. min(ILEN, IBUF_CAP))` (10_state.md R33, 41_bitpacker.md
R171, R178). -/
def State.inputBits (s : State) : List Bool := bytesBits (s.memRead 0 s.inputEnd)

/-- The index of the next bit to deliver, so the number of bits before the cursor (10_state.md R33). -/
def Unpacker.bitIndex (u : Unpacker) : Nat := 8 * u.ipos.toNat + u.ibit.toNat

/-- The bits the unpacker has not yet delivered (10_state.md R33). -/
def State.unreadBits (s : State) : List Bool := s.inputBits.drop s.unpacker.bitIndex

/-- The index at which the packer's last byte is stored when `k` more bits are put, plus one: bytes of `OBUF` from
`OLEN` up to it are the ones stored (41_bitpacker.md R170). -/
def State.olenAfter (s : State) (k : Nat) : Nat := s.packer.olen.toNat + (s.packer.bpcnt.toNat + k) / 8

/-- The tree after `update` with each symbol of a sequence (40_aht.md R140); none if a counter is full. -/
def Tree.updates : Tree → List Byte → Option Tree
  | t, [] => some t
  | t, v :: x =>
    match t.update v with
    | none => none
    | some u => u.updates x

/-- The concatenation of the codes of all symbols of a session (30_encoding.md R102): `code(s)`, then
`update(s)`, for each symbol (40_aht.md R150). -/
def sessionBits : Tree → List Byte → List Bool
  | _, [] => []
  | t, v :: x => t.code v ++ (match t.update v with | none => [] | some u => sessionBits u x)

/-- The number of elements of a block (43_abr.md R211): the bytes that `rle_block` must produce for it (R220). -/
def Tile.area (b : Tile) : Nat := b.w * b.h

/-- `d` decodes to exactly `need` bytes, and nothing shorter of it does: where a block decoder that reads `d`, and
whatever follows it, stops (42_rle.md R196). -/
def FillsExactly (d : List Byte) (need : Nat) : Prop :=
  (rleInv d).length = need ∧ ∀ m, m < d.length → (rleInv (d.take m)).length < need

/-- Some byte of `d` takes the decoded bytes from below `need` to above it (42_rle.md R196 (c)). -/
def Overfills (d : List Byte) (need : Nat) : Prop :=
  ∃ m, m ≤ d.length ∧ need < (rleInv (d.take m)).length ∧ ∀ j, j < m → (rleInv (d.take j)).length < need

/-- How often `v` has occurred, as its leaf counts it: 0 while it has none (10_state.md R28, R30). -/
def Tree.occurrences (t : Tree) (v : Byte) : Nat := ((t.leafNum v).bind t.freq).getD 0

/-- The commands that write `OBUF` (20_memory.md R61). -/
def writesObuf : Instr → Bool
  | .htEnc _ | .htEncbuf | .htDecbuf | .bpPut _ _ | .bpFlush | .rleEnc | .rleDec | .abrEnc1 | .abrEnc | .abrDec =>
    true
  | .nop | .srst | .htInit | .htUpd _ | .htDec | .bpInit | .buInit | .buGet _ => false

/-- The commands that read `IBUF[0 .. ILEN)` by index or as a whole session, and so check `ILEN` first
(60_exceptions.md R271, `Capacity` info 1). -/
def checksInput : Instr → Bool
  | .htEncbuf | .htDecbuf | .rleEnc | .rleDec | .abrEnc1 | .abrEnc | .abrDec => true
  | .nop | .srst | .htInit | .htEnc _ | .htUpd _ | .htDec | .bpInit | .bpPut _ _ | .bpFlush | .buInit
  | .buGet _ => false

/-- The commands that run `update` (60_exceptions.md R271, `Capacity` info 2). -/
def updatesTree : Instr → Bool
  | .htUpd _ | .htEncbuf | .htDecbuf => true
  | .nop | .srst | .htInit | .htEnc _ | .htDec | .bpInit | .bpPut _ _ | .bpFlush | .buInit | .buGet _ | .rleEnc
  | .rleDec | .abrEnc1 | .abrEnc | .abrDec => false

/-- Which command raises which kind, with which `ERRINFO` where it is one number (60_exceptions.md R271, R272). -/
def mayRaise (i : Instr) (k : ErrKind) (info : Word) : Bool :=
  match k with
  | .malformedHeader => decide (i = .abrDec ∧ info = 0)
  | .corruptBitstream => decide (i = .htDecbuf)
  | .invalidDimensions => decide ((i = .abrEnc ∨ i = .abrEnc1) ∧ info = 0)
  | .truncatedBlockData => decide (i = .abrDec)
  | .trailingData => decide (i = .abrDec ∨ i = .htDecbuf)
  | .runOverrun => decide (i = .abrDec)
  | .capacity =>
    (decide (info = 0) && writesObuf i) || (decide (info = 1) && checksInput i)
      || (decide (info = 2) && updatesTree i)
  | .illegalCommand => false

/-- Item 1 of 10_state.md R31: the allocated entries are exactly `NYTN` to `ROOT_NUM`, in order. -/
abbrev Tree.AllocOk (t : Tree) : Prop :=
  t.node.map Prod.fst = (List.range (rootNum + 1 - t.nytn)).map (fun i => i + t.nytn)
    ∧ t.nytn ≤ rootNum ∧ rootNum - t.nytn = 2 * t.leafOf.length

/-- Item 2 of 10_state.md R31, for one entry. -/
def Tree.nytOk (t : Tree) (n : Nat) (e : Entry) : Bool :=
  if n = t.nytn then decide (e.body = .nyt ∧ e.freq = 0) else decide (e.body ≠ .nyt ∧ 1 ≤ e.freq)

/-- Item 3 of 10_state.md R31, for one entry: the leaf of `s` is where `LEAFOF[s]` says. -/
def Tree.leafOk (t : Tree) (n : Nat) (e : Entry) : Bool :=
  match e.body with
  | .leaf s => decide (t.leafNum s = some n)
  | .int _ _ => true
  | .nyt => true

/-- Item 3 of 10_state.md R31, for one symbol: where `LEAFOF[s]` says is the leaf of `s`. -/
abbrev Tree.symOk (t : Tree) (s n : Nat) : Prop := s < 256 ∧ t.body n = some (.leaf (BitVec.ofNat 8 s))

/-- Item 4 of 10_state.md R31, for one entry; only the root has no parent (R28). -/
def Tree.parentOk (t : Tree) (n : Nat) (e : Entry) : Bool :=
  match e.parent with
  | none => decide (n = rootNum)
  | some p =>
    match t.body p with
    | some (.int l r) => decide (n < p ∧ (n = l ∨ n = r))
    | some (.leaf _) => false
    | some .nyt => false
    | none => false

/-- Items 5 and 6 of 10_state.md R31, for one entry: an `INT` entry has two children, which name it their parent. -/
def Tree.childrenOk (t : Tree) (n : Nat) (e : Entry) : Bool :=
  match e.body with
  | .int l r =>
    match Table.get t.node l, Table.get t.node r with
    | some a, some b =>
      decide (r = l + 1 ∧ l % 2 = rootNum % 2 ∧ a.parent = some n ∧ b.parent = some n
        ∧ e.freq = a.freq + b.freq)
    | _, _ => false
  | .leaf _ => true
  | .nyt => true

/-- The tree state between commands: 10_state.md R31, the width of the counters (R28), and the fact 40_aht.md R141
observes, without which R31 does not survive `update` (log 10). -/
structure Tree.Inv (t : Tree) : Prop where
  alloc     : t.AllocOk
  nyt       : ∀ x ∈ t.node, t.nytOk x.1 x.2 = true
  leafTable : Table.wf t.leafOf
  leaves    : ∀ x ∈ t.node, t.leafOk x.1 x.2 = true
  symbols   : ∀ x ∈ t.leafOf, t.symOk x.1 x.2
  parents   : ∀ x ∈ t.node, t.parentOk x.1 x.2 = true
  children  : ∀ x ∈ t.node, t.childrenOk x.1 x.2 = true
  sibling   : (t.node.map fun x => x.2.freq).Pairwise (· ≤ ·)
  nytParent : t.nytn = rootNum ∨ t.parent t.nytn = some (t.nytn + 2)
  counters  : ∀ x ∈ t.node, x.2.freq ≤ freqMax

/-- "bits `7 - BPCNT` down to 0 of [`BPACC`] are always 0" (10_state.md R26). -/
abbrev Packer.Clean (p : Packer) : Prop := p.bpacc.toNat % 2 ^ (8 - p.bpcnt.toNat) = 0

/-- `ERR` and `ERRINFO` are 0 when `FAULT` is 0, and `ERR` is a kind's code when it is 1 (10_state.md R21, R26). -/
abbrev Latch.Ok (l : Latch) : Prop :=
  (l.fault = false ∧ l.err = 0 ∧ l.errInfo = 0) ∨ (l.fault = true ∧ 1 ≤ l.err.toNat ∧ l.err.toNat ≤ 8)

/-- What the packer's appending commands need of a state: `BPACC` is clean (10_state.md R26), `OLEN` is within the
buffer and every byte of `OBUF[0 .. OLEN)` is specified (R34). The state between steps has it while no fault is latched,
and so has the state that an accepted command starts from (`State.Inv.packer_begin`). -/
structure State.PackerOk (s : State) : Prop where
  clean   : s.packer.Clean
  fits    : s.packer.olen.toNat ≤ s.build.obufCap.toNat
  written : ∀ i, i < s.packer.olen.toNat → (Table.get s.obuf i).isSome = true

/-- The state between steps, but for the tree: no command runs (10_state.md R25); the latch is consistent; a latched
fault leaves no output (60_exceptions.md R276); every byte of `OBUF[0 .. OLEN)` is specified (R34); `BPACC` is clean
(R26); the buffers are in canonical form and within their capacities (R34); no cursor has passed the end of its
buffer (R24); `EOS` comes with the value 0 (40_aht.md R147). -/
structure State.Inv (s : State) : Prop where
  idle      : s.latch.busy = false
  latch     : s.latch.Ok
  faulted   : s.latch.fault = true → s.packer.olen = 0 ∧ s.obuf = []
  clean     : s.latch.fault = false → s.packer.Clean
  fits      : s.packer.olen.toNat ≤ s.build.obufCap.toNat
  written   : ∀ i, i < s.packer.olen.toNat → (Table.get s.obuf i).isSome = true
  ibufWf    : Memory.wf s.ibuf
  obufWf    : Memory.wf s.obuf
  ibufIn    : ∀ x ∈ s.ibuf, x.1 < s.build.ibufCap.toNat
  obufIn    : ∀ x ∈ s.obuf, x.1 < s.build.obufCap.toNat
  cursor    : s.unpacker.bitIndex ≤ 8 * s.build.ibufCap.toNat
  endResult : s.results.eos = true → s.results.val = 0

end Sys2Proof.Machine
end

