-- ==== Sys2Proof/Certificates/Slice0/Obligations.lean ====
section
/-! DEFINITION. The statements for the provers. Each docstring names the rules of spec/ the statement formalises or
rests on. A statement about `exec` speaks of the command once it is accepted: `issue` has refused it before where a
fault is latched (44_system.md R245). -/

open Sys2Proof Sys2Proof.Machine

/-! ### Encoding -/

/-- 30_encoding.md R92: the decoder answers `i` exactly for the words that select the row of `i` (mask, match and
operand constraint) with the operand fields R91 names. -/
def Obligations.DecoderFollowsOpcodeMap : Prop :=
  ∀ (w : CmdWord) (i : Instr),
    decode w = .ok i ↔ (w &&& i.rowMask = i.rowMatch ∧ i.wellFormed = true ∧ i.operandsIn w = true)

/-- 30_encoding.md R90 to R92: decoding the encoding of a well-formed command gives the command back, and no other
word decodes to it. -/
def Obligations.DecodeInvertsEncode : Prop :=
  (∀ i : Instr, i.wellFormed = true → decode (encode i) = .ok i) ∧
  ∀ (w : CmdWord) (i : Instr), decode w = .ok i → encode i = w

/-- 30_encoding.md R94, R97 and the vectors V-SYS-1: words written out in the spec, and what they decode to. -/
def Obligations.SpecWordsDecode : Prop :=
  decode 0x11000061 = .ok (.htEnc 0x61) ∧ decode 0x12000061 = .ok (.htUpd 0x61) ∧
  decode 0x21000305 = .ok (.bpPut 3 5) ∧ decode 0x25000800 = .ok (.buGet 8) ∧ decode 0x41000000 = .ok .abrEnc ∧
  decode 0x01000000 = .ok .srst ∧ decode 0x30000000 = .ok .rleEnc ∧
  decode 0x02000000 = .error .unknownOpcode ∧ decode 0x10000001 = .error .zeroFieldSet ∧
  decode 0x11000161 = .error .zeroFieldSet ∧ decode 0x21000000 = .error .badCount ∧
  decode 0x21000904 = .error .badCount ∧ decode 0x21000308 = .error .badValue ∧
  decode 0x25000801 = .error .zeroFieldSet

/-! ### Steps of the host and the unit -/

/-- 44_system.md R245: where the host's next move writes a command word to `CMD` and the block accepts it, the step is
the command's meaning, with `BUSY` set inside it and cleared after it. Bits 63:32 of the value are ignored. The second
clause says the same of `withFetchWord` (log 4). -/
def Obligations.StepRunsDecodedCommand : Prop :=
  (∀ (s : State) (v : Word) (rest : List HostMove) (i : Instr),
    s.host = .regWrite .cmd v :: rest → s.latch.busy = false → decode (v.setWidth 32) = .ok i →
    (s.latch.fault = true → i = .srst) →
    ∃ t, exec i { s with
        host := rest, latch := { s.latch with busy := true }, obufEpoch := s.obufEpoch + 1 } = .next t ∧
      step s = .next { t with latch := { t.latch with busy := false } }) ∧
  ∀ (s : State) (nbits w : Nat) (i : Instr),
    s.latch.busy = false → decodeTableWord nbits w = some i → (s.latch.fault = true → i = .srst) →
    step (s.withFetchWord nbits w) = finishOutcome (exec i s.begin)

/-- 60_exceptions.md R277: while a fault is latched every word but `SRST` is refused with no state change (the host's
move is taken off its list, nothing else), and register reads and writes and buffer accesses work as usual. -/
def Obligations.FaultedBlockRefusesCommands : Prop :=
  ∀ (s : State) (rest : List HostMove), s.latch.fault = true → s.latch.busy = false →
    (∀ v : Word, s.host = .regWrite .cmd v :: rest → v.setWidth 32 ≠ (0x01000000 : CmdWord) →
      step s = .next { s with host := rest }) ∧
    (∀ r : Reg, s.host = .regRead r :: rest →
      step s = .next { s with host := rest, reply := some (s.readReg r) }) ∧
    (∀ (r : Reg) (v : Word), r ≠ .cmd → s.host = .regWrite r v :: rest →
      step s = .next { s with host := rest, operands := (s.writeReg r v).operands }) ∧
    (∀ (i : Nat) (b : Byte), i < s.build.ibufCap.toNat → s.host = .ibufWrite i b :: rest →
      step s = .next { s with host := rest, ibuf := Table.set s.ibuf i b }) ∧
    (∀ i : Nat, i < s.build.ibufCap.toNat → s.host = .ibufRead i :: rest →
      step s = .next { s with host := rest, reply := some ((s.readIbuf i).setWidth 64) }) ∧
    (∀ i : Nat, i < s.build.obufCap.toNat → s.host = .obufRead i :: rest →
      step s = .next { s with host := rest, reply := some ((s.readObuf i).setWidth 64) })

/-- 60_exceptions.md R283, R276: a word that is no command raises `IllegalCommand` (code 8) with the word as info;
`OLEN` is 0, `OBUF` unspecified, and nothing else changes but the model's own move list and counter. -/
def Obligations.IllegalWordRaises : Prop :=
  ∀ (s : State) (v : Word) (rest : List HostMove) (e : Illegal),
    s.host = .regWrite .cmd v :: rest → s.latch.busy = false → s.latch.fault = false →
    decode (v.setWidth 32) = .error e →
    step s = .next { s with
      host := rest
      latch := ⟨false, true, 8, (v.setWidth 32).setWidth 64⟩
      packer := { s.packer with olen := 0 }
      obuf := []
      obufEpoch := s.obufEpoch + 1 }

/-- 60_exceptions.md R276: what taking a fault writes and what it leaves. -/
def Obligations.RaiseLatchesFault : Prop :=
  ∀ (s : State) (k : ErrKind) (info : Word),
    (s.raise k info).latch.fault = true ∧ (s.raise k info).latch.busy = false ∧
    (s.raise k info).readReg .err = k.code.setWidth 64 ∧ (s.raise k info).readReg .errinfo = info ∧
    (s.raise k info).readReg .olen = 0 ∧ (s.raise k info).output = [] ∧ (s.raise k info).obuf = [] ∧
    s.raise k info = { s with
      latch := (s.raise k info).latch, packer := { s.packer with olen := 0 }, obuf := [] }

/-- 44_system.md R242, 10_state.md R21, R26: a host register read returns the 64-bit value of the register named, and
changes nothing else; which field each register is; `CMD` reads 0, and the bits above the defined ones read 0. -/
def Obligations.HostReadsRegister : Prop :=
  ∀ (s : State),
    (∀ (r : Reg) (rest : List HostMove), s.host = .regRead r :: rest → s.latch.busy = false →
      step s = .next { s with host := rest, reply := some (s.readReg r) }) ∧
    s.readReg .cmd = 0 ∧
    (s.readReg .status).toNat = 2 * s.latch.fault.toNat + s.latch.busy.toNat ∧
    (s.readReg .err).toNat = s.latch.err.toNat ∧ s.readReg .errinfo = s.latch.errInfo ∧
    s.readReg .ilen = s.operands.ilen ∧ s.readReg .width = s.operands.width ∧
    s.readReg .bsize = s.operands.bsize ∧ s.readReg .symcnt = s.operands.symcnt ∧
    s.readReg .olen = s.packer.olen ∧
    (s.readReg .result).toNat = 256 * s.results.eos.toNat + s.results.val.toNat ∧
    s.readReg .selbs = s.results.selbs ∧ s.readReg .outw = s.results.outw ∧ s.readReg .outh = s.results.outh ∧
    s.readReg .ipos = s.unpacker.ipos ∧ (s.readReg .ibit).toNat = s.unpacker.ibit.toNat ∧
    (s.readReg .bpacc).toNat = s.packer.bpacc.toNat ∧ (s.readReg .bpcnt).toNat = s.packer.bpcnt.toNat

/-- 44_system.md R243, 10_state.md R21: after a host register write the register holds the value if it is host-writable,
a write to any other register is ignored, and no other register changes. -/
def Obligations.HostWritesRegister : Prop :=
  ∀ (s : State) (r : Reg) (v : Word) (rest : List HostMove),
    s.host = .regWrite r v :: rest → s.latch.busy = false → r ≠ .cmd →
    ∃ t, step s = .next t ∧ t = { s with host := rest, operands := t.operands } ∧
      ∀ q : Reg, t.readReg q =
        if q = r ∧ (r = .ilen ∨ r = .width ∨ r = .bsize ∨ r = .symcnt) then v else s.readReg q

/-- 44_system.md R244: the host writes one byte of `IBUF` within its capacity; every other byte of `IBUF`, `ILEN` and all
other state keep their values. A write beyond the capacity and a write to `OBUF` are refused (20_memory.md R68). -/
def Obligations.HostWritesInputByte : Prop :=
  ∀ (s : State) (i : Nat) (b : Byte) (rest : List HostMove), s.latch.busy = false →
    (s.host = .ibufWrite i b :: rest → i < s.build.ibufCap.toNat →
      ∃ t, step s = .next t ∧ t = { s with host := rest, ibuf := t.ibuf } ∧
        ∀ j, t.readIbuf j = if j = i then b else s.readIbuf j) ∧
    (s.host = .ibufWrite i b :: rest → s.build.ibufCap.toNat ≤ i → step s = .refused .outsideWindow) ∧
    (s.host = .obufWrite i b :: rest → step s = .refused .hostWriteToObuf)

/-- 44_system.md R244, 10_state.md R34: the host reads a byte of a buffer; at or above `OLEN` a byte of `OBUF` is a free
value, which no claim knows (log 3); nothing else changes (20_memory.md R66). -/
def Obligations.HostReadsBufferByte : Prop :=
  ∀ (s : State) (i : Nat) (rest : List HostMove), s.latch.busy = false →
    (s.host = .ibufRead i :: rest → i < s.build.ibufCap.toNat →
      step s = .next { s with host := rest, reply := some ((s.readIbuf i).setWidth 64) }) ∧
    (s.host = .obufRead i :: rest → i < s.build.obufCap.toNat → i < s.packer.olen.toNat →
      ∀ b, Table.get s.obuf i = some b →
        step s = .next { s with host := rest, reply := some (b.setWidth 64) }) ∧
    (s.host = .obufRead i :: rest → i < s.build.obufCap.toNat → s.packer.olen.toNat ≤ i →
      step s = .next { s with host := rest, reply := some ((Config.freeObufByte s.obufEpoch i).setWidth 64) }) ∧
    (s.host = .ibufRead i :: rest → s.build.ibufCap.toNat ≤ i → step s = .refused .outsideWindow) ∧
    (s.host = .obufRead i :: rest → s.build.obufCap.toNat ≤ i → step s = .refused .outsideWindow)

/-- 20_memory.md R65, R67, R68, 44_system.md R244: what an access through the window does, for every build, offset by offset:
a register, the reserved range, a byte of either buffer, and the refusal of every access outside the four ranges; and where
`OBUF` lies in a build with a larger `IBUF`. That the reserved range takes accesses of 1 to 8 bytes is the model's (log 8). -/
def Obligations.WindowFollowsAddressMap : Prop :=
  ∀ s : State,
    (∀ r : Reg,
      hostMove (.bus (.read (s.build.blockBase + Reg.offset r) 8)) s = hostMove (.regRead r) s ∧
      ∀ v, hostMove (.bus (.write (s.build.blockBase + Reg.offset r) 8 v)) s = hostMove (.regWrite r v) s) ∧
    (∀ i v, i < s.build.ibufCap.toNat →
      hostMove (.bus (.read (s.build.blockBase + 0x100000 + i) 1)) s = hostMove (.ibufRead i) s ∧
      hostMove (.bus (.write (s.build.blockBase + 0x100000 + i) 1 v)) s = hostMove (.ibufWrite i (v.setWidth 8)) s) ∧
    (∀ i v, i < s.build.obufCap.toNat →
      hostMove (.bus (.read (s.build.blockBase + obufBase s.build + i) 1)) s = hostMove (.obufRead i) s ∧
      hostMove (.bus (.write (s.build.blockBase + obufBase s.build + i) 1 v)) s =
        hostMove (.obufWrite i (v.setWidth 8)) s) ∧
    (s.build.ibufCap.toNat ≤ 0x100000 → obufBase s.build = 0x200000) ∧
    (0x100000 < s.build.ibufCap.toNat →
      obufBase s.build % 0x100000 = 0 ∧ 0x100000 + s.build.ibufCap.toNat ≤ obufBase s.build ∧
      ∀ m, m % 0x100000 = 0 → 0x100000 + s.build.ibufCap.toNat ≤ m → obufBase s.build ≤ m) ∧
    (s.latch.busy = false →
      (∀ off n v, 0x88 ≤ off → off + n ≤ 0x100000 → 1 ≤ n → n ≤ 8 →
        hostMove (.bus (.read (s.build.blockBase + off) n)) s = .next { s with reply := some 0 } ∧
        hostMove (.bus (.write (s.build.blockBase + off) n v)) s = .next s) ∧
      (∀ off n v, off < 0x88 → (n ≠ 8 ∨ off % 8 ≠ 0) →
        hostMove (.bus (.read (s.build.blockBase + off) n)) s = .refused .notARegisterAccess ∧
        hostMove (.bus (.write (s.build.blockBase + off) n v)) s = .refused .notARegisterAccess) ∧
      (∀ off n v, 1 ≤ n →
        ((0x100000 + s.build.ibufCap.toNat ≤ off ∧ off < obufBase s.build) ∨
          obufBase s.build + s.build.obufCap.toNat ≤ off) →
        hostMove (.bus (.read (s.build.blockBase + off) n)) s = .refused .outsideWindow ∧
        hostMove (.bus (.write (s.build.blockBase + off) n v)) s = .refused .outsideWindow) ∧
      (∀ addr n v, addr < s.build.blockBase →
        hostMove (.bus (.read addr n)) s = .refused .outsideWindow ∧
        hostMove (.bus (.write addr n v)) s = .refused .outsideWindow))

/-- 70_reset_and_hazards.md R300, 10_state.md R37: hardware reset, which may come at any time, makes every register 0
and the tree fresh, and leaves no byte of either buffer specified. -/
def Obligations.HardwareResetState : Prop :=
  ∀ (s : State) (rest : List HostMove), s.host = .hwReset :: rest →
    ∃ t, step s = .next t ∧ (∀ r, t.readReg r = 0) ∧ t.latch.fault = false ∧ t.tree = Tree.fresh ∧
      t.ibuf = [] ∧ t.obuf = [] ∧ t.build = s.build ∧ t.host = rest

/-- 10_state.md R37: the state the model starts from is the state hardware reset leaves. With no move pending the block
waits and keeps all its state (70_reset_and_hazards.md R300). -/
def Obligations.ResetStateIsIdle : Prop :=
  (∀ r, State.reset.readReg r = 0) ∧
  (State.reset.tree.body 512 = some .nyt ∧ State.reset.tree.freq 512 = some 0 ∧
    State.reset.tree.parent 512 = none ∧ State.reset.tree.nytn = 512) ∧
  (∀ n, n ≠ 512 → Table.get State.reset.tree.node n = none) ∧ (∀ v, State.reset.tree.leafNum v = none) ∧
  State.reset.ibuf = [] ∧ State.reset.obuf = [] ∧
  ∀ s : State, s.host = [] → step s = .next s

/-! ### System, and the commands that only set state -/

/-- 44_system.md R240, 40_aht.md R144, 41_bitpacker.md R172, R175: the next states of `NOP`, `HT.INIT`, `BP.INIT` and
`BU.INIT`, which say all that changes; `BP.INIT` leaves no byte of `OBUF` specified. -/
def Obligations.SettingCommandsResult : Prop :=
  ∀ s : State,
    exec .nop s = .next s ∧
    exec .htInit s = .next { s with tree := ⟨[(512, ⟨none, 0, .nyt⟩)], 512, []⟩ } ∧
    exec .bpInit s = .next { s with packer := ⟨0, 0, 0⟩, obuf := [] } ∧
    exec .buInit s = .next { s with unpacker := ⟨0, 0⟩ }

/-- 44_system.md R241: `SRST` makes every register 0, `STATUS.FAULT` included, and the tree fresh, and leaves the contents
of both buffers. -/
def Obligations.SoftResetClearsRegisters : Prop :=
  ∀ s : State, ∃ t, exec .srst s = .next t ∧ (∀ r, t.readReg r = 0) ∧ t.tree = State.reset.tree ∧
    t = { s with
      latch := ⟨false, false, 0, 0⟩, operands := ⟨0, 0, 0, 0⟩, packer := ⟨0, 0, 0⟩, unpacker := ⟨0, 0⟩
      results := ⟨0, false, 0, 0, 0⟩, tree := t.tree }

/-! ### The adaptive Huffman tree -/

/-- 40_aht.md R137: the split gives the new NYT number `o - 2` on the left and the new leaf number `o - 1` on the right,
both of frequency 0, opens the split entry with its frequency and parent kept, registers the leaf, and changes nothing
else; on a tree, the NYT number of a split is at least 2. -/
def Obligations.SplitNumbersChildren : Prop :=
  (∀ (t : Tree) (s : Byte), t.Inv → t.leafNum s = none → 2 ≤ t.nytn) ∧
  ∀ (t : Tree) (s : Byte) (e : Entry), 2 ≤ t.nytn → Table.get t.node t.nytn = some e →
    (t.split s).nytn = t.nytn - 2 ∧
    Table.get (t.split s).node t.nytn = some ⟨e.parent, e.freq, .int (t.nytn - 2) (t.nytn - 1)⟩ ∧
    Table.get (t.split s).node (t.nytn - 2) = some ⟨some t.nytn, 0, .nyt⟩ ∧
    Table.get (t.split s).node (t.nytn - 1) = some ⟨some t.nytn, 0, .leaf s⟩ ∧
    (∀ n, n ≠ t.nytn → n ≠ t.nytn - 1 → n ≠ t.nytn - 2 →
      Table.get (t.split s).node n = Table.get t.node n) ∧
    (t.split s).leafNum s = some (t.nytn - 1) ∧ ∀ v, v ≠ s → (t.split s).leafNum v = t.leafNum v

/-- 40_aht.md R138: `leader` gives the highest number above `cur`, up to the root, of equal frequency, the parent left
out; none where there is no such number. -/
def Obligations.LeaderIsHighestEqual : Prop :=
  ∀ (t : Tree) (cur : Nat) (e : Entry), Table.get t.node cur = some e →
    (∀ m, t.leader cur = some m ↔
      (cur < m ∧ m ≤ 512 ∧ some m ≠ e.parent ∧ t.freq m = some e.freq ∧
        ∀ k, m < k → k ≤ 512 → some k ≠ e.parent → t.freq k ≠ some e.freq)) ∧
    (t.leader cur = none ↔ ∀ k, cur < k → k ≤ 512 → some k ≠ e.parent → t.freq k ≠ some e.freq)

/-- 40_aht.md R139: on a tree, `swap` exchanges the contents of two entries of which neither is the other's ancestor, leaves
their parents, and keeps every symbol's leaf registered. -/
def Obligations.SwapExchangesContents : Prop :=
  ∀ (t : Tree) (p q : Nat) (a b : Entry), t.Inv → p ≠ q →
    Table.get t.node p = some a → Table.get t.node q = some b →
    a.parent ≠ some q → b.parent ≠ some p →
    (∀ l r, a.body = .int l r → l ≠ q ∧ r ≠ q) → (∀ l r, b.body = .int l r → l ≠ p ∧ r ≠ p) →
    Table.get (t.swap p q).node p = some ⟨a.parent, b.freq, b.body⟩ ∧
    Table.get (t.swap p q).node q = some ⟨b.parent, a.freq, a.body⟩ ∧
    (∀ l r, a.body = .int l r → (t.swap p q).parent l = some q ∧ (t.swap p q).parent r = some q) ∧
    (∀ l r, b.body = .int l r → (t.swap p q).parent l = some p ∧ (t.swap p q).parent r = some p) ∧
    (∀ v, (t.swap p q).leafNum v =
      if t.leafNum v = some p then some q else if t.leafNum v = some q then some p else t.leafNum v) ∧
    (t.swap p q).nytn = t.nytn

/-- 40_aht.md R140, R146 and 10_state.md R31 item 8: `HT.UPD` counts one more occurrence of its symbol and of no other, adds
1 to the root's frequency, gives the symbol a leaf, takes two entries at a first occurrence and none otherwise, and changes
the tree only. It completes whenever the root's counter is not full. -/
def Obligations.HtUpdCountsSymbol : Prop :=
  ∀ (s : State) (sym : Byte) (f : Nat), s.tree.Inv → s.tree.freq 512 = some f → f < 2 ^ 64 - 1 →
    ∃ t, exec (.htUpd sym) s = .next { s with tree := t } ∧ t.freq 512 = some (f + 1) ∧
      t.occurrences sym = s.tree.occurrences sym + 1 ∧
      (∀ v, v ≠ sym → t.occurrences v = s.tree.occurrences v) ∧
      (t.leafNum sym).isSome = true ∧ (∀ v, v ≠ sym → (t.leafNum v).isSome = (s.tree.leafNum v).isSome) ∧
      ((s.tree.leafNum sym).isSome = true → t.nytn = s.tree.nytn) ∧
      (s.tree.leafNum sym = none → t.nytn + 2 = s.tree.nytn)

/-- 40_aht.md R146, its example: the first symbol of a session leaves entries 512, 511 and 510 as the spec lists them. -/
def Obligations.HtUpdFirstSymbol : Prop :=
  ∀ (s : State) (sym : Byte), s.tree = ⟨[(512, ⟨none, 0, .nyt⟩)], 512, []⟩ →
    exec (.htUpd sym) s = .next { s with
      tree := ⟨[(510, ⟨some 512, 0, .nyt⟩), (511, ⟨some 512, 1, .leaf sym⟩), (512, ⟨none, 1, .int 510 511⟩)], 510,
        [(sym.toNat, 511)]⟩ }

/-- 40_aht.md R142, 60_exceptions.md R276: with the root's counter full, `HT.UPD` raises `Capacity` with info 2 and the tree
is unchanged. -/
def Obligations.HtUpdCounterFull : Prop :=
  ∀ (s : State) (sym : Byte), s.tree.freq 512 = some (2 ^ 64 - 1) →
    exec (.htUpd sym) s = .next { s with
      latch := ⟨false, true, 7, 2⟩, packer := { s.packer with olen := 0 }, obuf := [] }

/-- 40_aht.md R145: `HT.ENC` appends the code of its symbol to the packed stream and changes nothing but the packer and the
bytes of `OBUF` it completes, from `OLEN` on. It completes whenever those bytes fit. -/
def Obligations.HtEncAppendsCode : Prop :=
  ∀ (s : State) (sym : Byte), s.PackerOk →
    s.olenAfter (s.tree.code sym).length ≤ s.build.obufCap.toNat →
    ∃ t, exec (.htEnc sym) s = .next t ∧ t.packedBits = s.packedBits ++ s.tree.code sym ∧
      t = { s with packer := t.packer, obuf := t.obuf } ∧ t.PackerOk ∧
      t.packer.olen.toNat = s.olenAfter (s.tree.code sym).length ∧
      ∀ a, (a < s.packer.olen.toNat ∨ t.packer.olen.toNat ≤ a) → Table.get t.obuf a = Table.get s.obuf a

/-- 40_aht.md R147, R136, R150: where the unread bits start with the code of a symbol, `HT.DEC` delivers that symbol in
`RESULT` and consumes exactly its code; a literal after the NYT path is delivered whatever symbol it names
(93_implementation_defined.md U6). The tree, the buffers and all else are unchanged. -/
def Obligations.HtDecInvertsCode : Prop :=
  ∀ (s : State) (sym : Byte) (rest : List Bool), s.tree.Inv →
    (s.unreadBits = s.tree.code sym ++ rest ∨
      s.unreadBits = s.tree.path s.tree.nytn ++ msbFirst 8 sym ++ rest) →
    ∃ t, exec .htDec s = .next t ∧ t.unreadBits = rest ∧
      t = { s with unpacker := t.unpacker, results := { s.results with val := sym, eos := false } }

/-- 40_aht.md R147, R136, 60_exceptions.md R273: where the unread bits end before a code does, `HT.DEC` consumes them and
gives `RESULT` = 0x100, and no fault is raised; so it does again once they are used up. -/
def Obligations.HtDecReportsEnd : Prop :=
  ∀ (s : State) (sym : Byte) (more : List Bool), s.tree.Inv → more ≠ [] →
    (s.unreadBits ++ more = s.tree.code sym ∨
      s.unreadBits ++ more = s.tree.path s.tree.nytn ++ msbFirst 8 sym) →
    ∃ t, exec .htDec s = .next t ∧ t.unreadBits = [] ∧ t.readReg .result = 0x100 ∧
      t = { s with unpacker := t.unpacker, results := { s.results with val := 0, eos := true } }

/-- 40_aht.md R147, R273 (60_exceptions.md): on every state at all `HT.DEC` completes, writes `RESULT` and the unpacker's
cursor only, and with `EOS` gives the value 0. -/
def Obligations.HtDecFrame : Prop :=
  ∀ s : State, ∃ t, exec .htDec s = .next t ∧
    t = { s with
      unpacker := t.unpacker, results := { s.results with val := t.results.val, eos := t.results.eos } } ∧
    (t.results.eos = true → t.results.val = 0 ∧ s.inputEnd ≤ t.unpacker.ipos.toNat)

/-- 40_aht.md R148, 30_encoding.md R102, R103: `HT.ENCBUF` leaves in `OBUF` the codes of the input's symbols in order, padded
with zero bits to a whole byte, an empty packer, and the tree the session ended with. It completes whenever the input fits
`IBUF` and the codes fit `OBUF`. No byte of `OBUF` at or above `OLEN` is specified. Where the codes do not fit `OBUF` it
raises `Capacity(0)` (60_exceptions.md R271), with the tree of the `k` symbols before the one whose code overflows, or of all
of them where only the padded last byte does; `BPACC` and `BPCNT` after that are left open (log 6). -/
def Obligations.HtEncbufWritesSession : Prop :=
  ∀ s : State, s.operands.ilen.toNat ≤ s.build.ibufCap.toNat →
    ((sessionBits Tree.fresh s.input).length ≤ 8 * s.build.obufCap.toNat →
      ∃ t u k, exec .htEncbuf s = .next t ∧ k < 8 ∧
        bytesBits t.output = sessionBits Tree.fresh s.input ++ List.replicate k false ∧
        Tree.fresh.updates s.input = some u ∧
        t = { s with packer := ⟨t.packer.olen, 0, 0⟩, obuf := t.obuf, tree := u } ∧
        ∀ a, t.packer.olen.toNat ≤ a → Table.get t.obuf a = none) ∧
    (8 * s.build.obufCap.toNat < (sessionBits Tree.fresh s.input).length →
      ∃ t u k, exec .htEncbuf s = .next t ∧ k ≤ s.operands.ilen.toNat ∧
        (sessionBits Tree.fresh (s.input.take k)).length / 8 ≤ s.build.obufCap.toNat ∧
        (k < s.operands.ilen.toNat →
          s.build.obufCap.toNat < (sessionBits Tree.fresh (s.input.take (k + 1))).length / 8) ∧
        Tree.fresh.updates (s.input.take k) = some u ∧ t.packer.olen = 0 ∧
        t = { s with latch := ⟨false, true, 7, 0⟩, packer := t.packer, obuf := [], tree := u })

/-- 40_aht.md R149, R150, 30_encoding.md R103: where `IBUF[0 .. ILEN)` starts with an encoding session of `SYMCNT` symbols that
fit `OBUF`, `HT.DECBUF` delivers those symbols if less than a byte of padding, of any value, follows; with whole bytes
following it raises `TrailingData` with the bytes used as info. Where the session holds more symbols than fit `OBUF`, it
raises `Capacity(0)` at the first one that does not (60_exceptions.md R271). Each time the cursor stands after the symbols
decoded, and the tree has counted those delivered. -/
def Obligations.HtDecbufInvertsSession : Prop :=
  ∀ (s : State) (x : List Byte) (pad : List Bool), s.operands.ilen.toNat ≤ s.build.ibufCap.toNat →
    s.inputBits = sessionBits Tree.fresh x ++ pad →
    (s.operands.symcnt.toNat = x.length → x.length ≤ s.build.obufCap.toNat → pad.length < 8 →
      ∃ t u, exec .htDecbuf s = .next t ∧ t.output = x ∧ Tree.fresh.updates x = some u ∧
        t.unpacker.bitIndex = (sessionBits Tree.fresh x).length ∧
        t = { s with packer := ⟨t.packer.olen, 0, 0⟩, obuf := t.obuf, unpacker := t.unpacker, tree := u } ∧
        ∀ a, t.packer.olen.toNat ≤ a → Table.get t.obuf a = none) ∧
    (s.operands.symcnt.toNat = x.length → x.length ≤ s.build.obufCap.toNat → 8 ≤ pad.length →
      ∃ t u, exec .htDecbuf s = .next t ∧ Tree.fresh.updates x = some u ∧
        t.unpacker.bitIndex = (sessionBits Tree.fresh x).length ∧
        t = { s with
          latch := ⟨false, true, 5, BitVec.ofNat 64 (cdiv (sessionBits Tree.fresh x).length 8)⟩
          packer := ⟨0, 0, 0⟩, obuf := [], unpacker := t.unpacker, tree := u }) ∧
    (x.length ≤ s.operands.symcnt.toNat → s.build.obufCap.toNat < x.length →
      ∃ t u, exec .htDecbuf s = .next t ∧
        Tree.fresh.updates (x.take s.build.obufCap.toNat) = some u ∧
        t.unpacker.bitIndex = (sessionBits Tree.fresh (x.take (s.build.obufCap.toNat + 1))).length ∧
        t = { s with
          latch := ⟨false, true, 7, 0⟩, packer := ⟨0, 0, 0⟩, obuf := [], unpacker := t.unpacker, tree := u })

/-- 40_aht.md R149, 60_exceptions.md R272: `HT.DECBUF` raises `CorruptBitstream` exactly at the symbol whose bits run out,
inside its code or inside a literal after the NYT path whatever symbol that names, with the number of symbols decoded before
it as info. The bits are used up, and the tree has counted those symbols. -/
def Obligations.HtDecbufReportsFailingSymbol : Prop :=
  ∀ (s : State) (x : List Byte) (v : Byte) (rest more : List Bool) (u : Tree),
    s.operands.ilen.toNat ≤ s.build.ibufCap.toNat → x.length < s.operands.symcnt.toNat →
    x.length ≤ s.build.obufCap.toNat → Tree.fresh.updates x = some u →
    s.inputBits = sessionBits Tree.fresh x ++ rest → more ≠ [] →
    (rest ++ more = u.code v ∨ rest ++ more = u.path u.nytn ++ msbFirst 8 v) →
    ∃ t, exec .htDecbuf s = .next t ∧ t.unreadBits = [] ∧
      t = { s with
        latch := ⟨false, true, 2, BitVec.ofNat 64 x.length⟩
        packer := ⟨0, 0, 0⟩, obuf := [], unpacker := t.unpacker, tree := u }

/-- 40_aht.md R149, its corner cases: no symbol asked for and input present is `TrailingData(0)`; a symbol asked for and no
input is `CorruptBitstream(0)`. -/
def Obligations.HtDecbufCornerCases : Prop :=
  ∀ s : State, s.operands.ilen.toNat ≤ s.build.ibufCap.toNat →
    (s.operands.symcnt = 0 → s.operands.ilen ≠ 0 →
      exec .htDecbuf s = .next { s with
        latch := ⟨false, true, 5, 0⟩, packer := ⟨0, 0, 0⟩, obuf := [], unpacker := ⟨0, 0⟩
        tree := Tree.fresh }) ∧
    (s.operands.symcnt ≠ 0 → s.operands.ilen = 0 →
      exec .htDecbuf s = .next { s with
        latch := ⟨false, true, 2, 0⟩, packer := ⟨0, 0, 0⟩, obuf := [], unpacker := ⟨0, 0⟩
        tree := Tree.fresh })

/-- 30_encoding.md R108: at any moment no code is a prefix of another: seen symbols' codes, and for unseen symbols the NYT
path followed by the literal; nor is the NYT path a prefix of a seen symbol's code or the other way round. -/
def Obligations.CodesArePrefixFree : Prop :=
  ∀ t : Tree, t.Inv →
    (∀ a b : Byte, a ≠ b → ¬ t.code a <+: t.code b) ∧
    ∀ a : Byte, (t.leafNum a).isSome = true →
      ¬ t.code a <+: t.path t.nytn ∧ ¬ t.path t.nytn <+: t.code a

/-- 40_aht.md R132, R135: lengths of paths and codes. -/
def Obligations.CodeLengthBounds : Prop :=
  ∀ (t : Tree) (v : Byte), t.Inv →
    (∀ n, (Table.get t.node n).isSome = true → (t.path n).length ≤ 256) ∧
    ((t.leafNum v).isSome = true → 1 ≤ (t.code v).length ∧ (t.code v).length ≤ 256) ∧
    (t.leafNum v = none → 8 ≤ (t.code v).length ∧ (t.code v).length ≤ 264)

/-- 40_aht.md R151: right after `update(s)` for a fresh `s` its leaf and the NYT entry are the two children of entry
`NYTN + 2`, so its code is as long as the NYT path, which is 8 less than the code of any symbol still unseen. -/
def Obligations.FreshSymbolCodeShortens : Prop :=
  ∀ (t u : Tree) (s : Byte), t.Inv → t.leafNum s = none → t.update s = some u →
    u.leafNum s = some (u.nytn + 1) ∧ u.body (u.nytn + 2) = some (.int u.nytn (u.nytn + 1)) ∧
      (u.code s).length = (u.path u.nytn).length ∧
      ∀ v, u.leafNum v = none → (u.code v).length = (u.code s).length + 8

/-! ### The bit packer and unpacker -/

/-- 41_bitpacker.md R173: `BP.PUT` appends the `n` low bits of its value, most significant first, and changes nothing but the
packer and the bytes of `OBUF` it completes, from `OLEN` on. It completes whenever those bytes fit. -/
def Obligations.BpPutAppendsBits : Prop :=
  ∀ (s : State) (n : BitVec 4) (val : Byte), (Instr.bpPut n val).wellFormed = true → s.PackerOk →
    s.olenAfter n.toNat ≤ s.build.obufCap.toNat →
    ∃ t, exec (.bpPut n val) s = .next t ∧ t.packedBits = s.packedBits ++ msbFirst n.toNat val ∧
      t = { s with packer := t.packer, obuf := t.obuf } ∧ t.PackerOk ∧
      t.packer.olen.toNat = s.olenAfter n.toNat ∧
      t.packer.bpcnt.toNat = (s.packer.bpcnt.toNat + n.toNat) % 8 ∧
      ∀ a, (a < s.packer.olen.toNat ∨ t.packer.olen.toNat ≤ a) → Table.get t.obuf a = Table.get s.obuf a

/-- 41_bitpacker.md R174: `BP.FLUSH` pads the stream with zero bits to the next byte boundary, and with none on a boundary;
flushing twice is the same as once. It changes nothing but the packer and the byte of `OBUF` at `OLEN`. -/
def Obligations.BpFlushPadsWithZeros : Prop :=
  ∀ s : State, s.PackerOk → (s.packer.bpcnt = 0 ∨ s.packer.olen.toNat < s.build.obufCap.toNat) →
    ∃ t, exec .bpFlush s = .next t ∧
      t.packedBits = s.packedBits ++ List.replicate ((8 - s.packer.bpcnt.toNat) % 8) false ∧
      t = { s with packer := ⟨t.packer.olen, 0, 0⟩, obuf := t.obuf } ∧ t.PackerOk ∧
      (s.packer.bpcnt = 0 → t = s) ∧
      (∀ a, (s.packer.bpcnt = 0 ∨ a ≠ s.packer.olen.toNat) → Table.get t.obuf a = Table.get s.obuf a) ∧
      exec .bpFlush t = .next t

/-- 41_bitpacker.md R170, R174, 00_scope.md R10, 60_exceptions.md R276: where a byte that `HT.ENC`, `BP.PUT` or `BP.FLUSH`
completes does not fit `OBUF`, it raises `Capacity` with info 0; what it leaves unchanged. -/
def Obligations.PackerFullRaises : Prop :=
  ∀ s : State,
    (∀ sym : Byte, 0 < (s.packer.bpcnt.toNat + (s.tree.code sym).length) / 8 →
      s.build.obufCap.toNat < s.olenAfter (s.tree.code sym).length →
      ∃ t, exec (.htEnc sym) s = .next t ∧ t.packer.olen = 0 ∧
        t = { s with latch := ⟨false, true, 7, 0⟩, packer := t.packer, obuf := [] }) ∧
    (∀ (n : BitVec 4) (val : Byte), 0 < (s.packer.bpcnt.toNat + n.toNat) / 8 →
      s.build.obufCap.toNat < s.olenAfter n.toNat →
      ∃ t, exec (.bpPut n val) s = .next t ∧ t.packer.olen = 0 ∧
        t = { s with latch := ⟨false, true, 7, 0⟩, packer := t.packer, obuf := [] }) ∧
    (s.packer.bpcnt ≠ 0 → s.build.obufCap.toNat ≤ s.packer.olen.toNat →
      exec .bpFlush s = .next { s with
        latch := ⟨false, true, 7, 0⟩, packer := { s.packer with olen := 0 }, obuf := [] })

/-- 41_bitpacker.md R176: `BU.GET` delivers the next `n` unread bits, the first one most significant; with fewer left it
consumes them, gives `RESULT` = 0x100 and raises nothing. It changes `RESULT` and the cursor only. -/
def Obligations.BuGetReadsBits : Prop :=
  ∀ (s : State) (n : BitVec 4), (Instr.buGet n).wellFormed = true →
    ∃ t, exec (.buGet n) s = .next t ∧
      (n.toNat ≤ s.unreadBits.length →
        t.unreadBits = s.unreadBits.drop n.toNat ∧
        t = { s with
          unpacker := t.unpacker
          results := { s.results with
            val := BitVec.ofNat 8 (bitsValue (s.unreadBits.take n.toNat)), eos := false } }) ∧
      (s.unreadBits.length < n.toNat →
        t.unreadBits = [] ∧ t.readReg .result = 0x100 ∧
        t = { s with unpacker := t.unpacker, results := { s.results with val := 0, eos := true } })

/-! ### Flat run-length coding -/

/-- 42_rle.md R199: `RLE.ENC` leaves `rle_fwd` of the input in `OBUF`, or raises `Capacity(0)` where it does not fit. The
input, the tree and the unpacker are unchanged; no byte of `OBUF` at or above `OLEN` is specified. -/
def Obligations.RleEncWritesTransform : Prop :=
  ∀ s : State, s.operands.ilen.toNat ≤ s.build.ibufCap.toNat →
    ((rleFwd s.input).length ≤ s.build.obufCap.toNat →
      ∃ t, exec .rleEnc s = .next t ∧ t.output = rleFwd s.input ∧
        t = { s with packer := ⟨t.packer.olen, 0, 0⟩, obuf := t.obuf } ∧
        ∀ a, t.packer.olen.toNat ≤ a → Table.get t.obuf a = none) ∧
    (s.build.obufCap.toNat < (rleFwd s.input).length →
      exec .rleEnc s = .next { s with latch := ⟨false, true, 7, 0⟩, packer := ⟨0, 0, 0⟩, obuf := [] })

/-- 42_rle.md R200: `RLE.DEC` leaves `rle_inv` of the input in `OBUF`, or raises `Capacity(0)` where it does not fit. -/
def Obligations.RleDecWritesInverse : Prop :=
  ∀ s : State, s.operands.ilen.toNat ≤ s.build.ibufCap.toNat →
    ((rleInv s.input).length ≤ s.build.obufCap.toNat →
      ∃ t, exec .rleDec s = .next t ∧ t.output = rleInv s.input ∧
        t = { s with packer := ⟨t.packer.olen, 0, 0⟩, obuf := t.obuf } ∧
        ∀ a, t.packer.olen.toNat ≤ a → Table.get t.obuf a = none) ∧
    (s.build.obufCap.toNat < (rleInv s.input).length →
      exec .rleDec s = .next { s with latch := ⟨false, true, 7, 0⟩, packer := ⟨0, 0, 0⟩, obuf := [] })

/-- 42_rle.md R197: the inverse undoes the transform, and a block decoder given the transform of `x` at `pos`, and whatever
follows it, returns `x` and consumes exactly the transform. -/
def Obligations.RleRoundTrip : Prop :=
  (∀ x : List Byte, rleInv (rleFwd x) = x) ∧
  ∀ (s : State) (pos : Nat) (x : List Byte), 1 ≤ x.length →
    pos + (rleFwd x).length ≤ s.operands.ilen.toNat →
    (∀ j, j < (rleFwd x).length → (rleFwd x)[j]? = some (s.readIbuf (pos + j))) →
    rleBlock s pos x.length = .ok (x, pos + (rleFwd x).length)

/-- 42_rle.md R198, R191: the size bound of the transform, and that its last byte is the input's last byte as a literal. -/
def Obligations.RleSizeBound : Prop :=
  rleFwd [] = [] ∧
  ∀ (x : List Byte) (b : Byte),
    (rleFwd (x ++ [b])).length ≤ (x.length + 1) + x.length / 3 ∧ (rleFwd (x ++ [b])).getLast? = some b

/-! ### Adaptive block run-length coding -/

/-- 43_abr.md R222: `ABR.ENC1` leaves the full encoded output for the block size in `BSIZE`, and reports `SELBS` and
`OUTH`. It completes whenever the dimensions are sound and the output fits; where the output does not fit it raises
`Capacity(0)` (60_exceptions.md R271), `SELBS` and `OUTH` unchanged. -/
def Obligations.AbrEnc1WritesCandidate : Prop :=
  ∀ (s : State) (y : List Byte), s.operands.ilen.toNat ≤ s.build.ibufCap.toNat → s.operands.width ≠ 0 →
    s.operands.ilen ≠ 0 → s.operands.ilen.toNat % s.operands.width.toNat = 0 → s.operands.bsize ≠ 0 →
    y = abrCand s.input s.operands.width.toNat (s.operands.ilen.toNat / s.operands.width.toNat)
      s.operands.bsize.toNat →
    (y.length ≤ s.build.obufCap.toNat →
      ∃ t, exec .abrEnc1 s = .next t ∧ t.output = y ∧
        t.results.outh.toNat = s.operands.ilen.toNat / s.operands.width.toNat ∧
        t = { s with
          packer := ⟨t.packer.olen, 0, 0⟩, obuf := t.obuf
          results := { s.results with selbs := s.operands.bsize, outh := t.results.outh } } ∧
        ∀ a, t.packer.olen.toNat ≤ a → Table.get t.obuf a = none) ∧
    (s.build.obufCap.toNat < y.length →
      exec .abrEnc1 s = .next { s with latch := ⟨false, true, 7, 0⟩, packer := ⟨0, 0, 0⟩, obuf := [] })

/-- 43_abr.md R223, R216, R217: `ABR.ENC` leaves the encoded output of a candidate `BS_MIN * 2^j` that no other candidate
beats in size and that every smaller candidate exceeds, and reports it in `SELBS` and the height in `OUTH`. It completes
whenever the dimensions are sound and some candidate fits; where none fits it raises `Capacity(0)` (60_exceptions.md R271),
`SELBS` and `OUTH` unchanged. -/
def Obligations.AbrEncSelectsSmallest : Prop :=
  ∀ (s : State) (W H : Nat) (candidate : Nat → Prop), s.build.wf → s.operands.ilen.toNat ≤ s.build.ibufCap.toNat →
    s.operands.width.toNat = W → s.operands.ilen.toNat = W * H → s.build.bsMin ≤ W → s.build.bsMin ≤ H →
    (∀ i, candidate i ↔
      (i ≤ s.build.bsMaxDoublings ∧ s.build.bsMin * 2 ^ i ≤ W ∧ s.build.bsMin * 2 ^ i ≤ H)) →
    (∀ k, candidate k → (abrCand s.input W H (s.build.bsMin * 2 ^ k)).length ≤ s.build.obufCap.toNat →
      ∃ t j, exec .abrEnc s = .next t ∧ candidate j ∧
        t.output = abrCand s.input W H (s.build.bsMin * 2 ^ j) ∧
        t.results.selbs.toNat = s.build.bsMin * 2 ^ j ∧ t.results.outh.toNat = H ∧
        (∀ i, candidate i →
          (abrCand s.input W H (s.build.bsMin * 2 ^ j)).length
              ≤ (abrCand s.input W H (s.build.bsMin * 2 ^ i)).length ∧
          (i < j → (abrCand s.input W H (s.build.bsMin * 2 ^ j)).length
              < (abrCand s.input W H (s.build.bsMin * 2 ^ i)).length)) ∧
        t = { s with
          packer := ⟨t.packer.olen, 0, 0⟩, obuf := t.obuf
          results := { s.results with selbs := t.results.selbs, outh := t.results.outh } } ∧
        ∀ a, t.packer.olen.toNat ≤ a → Table.get t.obuf a = none) ∧
    ((∀ k, candidate k → s.build.obufCap.toNat < (abrCand s.input W H (s.build.bsMin * 2 ^ k)).length) →
      exec .abrEnc s = .next { s with latch := ⟨false, true, 7, 0⟩, packer := ⟨0, 0, 0⟩, obuf := [] })

/-- 43_abr.md R225, R224: given the encoded output of any matrix for any block size, `ABR.DEC` delivers the matrix and
reports width, height and block size. It completes whenever the stream fits `IBUF` and the matrix fits `OBUF`. -/
def Obligations.AbrDecInvertsCandidate : Prop :=
  ∀ (s : State) (x : List Byte) (W H bs : Nat), 1 ≤ W → 1 ≤ H → 1 ≤ bs → bs < 2 ^ 64 → x.length = W * H →
    W * H ≤ s.build.obufCap.toNat → s.operands.ilen.toNat ≤ s.build.ibufCap.toNat →
    s.input = abrCand x W H bs →
    ∃ t, exec .abrDec s = .next t ∧ t.output = x ∧ t.results.outw.toNat = W ∧ t.results.outh.toNat = H ∧
      t.results.selbs.toNat = bs ∧
      t = { s with
        packer := ⟨t.packer.olen, 0, 0⟩, obuf := t.obuf
        results := { s.results with selbs := t.results.selbs, outw := t.results.outw, outh := t.results.outh } } ∧
      ∀ a, t.packer.olen.toNat ≤ a → Table.get t.obuf a = none

/-- 43_abr.md R221, R211, R212: over all blocks, in whichever order each is read, every index of the matrix occurs exactly
once. -/
def Obligations.TilesPartitionMatrix : Prop :=
  ∀ (W H bs : Nat) (dir : Nat → Bool), 1 ≤ W → 1 ≤ H → 1 ≤ bs →
    ((List.range (blockCount W H bs)).flatMap fun k => (tileOf W H bs k).indices W (dir k)).Perm
      (List.range (W * H))

/-- 43_abr.md R226: when the forward commands raise `InvalidDimensions(0)`, what that leaves, and that they raise it then
only: in particular `ABR.ENC1` does not compare with `BS_MIN`. -/
def Obligations.BadDimensionsRaise : Prop :=
  ∀ (s : State) (badEnc badEnc1 : Prop), s.operands.ilen.toNat ≤ s.build.ibufCap.toNat →
    (badEnc ↔ (s.operands.width = 0 ∨ s.operands.ilen.toNat % s.operands.width.toNat ≠ 0 ∨
        s.operands.width.toNat < s.build.bsMin ∨
        s.operands.ilen.toNat / s.operands.width.toNat < s.build.bsMin)) →
    (badEnc1 ↔ (s.operands.width = 0 ∨ s.operands.ilen = 0 ∨
        s.operands.ilen.toNat % s.operands.width.toNat ≠ 0 ∨ s.operands.bsize = 0)) →
    (badEnc →
      exec .abrEnc s = .next { s with latch := ⟨false, true, 3, 0⟩, packer := ⟨0, 0, 0⟩, obuf := [] }) ∧
    (badEnc1 →
      exec .abrEnc1 s = .next { s with latch := ⟨false, true, 3, 0⟩, packer := ⟨0, 0, 0⟩, obuf := [] }) ∧
    (s.latch.fault = false → ∀ t : State,
      (¬ badEnc → exec .abrEnc s = .next t → t.latch ≠ ⟨false, true, 3, 0⟩) ∧
      (¬ badEnc1 → exec .abrEnc1 s = .next t → t.latch ≠ ⟨false, true, 3, 0⟩))

/-- 43_abr.md R219: when `ABR.DEC` raises `MalformedHeader(0)`, what that leaves, and that it raises it then only. `W`, `H` and
`bs` are the three little-endian integers the header starts with. -/
def Obligations.BadHeaderRaises : Prop :=
  ∀ (s : State) (W H bs : Nat) (bad : Prop), s.operands.ilen.toNat ≤ s.build.ibufCap.toNat →
    unLE64 (s.memRead 0 8) = W → unLE64 (s.memRead 8 8) = H → unLE64 (s.memRead 16 8) = bs →
    (bad ↔ (s.operands.ilen.toNat < 24 ∨ W = 0 ∨ H = 0 ∨ bs = 0 ∨ 2 ^ 64 ≤ W * H ∨
      s.operands.ilen.toNat - 24 < cdiv (cdiv W bs * cdiv H bs) 8)) →
    (bad → exec .abrDec s = .next { s with latch := ⟨false, true, 1, 0⟩, packer := ⟨0, 0, 0⟩, obuf := [] }) ∧
    (¬ bad → s.latch.fault = false → ∀ t, exec .abrDec s = .next t → t.latch ≠ ⟨false, true, 1, 0⟩)

/-- 43_abr.md R220, R221, R224, 42_rle.md R196, 60_exceptions.md R271, R272: what `ABR.DEC` does with a stream of sound header
(`W`, `H`, `bs`, and `nb` direction bits before index `start`), whichever encoder wrote it. A matrix that does not fit `OBUF`
raises `Capacity(0)`. Else, with `enc` the data of the blocks filled so far and `rest` what follows them: `rest` too short
for the next block raises `TruncatedBlockData`, a byte of it that overfills the next block raises `RunOverrun`, both with the
block's index; bytes after the last block raise `TrailingData` with the bytes used; and with none the matrix is delivered,
each block's bytes in the direction its bit records. -/
def Obligations.AbrDecFollowsStream : Prop :=
  ∀ (s : State) (W H bs nb start : Nat), s.operands.ilen.toNat ≤ s.build.ibufCap.toNat →
    unLE64 (s.memRead 0 8) = W → unLE64 (s.memRead 8 8) = H → unLE64 (s.memRead 16 8) = bs →
    W ≠ 0 → H ≠ 0 → bs ≠ 0 → W * H < 2 ^ 64 → nb = cdiv W bs * cdiv H bs → start = 24 + cdiv nb 8 →
    start ≤ s.operands.ilen.toNat →
    (s.build.obufCap.toNat < W * H →
      exec .abrDec s = .next { s with latch := ⟨false, true, 7, 0⟩, packer := ⟨0, 0, 0⟩, obuf := [] }) ∧
    ∀ (enc : List (List Byte)) (rest : List Byte), W * H ≤ s.build.obufCap.toNat → enc.length ≤ nb →
      s.memRead start (s.operands.ilen.toNat - start) = enc.flatten ++ rest →
      (∀ j d, enc[j]? = some d → FillsExactly d (tileOf W H bs j).area) →
      (enc.length < nb → (rleInv rest).length < (tileOf W H bs enc.length).area →
        exec .abrDec s = .next { s with
          latch := ⟨false, true, 4, BitVec.ofNat 64 enc.length⟩, packer := ⟨0, 0, 0⟩, obuf := [] }) ∧
      (enc.length < nb → Overfills rest (tileOf W H bs enc.length).area →
        exec .abrDec s = .next { s with
          latch := ⟨false, true, 6, BitVec.ofNat 64 enc.length⟩, packer := ⟨0, 0, 0⟩, obuf := [] }) ∧
      (enc.length = nb → rest ≠ [] →
        exec .abrDec s = .next { s with
          latch := ⟨false, true, 5, BitVec.ofNat 64 (start + enc.flatten.length)⟩
          packer := ⟨0, 0, 0⟩, obuf := [] }) ∧
      (enc.length = nb → rest = [] →
        ∃ t, exec .abrDec s = .next t ∧ t.packer.olen.toNat = W * H ∧ t.results.outw.toNat = W ∧
          t.results.outh.toNat = H ∧ t.results.selbs.toNat = bs ∧
          (∀ j d, enc[j]? = some d →
            ((tileOf W H bs j).indices W ((s.readIbuf (24 + j / 8)).getLsbD (7 - j % 8))).map t.readObuf = rleInv d) ∧
          t = { s with
            packer := ⟨t.packer.olen, 0, 0⟩, obuf := t.obuf
            results := { s.results with
              selbs := t.results.selbs, outw := t.results.outw, outh := t.results.outh } } ∧
          ∀ a, t.packer.olen.toNat ≤ a → Table.get t.obuf a = none)

/-! ### The whole machine -/

/-- 60_exceptions.md R271, R274, R280, 20_memory.md R68: with `ILEN` beyond `IBUF_CAP` each of the seven buffer commands
raises `Capacity` with info 1 before it has changed anything. -/
def Obligations.InputTooLongRaises : Prop :=
  ∀ (s : State) (i : Instr), s.build.ibufCap.toNat < s.operands.ilen.toNat →
    (i = .htEncbuf ∨ i = .htDecbuf ∨ i = .rleEnc ∨ i = .rleDec ∨ i = .abrEnc1 ∨ i = .abrEnc ∨ i = .abrDec) →
    exec i s = .next { s with
      latch := ⟨false, true, 7, 1⟩, packer := { s.packer with olen := 0 }, obuf := [] }

/-- 20_memory.md R75, R60, 10_state.md R22: no command changes `IBUF`, and none but `SRST` a host-writable register; the
model's own fields of the build, of the host and of its reply are never a command's to change. -/
def Obligations.CommandsKeepInputAndOperands : Prop :=
  ∀ (i : Instr) (s t : State), exec i s = .next t →
    t.ibuf = s.ibuf ∧ (i ≠ .srst → t.operands = s.operands) ∧ t.build = s.build ∧ t.host = s.host ∧
      t.reply = s.reply ∧ t.ibufEpoch = s.ibufEpoch ∧ t.obufEpoch = s.obufEpoch

/-- 70_reset_and_hazards.md R305, 40_aht.md R130: the tree is changed only by `HT.INIT`, `HT.UPD`, the two session commands
and `SRST`; in particular encoding and decoding a symbol are pure reads of it (40_aht.md R135, R136). -/
def Obligations.TreeChangedOnlyByTreeCommands : Prop :=
  ∀ (i : Instr) (s t : State), exec i s = .next t →
    i ≠ .srst → i ≠ .htInit → (∀ v, i ≠ .htUpd v) → i ≠ .htEncbuf → i ≠ .htDecbuf → t.tree = s.tree

/-- 41_bitpacker.md R177, 70_reset_and_hazards.md R305: the unpacker's cursor is moved only by `HT.DEC`, `BU.GET`,
`BU.INIT`, `HT.DECBUF` and `SRST`. -/
def Obligations.CursorMovedOnlyByReaders : Prop :=
  ∀ (i : Instr) (s t : State), exec i s = .next t →
    i ≠ .srst → i ≠ .htDec → i ≠ .htDecbuf → i ≠ .buInit → (∀ n, i ≠ .buGet n) → t.unpacker = s.unpacker

/-- 10_state.md R23, R25, R21: which commands write `RESULT`, `SELBS`, `OUTW` and `OUTH`. -/
def Obligations.ResultsWrittenOnlyByTheirCommands : Prop :=
  ∀ (i : Instr) (s t : State), exec i s = .next t → i ≠ .srst →
    (i ≠ .htDec → (∀ n, i ≠ .buGet n) → t.results.val = s.results.val ∧ t.results.eos = s.results.eos) ∧
    (i ≠ .abrEnc1 → i ≠ .abrEnc → i ≠ .abrDec →
      t.results.selbs = s.results.selbs ∧ t.results.outh = s.results.outh) ∧
    (i ≠ .abrDec → t.results.outw = s.results.outw)

/-- 20_memory.md R61, 10_state.md R23: the commands that touch neither packer nor output leave `OLEN`, `BPACC`, `BPCNT` and
every byte of `OBUF`, unless they raise (which `HT.UPD` may). -/
def Obligations.OutputKeptByNonWriters : Prop :=
  ∀ (i : Instr) (s t : State), exec i s = .next t → s.latch.fault = false → t.latch.fault = false →
    i ≠ .bpInit → i ≠ .srst → writesObuf i = false →
    t.packer = s.packer ∧ t.obuf = s.obuf ∧ ∀ a, t.readObuf a = s.readObuf a

/-- 60_exceptions.md R271, R272, R276: a command leaves the latch alone, or is `SRST` and clears it, or raises one of the
kinds the table gives it, with `OLEN` 0 and no byte of `OBUF` specified. -/
def Obligations.FaultKindsByCommand : Prop :=
  ∀ (i : Instr) (s t : State), exec i s = .next t →
    t.latch = s.latch ∨ (i = .srst ∧ t.latch = ⟨false, false, 0, 0⟩) ∨
    ∃ k info, t.latch = ⟨false, true, k.code, info⟩ ∧ mayRaise i k info = true ∧ t.packer.olen = 0 ∧ t.obuf = []

/-- An invariant of every step, from every state that has it: no command runs between steps (10_state.md R25, 20_memory.md
R70), the latch is consistent (R21), a latched fault leaves no output (60_exceptions.md R276), `BPACC` is clean (R26), the
output is specified and within its buffer (R34), both memories keep their canonical form, no cursor passes its buffer's
end (R24). -/
def Obligations.StateInvariantKept : Prop :=
  ∀ s t : State, s.Inv → step s = .next t → t.Inv

/-- An invariant of every step, from every state that has it: the tree is the FGK tree of 10_state.md R31, sibling property
included (40_aht.md R133, R140). `Tree.Inv` adds the fact 40_aht.md R141 observes to R31 (log 10). -/
def Obligations.TreeInvariantKept : Prop :=
  ∀ s t : State, s.tree.Inv → step s = .next t → t.tree.Inv

/-- The reset state has both invariants (10_state.md R31: "Reset establishes them", R37). -/
def Obligations.ResetHasInvariants : Prop := State.reset.Inv ∧ State.reset.tree.Inv

/-! ### The reference pipeline -/

/-- 47_pipeline_reference.md R250, R251: the diff model and its inverse, element by element, and that the inverse is
exact. -/
def Obligations.DiffModelRoundTrip : Prop :=
  ∀ x : List Byte, diffInv (diffFwd x) = x ∧ (diffFwd x).length = x.length ∧ (diffInv x).length = x.length ∧
    ∀ i, i < x.length →
      (diffFwd x).getD i 0 = x.getD i 0 - (if i = 0 then 0 else x.getD (i - 1) 0) ∧
      (diffInv x).getD i 0 = BitVec.ofNat 8 ((x.take (i + 1)).map BitVec.toNat).sum

/-- 47_pipeline_reference.md R259: for every input and every option combination, `decompress` undoes `compress`, for every
input that `compress` accepts and that fits the buffers (the compressed bits fit `IBUF`, the input fits `OBUF`). -/
def Obligations.CompressRoundTrip : Prop :=
  ∀ (b : Build) (o : Options) (x z : List Byte), b.wf → compress b o x = .ok z →
    z.length ≤ 9 + b.ibufCap.toNat → x.length ≤ b.obufCap.toNat → decompress b z = .ok x
end

