-- ==== Sys2Proof/Laws/State.lean ====
section
/-! SUPPORT. One lemma per field per named update of the state, each true by unfolding. -/

namespace Sys2Proof.Machine

variable (s : State)

@[simp] theorem State.setResult_latch (v : Option Byte) : (s.setResult v).latch = s.latch := rfl
@[simp] theorem State.setResult_operands (v : Option Byte) : (s.setResult v).operands = s.operands := rfl
@[simp] theorem State.setResult_packer (v : Option Byte) : (s.setResult v).packer = s.packer := rfl
@[simp] theorem State.setResult_unpacker (v : Option Byte) : (s.setResult v).unpacker = s.unpacker := rfl
@[simp] theorem State.setResult_results (v : Option Byte) :
    (s.setResult v).results = { s.results with val := v.getD 0, eos := v.isNone } := rfl
@[simp] theorem State.setResult_tree (v : Option Byte) : (s.setResult v).tree = s.tree := rfl
@[simp] theorem State.setResult_ibuf (v : Option Byte) : (s.setResult v).ibuf = s.ibuf := rfl
@[simp] theorem State.setResult_obuf (v : Option Byte) : (s.setResult v).obuf = s.obuf := rfl
@[simp] theorem State.setResult_build (v : Option Byte) : (s.setResult v).build = s.build := rfl
@[simp] theorem State.setResult_ibufEpoch (v : Option Byte) : (s.setResult v).ibufEpoch = s.ibufEpoch := rfl
@[simp] theorem State.setResult_obufEpoch (v : Option Byte) : (s.setResult v).obufEpoch = s.obufEpoch := rfl
@[simp] theorem State.setResult_host (v : Option Byte) : (s.setResult v).host = s.host := rfl
@[simp] theorem State.setResult_reply (v : Option Byte) : (s.setResult v).reply = s.reply := rfl

@[simp] theorem State.raise_latch (k : ErrKind) (info : Word) :
    (s.raise k info).latch = Latch.latched k info := rfl
@[simp] theorem State.raise_operands (k : ErrKind) (info : Word) : (s.raise k info).operands = s.operands := rfl
@[simp] theorem State.raise_packer (k : ErrKind) (info : Word) :
    (s.raise k info).packer = { s.packer with olen := 0 } := rfl
@[simp] theorem State.raise_unpacker (k : ErrKind) (info : Word) : (s.raise k info).unpacker = s.unpacker := rfl
@[simp] theorem State.raise_results (k : ErrKind) (info : Word) : (s.raise k info).results = s.results := rfl
@[simp] theorem State.raise_tree (k : ErrKind) (info : Word) : (s.raise k info).tree = s.tree := rfl
@[simp] theorem State.raise_ibuf (k : ErrKind) (info : Word) : (s.raise k info).ibuf = s.ibuf := rfl
@[simp] theorem State.raise_obuf (k : ErrKind) (info : Word) : (s.raise k info).obuf = [] := rfl
@[simp] theorem State.raise_build (k : ErrKind) (info : Word) : (s.raise k info).build = s.build := rfl
@[simp] theorem State.raise_ibufEpoch (k : ErrKind) (info : Word) :
    (s.raise k info).ibufEpoch = s.ibufEpoch := rfl
@[simp] theorem State.raise_obufEpoch (k : ErrKind) (info : Word) :
    (s.raise k info).obufEpoch = s.obufEpoch := rfl
@[simp] theorem State.raise_host (k : ErrKind) (info : Word) : (s.raise k info).host = s.host := rfl
@[simp] theorem State.raise_reply (k : ErrKind) (info : Word) : (s.raise k info).reply = s.reply := rfl

@[simp] theorem State.softReset_latch : s.softReset.latch = Latch.reset := rfl
@[simp] theorem State.softReset_operands : s.softReset.operands = Operands.reset := rfl
@[simp] theorem State.softReset_packer : s.softReset.packer = Packer.reset := rfl
@[simp] theorem State.softReset_unpacker : s.softReset.unpacker = Unpacker.reset := rfl
@[simp] theorem State.softReset_results : s.softReset.results = Results.reset := rfl
@[simp] theorem State.softReset_tree : s.softReset.tree = Tree.fresh := rfl
@[simp] theorem State.softReset_ibuf : s.softReset.ibuf = s.ibuf := rfl
@[simp] theorem State.softReset_obuf : s.softReset.obuf = s.obuf := rfl
@[simp] theorem State.softReset_build : s.softReset.build = s.build := rfl
@[simp] theorem State.softReset_ibufEpoch : s.softReset.ibufEpoch = s.ibufEpoch := rfl
@[simp] theorem State.softReset_obufEpoch : s.softReset.obufEpoch = s.obufEpoch := rfl
@[simp] theorem State.softReset_host : s.softReset.host = s.host := rfl
@[simp] theorem State.softReset_reply : s.softReset.reply = s.reply := rfl

@[simp] theorem State.hardwareReset_latch : s.hardwareReset.latch = Latch.reset := rfl
@[simp] theorem State.hardwareReset_operands : s.hardwareReset.operands = Operands.reset := rfl
@[simp] theorem State.hardwareReset_packer : s.hardwareReset.packer = Packer.reset := rfl
@[simp] theorem State.hardwareReset_unpacker : s.hardwareReset.unpacker = Unpacker.reset := rfl
@[simp] theorem State.hardwareReset_results : s.hardwareReset.results = Results.reset := rfl
@[simp] theorem State.hardwareReset_tree : s.hardwareReset.tree = Tree.fresh := rfl
@[simp] theorem State.hardwareReset_ibuf : s.hardwareReset.ibuf = [] := rfl
@[simp] theorem State.hardwareReset_obuf : s.hardwareReset.obuf = [] := rfl
@[simp] theorem State.hardwareReset_build : s.hardwareReset.build = s.build := rfl
@[simp] theorem State.hardwareReset_ibufEpoch : s.hardwareReset.ibufEpoch = s.ibufEpoch + 1 := rfl
@[simp] theorem State.hardwareReset_obufEpoch : s.hardwareReset.obufEpoch = s.obufEpoch + 1 := rfl
@[simp] theorem State.hardwareReset_host : s.hardwareReset.host = s.host := rfl
@[simp] theorem State.hardwareReset_reply : s.hardwareReset.reply = s.reply := rfl

@[simp] theorem State.writeIbuf_latch (i : Nat) (b : Byte) : (s.writeIbuf i b).latch = s.latch := rfl
@[simp] theorem State.writeIbuf_operands (i : Nat) (b : Byte) : (s.writeIbuf i b).operands = s.operands := rfl
@[simp] theorem State.writeIbuf_packer (i : Nat) (b : Byte) : (s.writeIbuf i b).packer = s.packer := rfl
@[simp] theorem State.writeIbuf_unpacker (i : Nat) (b : Byte) : (s.writeIbuf i b).unpacker = s.unpacker := rfl
@[simp] theorem State.writeIbuf_results (i : Nat) (b : Byte) : (s.writeIbuf i b).results = s.results := rfl
@[simp] theorem State.writeIbuf_tree (i : Nat) (b : Byte) : (s.writeIbuf i b).tree = s.tree := rfl
@[simp] theorem State.writeIbuf_ibuf (i : Nat) (b : Byte) : (s.writeIbuf i b).ibuf = Table.set s.ibuf i b := rfl
@[simp] theorem State.writeIbuf_obuf (i : Nat) (b : Byte) : (s.writeIbuf i b).obuf = s.obuf := rfl
@[simp] theorem State.writeIbuf_build (i : Nat) (b : Byte) : (s.writeIbuf i b).build = s.build := rfl
@[simp] theorem State.writeIbuf_ibufEpoch (i : Nat) (b : Byte) :
    (s.writeIbuf i b).ibufEpoch = s.ibufEpoch := rfl
@[simp] theorem State.writeIbuf_obufEpoch (i : Nat) (b : Byte) :
    (s.writeIbuf i b).obufEpoch = s.obufEpoch := rfl
@[simp] theorem State.writeIbuf_host (i : Nat) (b : Byte) : (s.writeIbuf i b).host = s.host := rfl
@[simp] theorem State.writeIbuf_reply (i : Nat) (b : Byte) : (s.writeIbuf i b).reply = s.reply := rfl

@[simp] theorem State.writeObuf_latch (i : Nat) (b : Byte) : (s.writeObuf i b).latch = s.latch := rfl
@[simp] theorem State.writeObuf_operands (i : Nat) (b : Byte) : (s.writeObuf i b).operands = s.operands := rfl
@[simp] theorem State.writeObuf_packer (i : Nat) (b : Byte) : (s.writeObuf i b).packer = s.packer := rfl
@[simp] theorem State.writeObuf_unpacker (i : Nat) (b : Byte) : (s.writeObuf i b).unpacker = s.unpacker := rfl
@[simp] theorem State.writeObuf_results (i : Nat) (b : Byte) : (s.writeObuf i b).results = s.results := rfl
@[simp] theorem State.writeObuf_tree (i : Nat) (b : Byte) : (s.writeObuf i b).tree = s.tree := rfl
@[simp] theorem State.writeObuf_ibuf (i : Nat) (b : Byte) : (s.writeObuf i b).ibuf = s.ibuf := rfl
@[simp] theorem State.writeObuf_obuf (i : Nat) (b : Byte) : (s.writeObuf i b).obuf = Table.set s.obuf i b := rfl
@[simp] theorem State.writeObuf_build (i : Nat) (b : Byte) : (s.writeObuf i b).build = s.build := rfl
@[simp] theorem State.writeObuf_ibufEpoch (i : Nat) (b : Byte) :
    (s.writeObuf i b).ibufEpoch = s.ibufEpoch := rfl
@[simp] theorem State.writeObuf_obufEpoch (i : Nat) (b : Byte) :
    (s.writeObuf i b).obufEpoch = s.obufEpoch := rfl
@[simp] theorem State.writeObuf_host (i : Nat) (b : Byte) : (s.writeObuf i b).host = s.host := rfl
@[simp] theorem State.writeObuf_reply (i : Nat) (b : Byte) : (s.writeObuf i b).reply = s.reply := rfl

@[simp] theorem State.restartOutput_latch : s.restartOutput.latch = s.latch := rfl
@[simp] theorem State.restartOutput_operands : s.restartOutput.operands = s.operands := rfl
@[simp] theorem State.restartOutput_packer : s.restartOutput.packer = Packer.reset := rfl
@[simp] theorem State.restartOutput_unpacker : s.restartOutput.unpacker = s.unpacker := rfl
@[simp] theorem State.restartOutput_results : s.restartOutput.results = s.results := rfl
@[simp] theorem State.restartOutput_tree : s.restartOutput.tree = s.tree := rfl
@[simp] theorem State.restartOutput_ibuf : s.restartOutput.ibuf = s.ibuf := rfl
@[simp] theorem State.restartOutput_obuf : s.restartOutput.obuf = [] := rfl
@[simp] theorem State.restartOutput_build : s.restartOutput.build = s.build := rfl
@[simp] theorem State.restartOutput_ibufEpoch : s.restartOutput.ibufEpoch = s.ibufEpoch := rfl
@[simp] theorem State.restartOutput_obufEpoch : s.restartOutput.obufEpoch = s.obufEpoch := rfl
@[simp] theorem State.restartOutput_host : s.restartOutput.host = s.host := rfl
@[simp] theorem State.restartOutput_reply : s.restartOutput.reply = s.reply := rfl

@[simp] theorem State.rewindInput_latch : s.rewindInput.latch = s.latch := rfl
@[simp] theorem State.rewindInput_operands : s.rewindInput.operands = s.operands := rfl
@[simp] theorem State.rewindInput_packer : s.rewindInput.packer = s.packer := rfl
@[simp] theorem State.rewindInput_unpacker : s.rewindInput.unpacker = Unpacker.reset := rfl
@[simp] theorem State.rewindInput_results : s.rewindInput.results = s.results := rfl
@[simp] theorem State.rewindInput_tree : s.rewindInput.tree = s.tree := rfl
@[simp] theorem State.rewindInput_ibuf : s.rewindInput.ibuf = s.ibuf := rfl
@[simp] theorem State.rewindInput_obuf : s.rewindInput.obuf = s.obuf := rfl
@[simp] theorem State.rewindInput_build : s.rewindInput.build = s.build := rfl
@[simp] theorem State.rewindInput_ibufEpoch : s.rewindInput.ibufEpoch = s.ibufEpoch := rfl
@[simp] theorem State.rewindInput_obufEpoch : s.rewindInput.obufEpoch = s.obufEpoch := rfl
@[simp] theorem State.rewindInput_host : s.rewindInput.host = s.host := rfl
@[simp] theorem State.rewindInput_reply : s.rewindInput.reply = s.reply := rfl

@[simp] theorem State.freshTree_latch : s.freshTree.latch = s.latch := rfl
@[simp] theorem State.freshTree_operands : s.freshTree.operands = s.operands := rfl
@[simp] theorem State.freshTree_packer : s.freshTree.packer = s.packer := rfl
@[simp] theorem State.freshTree_unpacker : s.freshTree.unpacker = s.unpacker := rfl
@[simp] theorem State.freshTree_results : s.freshTree.results = s.results := rfl
@[simp] theorem State.freshTree_tree : s.freshTree.tree = Tree.fresh := rfl
@[simp] theorem State.freshTree_ibuf : s.freshTree.ibuf = s.ibuf := rfl
@[simp] theorem State.freshTree_obuf : s.freshTree.obuf = s.obuf := rfl
@[simp] theorem State.freshTree_build : s.freshTree.build = s.build := rfl
@[simp] theorem State.freshTree_ibufEpoch : s.freshTree.ibufEpoch = s.ibufEpoch := rfl
@[simp] theorem State.freshTree_obufEpoch : s.freshTree.obufEpoch = s.obufEpoch := rfl
@[simp] theorem State.freshTree_host : s.freshTree.host = s.host := rfl
@[simp] theorem State.freshTree_reply : s.freshTree.reply = s.reply := rfl

@[simp] theorem State.setForward_latch (bs h : Nat) : (s.setForward bs h).latch = s.latch := rfl
@[simp] theorem State.setForward_operands (bs h : Nat) : (s.setForward bs h).operands = s.operands := rfl
@[simp] theorem State.setForward_packer (bs h : Nat) : (s.setForward bs h).packer = s.packer := rfl
@[simp] theorem State.setForward_unpacker (bs h : Nat) : (s.setForward bs h).unpacker = s.unpacker := rfl
@[simp] theorem State.setForward_results (bs h : Nat) :
    (s.setForward bs h).results = { s.results with selbs := BitVec.ofNat 64 bs, outh := BitVec.ofNat 64 h } := rfl
@[simp] theorem State.setForward_tree (bs h : Nat) : (s.setForward bs h).tree = s.tree := rfl
@[simp] theorem State.setForward_ibuf (bs h : Nat) : (s.setForward bs h).ibuf = s.ibuf := rfl
@[simp] theorem State.setForward_obuf (bs h : Nat) : (s.setForward bs h).obuf = s.obuf := rfl
@[simp] theorem State.setForward_build (bs h : Nat) : (s.setForward bs h).build = s.build := rfl
@[simp] theorem State.setForward_ibufEpoch (bs h : Nat) : (s.setForward bs h).ibufEpoch = s.ibufEpoch := rfl
@[simp] theorem State.setForward_obufEpoch (bs h : Nat) : (s.setForward bs h).obufEpoch = s.obufEpoch := rfl
@[simp] theorem State.setForward_host (bs h : Nat) : (s.setForward bs h).host = s.host := rfl
@[simp] theorem State.setForward_reply (bs h : Nat) : (s.setForward bs h).reply = s.reply := rfl

@[simp] theorem State.setReverse_latch (h : Header) : (s.setReverse h).latch = s.latch := rfl
@[simp] theorem State.setReverse_operands (h : Header) : (s.setReverse h).operands = s.operands := rfl
@[simp] theorem State.setReverse_packer (h : Header) :
    (s.setReverse h).packer = { s.packer with olen := BitVec.ofNat 64 (h.W * h.H) } := rfl
@[simp] theorem State.setReverse_unpacker (h : Header) : (s.setReverse h).unpacker = s.unpacker := rfl
@[simp] theorem State.setReverse_results (h : Header) :
    (s.setReverse h).results = { s.results with outw := BitVec.ofNat 64 h.W, outh := BitVec.ofNat 64 h.H, selbs := BitVec.ofNat 64 h.bs } := rfl
@[simp] theorem State.setReverse_tree (h : Header) : (s.setReverse h).tree = s.tree := rfl
@[simp] theorem State.setReverse_ibuf (h : Header) : (s.setReverse h).ibuf = s.ibuf := rfl
@[simp] theorem State.setReverse_obuf (h : Header) : (s.setReverse h).obuf = s.obuf := rfl
@[simp] theorem State.setReverse_build (h : Header) : (s.setReverse h).build = s.build := rfl
@[simp] theorem State.setReverse_ibufEpoch (h : Header) : (s.setReverse h).ibufEpoch = s.ibufEpoch := rfl
@[simp] theorem State.setReverse_obufEpoch (h : Header) : (s.setReverse h).obufEpoch = s.obufEpoch := rfl
@[simp] theorem State.setReverse_host (h : Header) : (s.setReverse h).host = s.host := rfl
@[simp] theorem State.setReverse_reply (h : Header) : (s.setReverse h).reply = s.reply := rfl

@[simp] theorem State.begin_latch : s.begin.latch = { s.latch with busy := true } := rfl
@[simp] theorem State.begin_operands : s.begin.operands = s.operands := rfl
@[simp] theorem State.begin_packer : s.begin.packer = s.packer := rfl
@[simp] theorem State.begin_unpacker : s.begin.unpacker = s.unpacker := rfl
@[simp] theorem State.begin_results : s.begin.results = s.results := rfl
@[simp] theorem State.begin_tree : s.begin.tree = s.tree := rfl
@[simp] theorem State.begin_ibuf : s.begin.ibuf = s.ibuf := rfl
@[simp] theorem State.begin_obuf : s.begin.obuf = s.obuf := rfl
@[simp] theorem State.begin_build : s.begin.build = s.build := rfl
@[simp] theorem State.begin_ibufEpoch : s.begin.ibufEpoch = s.ibufEpoch := rfl
@[simp] theorem State.begin_obufEpoch : s.begin.obufEpoch = s.obufEpoch + 1 := rfl
@[simp] theorem State.begin_host : s.begin.host = s.host := rfl
@[simp] theorem State.begin_reply : s.begin.reply = s.reply := rfl

@[simp] theorem State.finish_latch : s.finish.latch = { s.latch with busy := false } := rfl
@[simp] theorem State.finish_operands : s.finish.operands = s.operands := rfl
@[simp] theorem State.finish_packer : s.finish.packer = s.packer := rfl
@[simp] theorem State.finish_unpacker : s.finish.unpacker = s.unpacker := rfl
@[simp] theorem State.finish_results : s.finish.results = s.results := rfl
@[simp] theorem State.finish_tree : s.finish.tree = s.tree := rfl
@[simp] theorem State.finish_ibuf : s.finish.ibuf = s.ibuf := rfl
@[simp] theorem State.finish_obuf : s.finish.obuf = s.obuf := rfl
@[simp] theorem State.finish_build : s.finish.build = s.build := rfl
@[simp] theorem State.finish_ibufEpoch : s.finish.ibufEpoch = s.ibufEpoch := rfl
@[simp] theorem State.finish_obufEpoch : s.finish.obufEpoch = s.obufEpoch := rfl
@[simp] theorem State.finish_host : s.finish.host = s.host := rfl
@[simp] theorem State.finish_reply : s.finish.reply = s.reply := rfl

@[simp] theorem State.replyWith_latch (v : Word) : (s.replyWith v).latch = s.latch := rfl
@[simp] theorem State.replyWith_operands (v : Word) : (s.replyWith v).operands = s.operands := rfl
@[simp] theorem State.replyWith_packer (v : Word) : (s.replyWith v).packer = s.packer := rfl
@[simp] theorem State.replyWith_unpacker (v : Word) : (s.replyWith v).unpacker = s.unpacker := rfl
@[simp] theorem State.replyWith_results (v : Word) : (s.replyWith v).results = s.results := rfl
@[simp] theorem State.replyWith_tree (v : Word) : (s.replyWith v).tree = s.tree := rfl
@[simp] theorem State.replyWith_ibuf (v : Word) : (s.replyWith v).ibuf = s.ibuf := rfl
@[simp] theorem State.replyWith_obuf (v : Word) : (s.replyWith v).obuf = s.obuf := rfl
@[simp] theorem State.replyWith_build (v : Word) : (s.replyWith v).build = s.build := rfl
@[simp] theorem State.replyWith_ibufEpoch (v : Word) : (s.replyWith v).ibufEpoch = s.ibufEpoch := rfl
@[simp] theorem State.replyWith_obufEpoch (v : Word) : (s.replyWith v).obufEpoch = s.obufEpoch := rfl
@[simp] theorem State.replyWith_host (v : Word) : (s.replyWith v).host = s.host := rfl
@[simp] theorem State.replyWith_reply (v : Word) : (s.replyWith v).reply = some v := rfl

@[simp] theorem State.popMove_latch : s.popMove.latch = s.latch := rfl
@[simp] theorem State.popMove_operands : s.popMove.operands = s.operands := rfl
@[simp] theorem State.popMove_packer : s.popMove.packer = s.packer := rfl
@[simp] theorem State.popMove_unpacker : s.popMove.unpacker = s.unpacker := rfl
@[simp] theorem State.popMove_results : s.popMove.results = s.results := rfl
@[simp] theorem State.popMove_tree : s.popMove.tree = s.tree := rfl
@[simp] theorem State.popMove_ibuf : s.popMove.ibuf = s.ibuf := rfl
@[simp] theorem State.popMove_obuf : s.popMove.obuf = s.obuf := rfl
@[simp] theorem State.popMove_build : s.popMove.build = s.build := rfl
@[simp] theorem State.popMove_ibufEpoch : s.popMove.ibufEpoch = s.ibufEpoch := rfl
@[simp] theorem State.popMove_obufEpoch : s.popMove.obufEpoch = s.obufEpoch := rfl
@[simp] theorem State.popMove_host : s.popMove.host = s.host.tail := rfl
@[simp] theorem State.popMove_reply : s.popMove.reply = s.reply := rfl

/-- A host register write changes the operand registers only. -/
theorem State.writeReg_eq (r : Reg) (v : Word) :
    s.writeReg r v = { s with operands := (s.writeReg r v).operands } := by cases r <;> rfl

end Sys2Proof.Machine
end

