-- ==== Sys2Proof/Laws/Table.lean ====
section
/-! SUPPORT. Read-after-write and canonical-form laws of tables and memories. -/

namespace Sys2Proof.Machine

variable {α : Type}

@[simp] theorem Table.get_nil (a : Nat) : Table.get ([] : Table α) a = none := rfl

@[simp] theorem Table.get_set_same (m : Table α) (a : Nat) (v : α) : Table.get (Table.set m a v) a = some v := by
  induction m with
  | nil => simp [Table.set, Table.get]
  | cons x m ih =>
    obtain ⟨k, w⟩ := x
    unfold Table.set
    split
    · simp [Table.get]
    · split
      · simp [Table.get]
      · rename_i h; simp [Table.get, h, ih]

theorem Table.get_set_other (m : Table α) {a b : Nat} (v : α) (h : b ≠ a) :
    Table.get (Table.set m a v) b = Table.get m b := by
  induction m with
  | nil => simp [Table.set, Table.get, Ne.symm h]
  | cons x m ih =>
    obtain ⟨k, w⟩ := x
    unfold Table.set
    split
    · simp [Table.get, Ne.symm h]
    · split
      · rename_i hk; subst hk; simp [Table.get, Ne.symm h]
      · simp [Table.get, ih]

theorem Table.get_set (m : Table α) (a b : Nat) (v : α) :
    Table.get (Table.set m a v) b = if b = a then some v else Table.get m b := by
  by_cases h : b = a
  · subst h; simp
  · simp [h, Table.get_set_other m v h]

theorem Table.mem_set {m : Table α} {a : Nat} {v : α} {x : Nat × α} (h : x ∈ Table.set m a v) :
    x = (a, v) ∨ x ∈ m := by
  induction m with
  | nil => simpa [Table.set] using h
  | cons y m ih =>
    obtain ⟨k, w⟩ := y
    unfold Table.set at h
    split at h
    · simpa using h
    · split at h
      · rcases List.mem_cons.1 h with h | h
        · exact .inl h
        · exact .inr (List.mem_cons_of_mem _ h)
      · rcases List.mem_cons.1 h with h | h
        · exact .inr (h ▸ List.mem_cons_self ..)
        · exact (ih h).imp id (List.mem_cons_of_mem _)

theorem Table.mem_of_get {m : Table α} {a : Nat} {v : α} (h : Table.get m a = some v) : (a, v) ∈ m := by
  induction m with
  | nil => simp at h
  | cons y m ih =>
    obtain ⟨k, w⟩ := y
    unfold Table.get at h
    split at h
    · rename_i hk; subst hk; simp at h; simp [h]
    · exact List.mem_cons_of_mem _ (ih h)

theorem Table.get_of_mem {m : Table α} {a : Nat} {v : α} (hm : Table.wf m) (h : (a, v) ∈ m) :
    Table.get m a = some v := by
  induction m with
  | nil => simp at h
  | cons y m ih =>
    obtain ⟨k, w⟩ := y
    rw [Table.wf, List.map_cons, List.pairwise_cons] at hm
    unfold Table.get
    rcases List.mem_cons.1 h with h | h
    · cases h; simp
    · have : k < a := hm.1 a (List.mem_map_of_mem (f := Prod.fst) h)
      rw [if_neg (by omega)]
      exact ih hm.2 h

/-- In canonical form, the listed entries are exactly what reading finds. -/
theorem Table.mem_iff_get {m : Table α} (hm : Table.wf m) (a : Nat) (v : α) :
    (a, v) ∈ m ↔ Table.get m a = some v :=
  ⟨Table.get_of_mem hm, Table.mem_of_get⟩

/-- Writing keeps the canonical form. -/
theorem Table.set_wf {m : Table α} (a : Nat) (v : α) (hm : Table.wf m) : Table.wf (Table.set m a v) := by
  induction m with
  | nil => simp [Table.set, Table.wf]
  | cons y m ih =>
    obtain ⟨k, w⟩ := y
    have hk := hm
    rw [Table.wf, List.map_cons, List.pairwise_cons] at hk
    unfold Table.set
    split
    · rename_i hlt
      simp only [Table.wf, List.map_cons, List.pairwise_cons, List.mem_cons, forall_eq_or_imp]
      exact ⟨⟨hlt, fun b hb => lt_trans hlt (hk.1 b hb)⟩, hk⟩
    · split
      · rename_i hka; subst hka; exact hm
      · rename_i h1 h2
        rw [Table.wf, List.map_cons, List.pairwise_cons]
        refine ⟨fun b hb => ?_, ih hk.2⟩
        obtain ⟨x, hx, rfl⟩ := List.mem_map.1 hb
        rcases Table.mem_set hx with rfl | hx
        · simp only; omega
        · exact hk.1 _ (List.mem_map_of_mem (f := Prod.fst) hx)

/-- Two canonical tables that read the same everywhere are equal. -/
theorem Table.ext_get {m m' : Table α} (hm : Table.wf m) (hm' : Table.wf m')
    (h : ∀ a, Table.get m a = Table.get m' a) : m = m' := by
  have nd : ∀ {l : Table α}, Table.wf l → l.Nodup := fun hl =>
    List.Nodup.of_map Prod.fst (hl.imp fun h => ne_of_lt h)
  have perm : m.Perm m' := (List.perm_ext_iff_of_nodup (nd hm) (nd hm')).2 fun x => by
    obtain ⟨a, v⟩ := x
    rw [Table.mem_iff_get hm, Table.mem_iff_get hm', h]
  have sorted : ∀ {l : Table α}, Table.wf l → l.Pairwise (fun x y => x.1 < y.1) := fun hl =>
    List.pairwise_map.1 hl
  exact perm.eq_of_pairwise (fun x y _ _ h1 h2 => absurd (lt_trans h1 h2) (lt_irrefl _)) (sorted hm) (sorted hm')

/-- Writing a memory keeps its canonical form. -/
theorem Memory.set_wf {m : Memory} (a : Nat) (v : Byte) (hm : Memory.wf m) : Memory.wf (Table.set m a v) :=
  Table.set_wf a v hm

theorem Memory.nil_wf : Memory.wf [] := List.Pairwise.nil

@[simp] theorem msbFirst_length (n : Nat) (v : Byte) : (msbFirst n v).length = n := by simp [msbFirst]

@[simp] theorem le64_length (v : Nat) : (le64 v).length = 8 := by simp [le64]

end Sys2Proof.Machine
end

