-- ==== Sys2Proof/Laws/Ops.lean ====
section
/-! SUPPORT. For each shared operation, once, everything it can do. -/

namespace Sys2Proof.Machine

@[simp] theorem Run.andThen_going (s : State) (f : State → Run) : (Run.going s).andThen f = f s := rfl
@[simp] theorem Run.andThen_ended (s : State) (f : State → Run) : (Run.ended s).andThen f = .ended s := rfl
@[simp] theorem Run.state_going (s : State) : (Run.going s).state = s := rfl
@[simp] theorem Run.state_ended (s : State) : (Run.ended s).state = s := rfl
@[simp] theorem Run.outcome_eq (r : Run) : r.outcome = .next r.state := rfl

/-- A composed run either goes through both parts or ends in one of them. -/
theorem Run.andThen_cases (r : Run) (f : State → Run) :
    (∃ s, r = .going s ∧ r.andThen f = f s) ∨ (∃ s, r = .ended s ∧ r.andThen f = .ended s) := by
  cases r with
  | going s => exact .inl ⟨s, rfl, rfl⟩
  | ended s => exact .inr ⟨s, rfl, rfl⟩

/-- `emit` stores one byte at `OLEN`, or raises `Capacity(0)`. -/
theorem emit_cases (b : Byte) (s : State) :
    (s.packer.olen.toNat < s.build.obufCap.toNat ∧
      emit b s = .going { s with
        obuf := Table.set s.obuf s.packer.olen.toNat b, packer := { s.packer with olen := s.packer.olen + 1 } }) ∨
    (s.build.obufCap.toNat ≤ s.packer.olen.toNat ∧ emit b s = .ended (s.raise .capacity 0)) := by
  unfold emit
  split
  · exact .inr ⟨‹_›, rfl⟩
  · exact .inl ⟨by omega, rfl⟩

/-- While there is room, `OLEN` counts up without wrapping. -/
theorem olen_succ {s : State} (h : s.packer.olen.toNat < s.build.obufCap.toNat) :
    (s.packer.olen + 1).toNat = s.packer.olen.toNat + 1 := by
  have := s.build.obufCap.isLt
  rw [BitVec.toNat_add, show (1 : Word).toNat = 1 from rfl]
  omega

/-- The bytes of `bs` stored from index `i` on. -/
def Memory.store (m : Memory) (i : Nat) : List Byte → Memory
  | [] => m
  | b :: bs => Memory.store (Table.set m i b) (i + 1) bs

theorem Memory.store_wf {m : Memory} (hm : Memory.wf m) (i : Nat) (bs : List Byte) :
    Memory.wf (Memory.store m i bs) := by
  induction bs generalizing m i with
  | nil => exact hm
  | cons b bs ih => exact ih (Memory.set_wf i b hm) (i + 1)

/-- Reading what a run of bytes stored, and what it left alone. -/
theorem Memory.get_store (m : Memory) (i a : Nat) (bs : List Byte) :
    Table.get (Memory.store m i bs) a =
      if i ≤ a ∧ a < i + bs.length then bs[a - i]? else Table.get m a := by
  induction bs generalizing m i with
  | nil => rw [if_neg (by simp only [List.length_nil]; omega)]; rfl
  | cons b bs ih =>
    rw [Memory.store, ih, List.length_cons, Table.get_set]
    by_cases h : a = i
    · subst h; simp
    · by_cases h2 : i + 1 ≤ a ∧ a < i + 1 + bs.length
      · rw [if_pos h2, if_pos (by omega)]
        have : a - i = (a - (i + 1)) + 1 := by omega
        rw [this, List.getElem?_cons_succ]
      · rw [if_neg h2, if_neg h, if_neg (by omega)]

/-- `emitAll` stores all its bytes from `OLEN` on, or raises `Capacity(0)` where they do not fit. -/
theorem emitAll_cases (bs : List Byte) (s : State) :
    (s.packer.olen.toNat + bs.length ≤ s.build.obufCap.toNat ∧
      emitAll bs s = .going { s with
        obuf := Memory.store s.obuf s.packer.olen.toNat bs
        packer := { s.packer with olen := s.packer.olen + BitVec.ofNat 64 bs.length } }) ∨
    (bs ≠ [] ∧ s.build.obufCap.toNat < s.packer.olen.toNat + bs.length ∧
      emitAll bs s = .ended (s.raise .capacity 0)) ∨
    (bs = [] ∧ emitAll bs s = .going s) := by
  induction bs generalizing s with
  | nil => exact .inr (.inr ⟨rfl, rfl⟩)
  | cons b bs ih =>
    rcases emit_cases b s with ⟨hlt, he⟩ | ⟨hle, he⟩
    · have hs := olen_succ hlt
      rw [emitAll, he, Run.andThen_going]
      rcases ih { s with
          obuf := Table.set s.obuf s.packer.olen.toNat b, packer := { s.packer with olen := s.packer.olen + 1 } }
        with ⟨h1, h2⟩ | ⟨h0, h1, h2⟩ | ⟨h1, h2⟩
      · refine .inl ⟨by simp only [hs] at h1; simp only [List.length_cons]; omega, ?_⟩
        rw [h2]
        simp only [hs, Memory.store, List.length_cons, Run.going.injEq, State.mk.injEq, Packer.mk.injEq, true_and,
          and_true]
        rw [BitVec.add_assoc]
        congr 1
        apply BitVec.eq_of_toNat_eq
        simp [BitVec.toNat_add, Nat.add_comm]
      · refine .inr (.inl ⟨by simp, by simp only [hs] at h1; simp only [List.length_cons]; omega, ?_⟩)
        rw [h2]
        rfl
      · subst h1
        refine .inl ⟨by simp; omega, ?_⟩
        rw [h2]
        rfl
    · refine .inr (.inl ⟨by simp, by simp only [List.length_cons]; omega, ?_⟩)
      rw [emitAll, he, Run.andThen_ended]

/-- `putbit` sets the next bit; the eighth completes a byte and emits it. -/
theorem putBit_cases (b : Bool) (s : State) :
    (s.packer.bpcnt ≠ 7 ∧
      putBit b s = .going { s with
        packer := { s.packer with bpacc := s.packer.accWith b, bpcnt := s.packer.bpcnt + 1 } }) ∨
    (s.packer.bpcnt = 7 ∧ s.packer.olen.toNat < s.build.obufCap.toNat ∧
      putBit b s = .going { s with
        obuf := Table.set s.obuf s.packer.olen.toNat (s.packer.accWith b)
        packer := ⟨s.packer.olen + 1, 0, 0⟩ }) ∨
    (s.packer.bpcnt = 7 ∧ s.build.obufCap.toNat ≤ s.packer.olen.toNat ∧
      putBit b s = .ended { s with
        latch := Latch.latched .capacity 0
        packer := ⟨0, s.packer.accWith b, Config.freePackerCount s.obufEpoch⟩
        obuf := [] }) := by
  unfold putBit
  split
  · rename_i h7
    rcases emit_cases (s.packer.accWith b) s with ⟨hlt, he⟩ | ⟨hle, he⟩
    · exact .inr (.inl ⟨h7, hlt, by rw [he]⟩)
    · exact .inr (.inr ⟨h7, hle, by rw [he]; rfl⟩)
  · exact .inl ⟨‹_›, rfl⟩

/-- What `Capacity(0)` raised in the packer leaves. -/
def State.packerFull (s : State) (p : Packer) : State :=
  { s with latch := Latch.latched .capacity 0, packer := { p with olen := 0 }, obuf := [] }

/-- `putBits` changes the packer and `OBUF` only, or ends with `Capacity(0)`. -/
theorem putBits_cases (bs : List Bool) (s : State) :
    (∃ p o, putBits bs s = .going { s with packer := p, obuf := o }) ∨
    (∃ p, putBits bs s = .ended (s.packerFull p)) := by
  induction bs generalizing s with
  | nil => exact .inl ⟨s.packer, s.obuf, rfl⟩
  | cons b bs ih =>
    rw [putBits]
    rcases putBit_cases b s with ⟨-, h⟩ | ⟨-, -, h⟩ | ⟨-, -, h⟩
    · rw [h, Run.andThen_going]; exact ih _
    · rw [h, Run.andThen_going]; exact ih _
    · rw [h, Run.andThen_ended]
      exact .inr ⟨⟨0, s.packer.accWith b, Config.freePackerCount s.obufEpoch⟩, rfl⟩

/-- `flush` does nothing on a byte boundary, else emits the partial byte or raises `Capacity(0)`. -/
theorem flush_cases (s : State) :
    (s.packer.bpcnt = 0 ∧ flush s = .going s) ∨
    (s.packer.bpcnt ≠ 0 ∧ s.packer.olen.toNat < s.build.obufCap.toNat ∧
      flush s = .going { s with
        obuf := Table.set s.obuf s.packer.olen.toNat s.packer.bpacc, packer := ⟨s.packer.olen + 1, 0, 0⟩ }) ∨
    (s.packer.bpcnt ≠ 0 ∧ s.build.obufCap.toNat ≤ s.packer.olen.toNat ∧
      flush s = .ended (s.raise .capacity 0)) := by
  unfold flush
  split
  · exact .inl ⟨‹_›, rfl⟩
  · rename_i h
    rcases emit_cases s.packer.bpacc s with ⟨hlt, he⟩ | ⟨hle, he⟩
    · exact .inr (.inl ⟨h, hlt, by rw [he, Run.andThen_going]⟩)
    · exact .inr (.inr ⟨h, hle, by rw [he, Run.andThen_ended]⟩)

/-- `getbit` delivers the bit at the cursor and moves the cursor, or reports the end and changes nothing. -/
theorem getBit_cases (s : State) :
    (s.inputEnd ≤ s.unpacker.ipos.toNat ∧ getBit s = (none, s)) ∨
    (s.unpacker.ipos.toNat < s.inputEnd ∧
      getBit s = (some ((s.readIbuf s.unpacker.ipos.toNat).getLsbD (7 - s.unpacker.ibit.toNat)),
        { s with unpacker := s.unpacker.next })) := by
  unfold getBit
  split
  · exact .inl ⟨‹_›, rfl⟩
  · exact .inr ⟨by omega, rfl⟩

/-- `getBits` changes the unpacker only. -/
theorem getBits_frame (n v : Nat) (s : State) : ∃ u, (getBits n v s).2 = { s with unpacker := u } := by
  induction n generalizing v s with
  | zero => exact ⟨s.unpacker, rfl⟩
  | succ n ih =>
    unfold getBits
    rcases getBit_cases s with ⟨-, h⟩ | ⟨-, h⟩
    · rw [h]; exact ⟨s.unpacker, rfl⟩
    · rw [h]; exact ih _ _

/-- The literal of `decode_symbol` changes the unpacker only. -/
theorem decodeLiteral_frame (s : State) : ∃ u, (decodeLiteral s).2 = { s with unpacker := u } := by
  obtain ⟨u, hu⟩ := getBits_frame 8 0 s
  unfold decodeLiteral
  split <;> rename_i h <;> rw [h] at hu <;> exact ⟨u, hu⟩

/-- The walk of `decode_symbol` changes the unpacker only. -/
theorem decodeFrom_frame (k n : Nat) (s : State) : ∃ u, (decodeFrom k n s).2 = { s with unpacker := u } := by
  induction k generalizing n s with
  | zero => exact ⟨s.unpacker, rfl⟩
  | succ k ih =>
    unfold decodeFrom
    split
    · rcases getBit_cases s with ⟨-, h⟩ | ⟨-, h⟩
      · rw [h]; exact ⟨s.unpacker, rfl⟩
      · rw [h]; exact ih _ _
    · exact ⟨s.unpacker, rfl⟩
    · exact decodeLiteral_frame s
    · exact decodeLiteral_frame s

/-- `decode_symbol` changes the unpacker only. -/
theorem decodeSymbol_frame (s : State) : ∃ u, (decodeSymbol s).2 = { s with unpacker := u } :=
  decodeFrom_frame _ _ s

/-- `update` changes the tree only, or raises `Capacity(2)` before it has changed anything. -/
theorem updateTree_cases (sym : Byte) (s : State) :
    (∃ t, s.tree.update sym = some t ∧ updateTree sym s = .going { s with tree := t }) ∨
    (s.tree.freq rootNum = some freqMax ∧ updateTree sym s = .ended (s.raise .capacity 2)) := by
  unfold updateTree
  split
  · rename_i h
    refine .inr ⟨?_, rfl⟩
    unfold Tree.update at h
    split at h
    · assumption
    · cases h
  · rename_i t h
    exact .inl ⟨t, h, rfl⟩

/-- The common opening of the commands that read `IBUF` by index. -/
theorem withInput_cases (s : State) (f : State → Run) :
    (s.build.ibufCap.toNat < s.operands.ilen.toNat ∧ withInput s f = .ended (s.raise .capacity 1)) ∨
    (s.operands.ilen.toNat ≤ s.build.ibufCap.toNat ∧ withInput s f = f s.restartOutput) := by
  unfold withInput State.inputTooLong
  by_cases h : s.build.ibufCap.toNat < s.operands.ilen.toNat
  · exact .inl ⟨h, by simp [h]⟩
  · exact .inr ⟨by omega, by simp [h]⟩

/-- Scattered writes change `OBUF` only. -/
theorem writeAt_frame (xs : List (Nat × Byte)) (s : State) : ∃ o, writeAt xs s = { s with obuf := o } := by
  induction xs generalizing s with
  | nil => exact ⟨s.obuf, rfl⟩
  | cons x xs ih => obtain ⟨o, ho⟩ := ih (s.writeObuf x.1 x.2); exact ⟨o, ho⟩

/-- An index that no scattered write names keeps its byte. -/
theorem get_writeAt_other (xs : List (Nat × Byte)) (s : State) (a : Nat) (h : a ∉ xs.map Prod.fst) :
    Table.get (writeAt xs s).obuf a = Table.get s.obuf a := by
  induction xs generalizing s with
  | nil => rfl
  | cons x xs ih =>
    simp only [List.map_cons, List.mem_cons, not_or] at h
    rw [writeAt, ih _ h.2]
    exact Table.get_set_other _ _ h.1

/-- A decoded block has exactly the bytes it needs, and the input index does not go back. -/
theorem rleBlockLoop_ok {s : State} {left pos need pos' : Nat} {st : RunState} {d : List Byte}
    (h : rleBlockLoop s left pos need st = .ok (d, pos')) : d.length = need ∧ pos ≤ pos' ∧ pos' ≤ pos + left := by
  induction left generalizing pos need st d pos' with
  | zero =>
    unfold rleBlockLoop at h
    split at h
    · cases h; exact ⟨by simp [*], le_refl _, by omega⟩
    · cases h
  | succ left ih =>
    unfold rleBlockLoop at h
    split at h
    · cases h; exact ⟨by simp [*], le_refl _, by omega⟩
    · dsimp only at h
      split at h
      · cases h
      · split at h
        · cases h
        · rename_i hok
          obtain ⟨h1, h2, h3⟩ := ih hok
          cases h
          refine ⟨?_, by omega, by omega⟩
          rw [List.length_append, h1]
          omega

/-- The block loop of `ABR.DEC` changes `OBUF` only, or ends with one of its three faults. -/
theorem abrBlocks_cases (h : Header) (m k pos : Nat) (s : State) :
    (∃ o, abrBlocks h m k pos s = .going { s with obuf := o }) ∨
    (∃ kind info, abrBlocks h m k pos s = .ended (s.raise kind info) ∧
      (kind = .truncatedBlockData ∨ kind = .runOverrun ∨ kind = .trailingData)) := by
  induction m generalizing k pos s with
  | zero =>
    unfold abrBlocks
    split
    · exact .inr ⟨_, _, rfl, by simp⟩
    · exact .inl ⟨s.obuf, rfl⟩
  | succ m ih =>
    unfold abrBlocks
    split
    · rename_i e _
      cases e
      · exact .inr ⟨_, _, rfl, by simp⟩
      · exact .inr ⟨_, _, rfl, by simp⟩
    · rename_i d pos' _
      obtain ⟨o, ho⟩ := writeAt_frame
        (((tileOf h.W h.H h.bs k).indices h.W (dirOf s k)).zip d) s
      rw [scatter, ho]
      exact (ih (k + 1) pos' { s with obuf := o }).imp (fun ⟨o', h'⟩ => ⟨o', h'⟩) (fun h' => h')

/-- No command stops the machine. -/
theorem exec_answers_next (i : Instr) (s : State) : ∃ t, exec i s = .next t := by
  cases i
  case buGet n =>
    show ∃ t, execBuGet n s = .next t
    unfold execBuGet
    split <;> exact ⟨_, rfl⟩
  all_goals exact ⟨_, rfl⟩

end Sys2Proof.Machine
end

