-- ==== Sys2Proof/Laws/PerInstr.lean ====
section
/-! SUPPORT. A family of statements about every command as syntax: its encoding lies in its own row of the opcode
map (30_encoding.md R92). -/

namespace Sys2Proof.Laws.OwnRow

/-- The encoding of a well-formed command matches its row's `match` under its row's `mask`, and holds its operands. -/
def Statement (i : Instr) : Prop :=
  i.wellFormed = true → encode i &&& i.rowMask = i.rowMatch ∧ i.operandsIn (encode i) = true

theorem nop : Statement .nop := fun _ => by decide
theorem srst : Statement .srst := fun _ => by decide
theorem htInit : Statement .htInit := fun _ => by decide
theorem htEnc (sym : Byte) : Statement (.htEnc sym) := by
  have : ∀ sym : Byte, wordS 0x11 sym &&& 0xFFFFFF00 = 0x11000000 ∧ sym = lowField (wordS 0x11 sym) := by decide
  exact fun _ => ⟨(this sym).1, decide_eq_true (this sym).2⟩
theorem htUpd (sym : Byte) : Statement (.htUpd sym) := by
  have : ∀ sym : Byte, wordS 0x12 sym &&& 0xFFFFFF00 = 0x12000000 ∧ sym = lowField (wordS 0x12 sym) := by decide
  exact fun _ => ⟨(this sym).1, decide_eq_true (this sym).2⟩
theorem htDec : Statement .htDec := fun _ => by decide
theorem htEncbuf : Statement .htEncbuf := fun _ => by decide
theorem htDecbuf : Statement .htDecbuf := fun _ => by decide
theorem bpInit : Statement .bpInit := fun _ => by decide
theorem bpPut (n : BitVec 4) (val : Byte) : Statement (.bpPut n val) := by
  intro _
  have key : wordB 0x21 n val &&& 0xFFFFF000 = 0x21000000 := by
    unfold wordB
    ext i hi
    simp only [BitVec.getElem_and, BitVec.getElem_append]
    have : i < 32 := hi
    interval_cases i <;> simp
  have low : val = lowField (wordB 0x21 n val) := by
    unfold wordB lowField
    ext i hi
    simp only [BitVec.getElem_extractLsb', BitVec.getLsbD_append]
    interval_cases i <;> simp
  have count : n = countField (wordB 0x21 n val) := by
    unfold wordB countField
    ext i hi
    simp only [BitVec.getElem_extractLsb', BitVec.getLsbD_append]
    have : i < 4 := hi
    interval_cases i <;> simp
  exact ⟨key, decide_eq_true ⟨count, low⟩⟩
theorem bpFlush : Statement .bpFlush := fun _ => by decide
theorem buInit : Statement .buInit := fun _ => by decide
theorem buGet (n : BitVec 4) : Statement (.buGet n) := by
  have : ∀ n : BitVec 4, wordB 0x25 n 0 &&& 0xFFFFF0FF = 0x25000000 ∧ n = countField (wordB 0x25 n 0) := by decide
  exact fun _ => ⟨(this n).1, decide_eq_true (this n).2⟩
theorem rleEnc : Statement .rleEnc := fun _ => by decide
theorem rleDec : Statement .rleDec := fun _ => by decide
theorem abrEnc1 : Statement .abrEnc1 := fun _ => by decide
theorem abrEnc : Statement .abrEnc := fun _ => by decide
theorem abrDec : Statement .abrDec := fun _ => by decide

end Sys2Proof.Laws.OwnRow
end

