-- ==== Sys2Proof/Laws/Safety.lean ====
section
/-! SUPPORT. The invariants as plain conjunctions of decidable facts, and what they say of the state an accepted command
starts from. -/

namespace Sys2Proof.Machine

/-- The tree invariant, each of its parts decidable. -/
theorem Tree.inv_iff (t : Tree) :
    t.Inv ↔ t.AllocOk ∧ (∀ x ∈ t.node, t.nytOk x.1 x.2 = true) ∧ Table.wf t.leafOf ∧
      (∀ x ∈ t.node, t.leafOk x.1 x.2 = true) ∧ (∀ x ∈ t.leafOf, t.symOk x.1 x.2) ∧
      (∀ x ∈ t.node, t.parentOk x.1 x.2 = true) ∧ (∀ x ∈ t.node, t.childrenOk x.1 x.2 = true) ∧
      (t.node.map fun x => x.2.freq).Pairwise (· ≤ ·) ∧
      (t.nytn = rootNum ∨ t.parent t.nytn = some (t.nytn + 2)) ∧ ∀ x ∈ t.node, x.2.freq ≤ freqMax :=
  ⟨fun ⟨a, b, c, d, e, f, g, h, i, j⟩ => ⟨a, b, c, d, e, f, g, h, i, j⟩,
    fun ⟨a, b, c, d, e, f, g, h, i, j⟩ => ⟨a, b, c, d, e, f, g, h, i, j⟩⟩

/-- The packer's part, each of its parts decidable. -/
theorem State.packerOk_iff (s : State) :
    s.PackerOk ↔ s.packer.Clean ∧ s.packer.olen.toNat ≤ s.build.obufCap.toNat ∧
      ∀ i, i < s.packer.olen.toNat → (Table.get s.obuf i).isSome = true :=
  ⟨fun ⟨a, b, c⟩ => ⟨a, b, c⟩, fun ⟨a, b, c⟩ => ⟨a, b, c⟩⟩

/-- The state invariant, each of its parts decidable. -/
theorem State.inv_iff (s : State) :
    s.Inv ↔ s.latch.busy = false ∧ s.latch.Ok ∧
      (s.latch.fault = true → s.packer.olen = 0 ∧ s.obuf = []) ∧ (s.latch.fault = false → s.packer.Clean) ∧
      s.packer.olen.toNat ≤ s.build.obufCap.toNat ∧
      (∀ i, i < s.packer.olen.toNat → (Table.get s.obuf i).isSome = true) ∧ Memory.wf s.ibuf ∧ Memory.wf s.obuf ∧
      (∀ x ∈ s.ibuf, x.1 < s.build.ibufCap.toNat) ∧ (∀ x ∈ s.obuf, x.1 < s.build.obufCap.toNat) ∧
      s.unpacker.bitIndex ≤ 8 * s.build.ibufCap.toNat ∧ (s.results.eos = true → s.results.val = 0) :=
  ⟨fun ⟨a, b, c, d, e, f, g, h, i, j, k, l⟩ => ⟨a, b, c, d, e, f, g, h, i, j, k, l⟩,
    fun ⟨a, b, c, d, e, f, g, h, i, j, k, l⟩ => ⟨a, b, c, d, e, f, g, h, i, j, k, l⟩⟩

/-- Between steps, with no fault latched, the packer is in order. -/
theorem State.Inv.packerOk {s : State} (h : s.Inv) (hf : s.latch.fault = false) : s.PackerOk :=
  ⟨h.clean hf, h.fits, h.written⟩

/-- So it is in the state an accepted command starts from, whose `BUSY` is 1 (44_system.md R245). -/
theorem State.Inv.packer_begin {s : State} (h : s.Inv) (hf : s.latch.fault = false) : s.begin.PackerOk :=
  ⟨h.clean hf, h.fits, h.written⟩

/-- The cursor's index of the reset and the rewound unpacker. -/
@[simp] theorem Unpacker.bitIndex_reset : Unpacker.reset.bitIndex = 0 := rfl

end Sys2Proof.Machine
end

