-- ==== Sys2Proof/Laws/Step.lean ====
section
/-! SUPPORT. Everything one step of the machine can do (44_system.md R242 to R246). -/

namespace Sys2Proof.Machine

/-- What an issued word can do: nothing in the faulted state, `IllegalCommand`, or its command. -/
theorem issue_cases {w : CmdWord} {s t : State} (h : issue w s = .next t) :
    (s.latch.fault = true ∧ w ≠ srstWord ∧ t = s) ∨
    ((s.latch.fault = true → w = srstWord) ∧ (∃ e, decode w = .error e) ∧
      t = s.begin.raise .illegalCommand (w.setWidth 64)) ∨
    ((s.latch.fault = true → w = srstWord) ∧
      ∃ i u, decode w = .ok i ∧ exec i s.begin = .next u ∧ t = u.finish) := by
  unfold issue at h
  split at h
  · next hf => cases h; exact .inl ⟨hf.1, hf.2, rfl⟩
  · next hf =>
    have hf' : s.latch.fault = true → w = srstWord := fun a => Classical.byContradiction fun b => hf ⟨a, b⟩
    split at h
    · next e he => cases h; exact .inr (.inl ⟨hf', ⟨e, he⟩, rfl⟩)
    · next i hi =>
      obtain ⟨u, hu⟩ := exec_answers_next i s.begin
      rw [hu] at h
      cases h
      exact .inr (.inr ⟨hf', i, u, hi, hu, rfl⟩)

/-- What a host move can leave, as a relation between the state with the move taken off and the next one. -/
inductive MoveResult (s : State) : State → Prop where
  | reset : MoveResult s s.hardwareReset
  | same : MoveResult s s
  | reply (v : Word) : MoveResult s (s.replyWith v)
  | register (r : Reg) (v : Word) : MoveResult s (s.writeReg r v)
  | input (i : Nat) (v : Byte) (h : i < s.build.ibufCap.toNat) : MoveResult s (s.writeIbuf i v)
  | illegal (w : CmdWord) (h : s.latch.fault = true → w = srstWord) (e : Illegal) (he : decode w = .error e) :
      MoveResult s (s.begin.raise .illegalCommand (w.setWidth 64))
  | command (w : CmdWord) (i : Instr) (u : State) (h : s.latch.fault = true → w = srstWord) (hi : decode w = .ok i)
      (hu : exec i s.begin = .next u) : MoveResult s u.finish

theorem issue_result {w : CmdWord} {s t : State} (h : issue w s = .next t) : MoveResult s t := by
  obtain ⟨-, -, rfl⟩ | ⟨hf, ⟨e, he⟩, rfl⟩ | ⟨hf, i, u, hi, hu, rfl⟩ := issue_cases h
  · exact .same
  · exact .illegal w hf e he
  · exact .command w i u hf hi hu

theorem writeRegMove_result {r : Reg} {v : Word} {s t : State} (h : writeRegMove r v s = .next t) :
    MoveResult s t := by
  unfold writeRegMove at h
  split at h
  · exact issue_result h
  · cases h; exact .register r v

theorem readIbufMove_result {i : Nat} {s t : State} (h : readIbufMove i s = .next t) : MoveResult s t := by
  unfold readIbufMove at h
  split at h <;> cases h
  exact .reply _

theorem readObufMove_result {i : Nat} {s t : State} (h : readObufMove i s = .next t) : MoveResult s t := by
  unfold readObufMove at h
  split at h <;> cases h
  exact .reply _

theorem writeIbufMove_result {i : Nat} {v : Byte} {s t : State} (h : writeIbufMove i v s = .next t) :
    MoveResult s t := by
  unfold writeIbufMove at h
  split at h
  · next hi => cases h; exact .input i v hi
  · cases h

theorem busMove_result {a : BusAccess} {s t : State} (h : busMove a s = .next t) : MoveResult s t := by
  unfold busMove at h
  split at h
  · split at h
    · cases h
    · cases h; exact .reply _
    · cases h; exact .reply _
    · exact readIbufMove_result h
    · exact readObufMove_result h
  · split at h
    · cases h
    · exact writeRegMove_result h
    · cases h; exact .same
    · exact writeIbufMove_result h
    · cases h

/-- Everything a host move can do. -/
theorem hostMove_result {m : HostMove} {s t : State} (h : hostMove m s = .next t) : MoveResult s t := by
  unfold hostMove at h
  split at h
  · cases h; exact .reset
  · split at h
    · cases h
    · unfold idleMove at h
      split at h
      · cases h; exact .reset
      · cases h; exact .reply _
      · exact writeRegMove_result h
      · exact readIbufMove_result h
      · exact writeIbufMove_result h
      · exact readObufMove_result h
      · cases h
      · exact busMove_result h

/-- Everything a step can do: a waiting block keeps its state, else the host's next move is taken off and does one of
the things above. -/
theorem step_cases {s t : State} (h : step s = .next t) :
    (s.host = [] ∧ t = s) ∨ (s.host ≠ [] ∧ MoveResult s.popMove t) := by
  unfold step at h
  split at h
  · next e => cases h; exact .inl ⟨e, rfl⟩
  · next m rest e => exact .inr ⟨by rw [e]; exact List.cons_ne_nil _ _, hostMove_result h⟩

end Sys2Proof.Machine
end

