-- ==== Sys2Proof/Laws/Tree.lean ====
section
/-! SUPPORT. What each operation on the tree does, entry by entry (40_aht.md Part A). -/

namespace Sys2Proof.Machine

/-! ### Reading one field -/

theorem Tree.body_eq (t : Tree) (n : Nat) : t.body n = (Table.get t.node n).map Entry.body := rfl

theorem Tree.freq_eq (t : Tree) (n : Nat) : t.freq n = (Table.get t.node n).map Entry.freq := rfl

theorem Tree.parent_eq (t : Tree) (n : Nat) : t.parent n = (Table.get t.node n).bind Entry.parent := rfl

/-! ### Increment -/

@[simp] theorem Tree.bump_nytn (t : Tree) (n : Nat) : (t.bump n).nytn = t.nytn := by
  unfold Tree.bump; split <;> rfl

@[simp] theorem Tree.bump_leafOf (t : Tree) (n : Nat) : (t.bump n).leafOf = t.leafOf := by
  unfold Tree.bump; split <;> rfl

/-- `bump` adds 1 to the frequency of one entry and leaves all else. -/
theorem Tree.bump_get (t : Tree) (n m : Nat) :
    Table.get (t.bump n).node m =
      if m = n then (Table.get t.node n).map fun e => { e with freq := e.freq + 1 } else Table.get t.node m := by
  unfold Tree.bump
  split
  · next h =>
    split
    · next e => rw [e, h]; rfl
    · rfl
  · next e h =>
    rw [Table.get_set, h]
    rfl

theorem Tree.bump_node_wf (t : Tree) (n : Nat) (h : Table.wf t.node) : Table.wf (t.bump n).node := by
  unfold Tree.bump
  split
  · exact h
  · exact Table.set_wf _ _ h

/-! ### Repair -/

@[simp] theorem Tree.setParent_nytn (t : Tree) (c n : Nat) : (t.setParent c n).nytn = t.nytn := by
  unfold Tree.setParent; split <;> rfl

@[simp] theorem Tree.setParent_leafOf (t : Tree) (c n : Nat) : (t.setParent c n).leafOf = t.leafOf := by
  unfold Tree.setParent; split <;> rfl

/-- `setParent` writes the parent of one allocated entry and leaves all else. -/
theorem Tree.setParent_get (t : Tree) (c n m : Nat) :
    Table.get (t.setParent c n).node m =
      if m = c then (Table.get t.node c).map fun e => { e with parent := some n } else Table.get t.node m := by
  unfold Tree.setParent
  split
  · next h =>
    split
    · next e => rw [e, h]; rfl
    · rfl
  · next e h =>
    rw [Table.get_set, h]
    rfl

theorem Tree.setParent_node_wf (t : Tree) (c n : Nat) (h : Table.wf t.node) : Table.wf (t.setParent c n).node := by
  unfold Tree.setParent
  split
  · exact h
  · exact Table.set_wf _ _ h

@[simp] theorem Tree.repair_nytn (t : Tree) (n : Nat) : (t.repair n).nytn = t.nytn := by
  unfold Tree.repair; split <;> simp

/-- `repair` at an inner entry tells its two children. -/
theorem Tree.repair_int {t : Tree} {n l r : Nat} (h : t.body n = some (.int l r)) :
    t.repair n = (t.setParent l n).setParent r n := by
  unfold Tree.repair; rw [h]

/-- `repair` at a leaf registers it. -/
theorem Tree.repair_leaf {t : Tree} {n : Nat} {s : Byte} (h : t.body n = some (.leaf s)) :
    t.repair n = { t with leafOf := Table.set t.leafOf s.toNat n } := by
  unfold Tree.repair; rw [h]

theorem Tree.repair_node_wf (t : Tree) (n : Nat) (h : Table.wf t.node) : Table.wf (t.repair n).node := by
  unfold Tree.repair
  split
  · exact Tree.setParent_node_wf _ _ _ (Tree.setParent_node_wf _ _ _ h)
  · exact h
  · exact h
  · exact h

theorem Tree.repair_leafOf_wf (t : Tree) (n : Nat) (h : Table.wf t.leafOf) : Table.wf (t.repair n).leafOf := by
  unfold Tree.repair
  split
  · simpa using h
  · exact Table.set_wf _ _ h
  · exact h
  · exact h

/-! ### Exchange and swap -/

@[simp] theorem Tree.exchange_nytn (t : Tree) (p q : Nat) : (t.exchange p q).nytn = t.nytn := by
  unfold Tree.exchange; split <;> rfl

@[simp] theorem Tree.exchange_leafOf (t : Tree) (p q : Nat) : (t.exchange p q).leafOf = t.leafOf := by
  unfold Tree.exchange; split <;> rfl

/-- `exchange` moves contents between two entries, and no other entry changes. -/
theorem Tree.exchange_get {t : Tree} {p q : Nat} {a b : Entry} (hp : Table.get t.node p = some a)
    (hq : Table.get t.node q = some b) (m : Nat) :
    Table.get (t.exchange p q).node m =
      if m = q then some ⟨b.parent, a.freq, a.body⟩
      else if m = p then some ⟨a.parent, b.freq, b.body⟩ else Table.get t.node m := by
  unfold Tree.exchange
  rw [hp, hq]
  simp only [Table.get_set]

@[simp] theorem Tree.swap_nytn (t : Tree) (p q : Nat) : (t.swap p q).nytn = t.nytn := by simp [Tree.swap]

theorem Tree.swap_node_wf (t : Tree) (p q : Nat) (h : Table.wf t.node) : Table.wf (t.swap p q).node := by
  refine Tree.repair_node_wf _ _ (Tree.repair_node_wf _ _ ?_)
  unfold Tree.exchange
  split
  · exact Table.set_wf _ _ (Table.set_wf _ _ h)
  · exact h

theorem Tree.swap_leafOf_wf (t : Tree) (p q : Nat) (h : Table.wf t.leafOf) : Table.wf (t.swap p q).leafOf :=
  Tree.repair_leafOf_wf _ _ (Tree.repair_leafOf_wf _ _ (by simpa using h))

/-! ### Leader scan -/

/-- What the scan gives lies in its range, has the frequency and is not the excluded number, and no higher number of
the range qualifies. -/
theorem Tree.leaderScan_some {t : Tree} {cur f : Nat} {p : Option Nat} {top m : Nat}
    (h : t.leaderScan cur f p top = some m) :
    cur < m ∧ m ≤ top ∧ some m ≠ p ∧ t.freq m = some f ∧
      ∀ k, m < k → k ≤ top → some k ≠ p → t.freq k ≠ some f := by
  induction top with
  | zero => simp [Tree.leaderScan] at h
  | succ n ih =>
    unfold Tree.leaderScan at h
    split at h
    · cases h
    · next hc =>
      split at h
      · next hq =>
        cases h
        exact ⟨by omega, le_refl _, hq.1, hq.2, fun k _ _ => by omega⟩
      · next hq =>
        obtain ⟨h1, h2, h3, h4, h5⟩ := ih h
        refine ⟨h1, by omega, h3, h4, fun k hk hn hp hf => ?_⟩
        rcases Nat.lt_or_ge n k with hk' | hk'
        · obtain rfl : k = n + 1 := by omega
          exact hq ⟨hp, hf⟩
        · exact h5 k hk hk' hp hf

/-- Where the scan gives none, no number of the range qualifies. -/
theorem Tree.leaderScan_none {t : Tree} {cur f : Nat} {p : Option Nat} {top : Nat}
    (h : t.leaderScan cur f p top = none) (k : Nat) (hc : cur < k) (hk : k ≤ top) (hp : some k ≠ p) :
    t.freq k ≠ some f := by
  induction top with
  | zero => omega
  | succ n ih =>
    unfold Tree.leaderScan at h
    split at h
    · omega
    · split at h
      · cases h
      · next hq =>
        rcases Nat.lt_or_ge n k with hk' | hk'
        · obtain rfl : k = n + 1 := by omega
          exact fun hf => hq ⟨hp, hf⟩
        · exact ih h hk'

/-! ### Walk and update -/

@[simp] theorem Tree.visit_nytn (t : Tree) (cur : Nat) : (t.visit cur).1.nytn = t.nytn := by
  unfold Tree.visit; split <;> simp

/-- A visit increments in place, or at the leader after a swap with it. -/
theorem Tree.visit_cases (t : Tree) (cur : Nat) :
    (∃ l, t.leader cur = some l ∧ t.visit cur = ((t.swap cur l).bump l, l)) ∨
      (t.leader cur = none ∧ t.visit cur = (t.bump cur, cur)) := by
  unfold Tree.visit
  cases h : t.leader cur with
  | none => exact .inr ⟨rfl, rfl⟩
  | some l => exact .inl ⟨l, rfl, rfl⟩

@[simp] theorem Tree.walk_nytn (k cur : Nat) (t : Tree) : (Tree.walk k cur t).nytn = t.nytn := by
  induction k generalizing cur t with
  | zero => rfl
  | succ k ih =>
    unfold Tree.walk
    split
    · rfl
    · split
      · simp
      · rw [ih]; simp

@[simp] theorem Tree.promote_nytn (t : Tree) (s : Byte) : (t.promote s).nytn = t.nytn := by
  unfold Tree.promote; split <;> simp

/-- A property of trees that every visit keeps is kept by the walk. -/
theorem Tree.walk_keeps {P : Tree → Prop} (hv : ∀ t cur, P t → P (t.visit cur).1) (k cur : Nat) (t : Tree)
    (h : P t) : P (Tree.walk k cur t) := by
  induction k generalizing cur t with
  | zero => exact h
  | succ k ih =>
    unfold Tree.walk
    split
    · exact h
    · split
      · exact hv _ _ h
      · exact ih _ _ (hv _ _ h)

/-- `update` fails exactly where the root's counter is full. -/
theorem Tree.update_eq_none (t : Tree) (s : Byte) : t.update s = none ↔ t.freq rootNum = some freqMax := by
  unfold Tree.update; split <;> simp_all

/-- Where it does not fail, `update` is the split of an unseen symbol and the walk. -/
theorem Tree.update_eq_some {t u : Tree} {s : Byte} (h : t.update s = some u) : u = (t.withLeaf s).promote s := by
  unfold Tree.update at h; split at h <;> simp_all

end Sys2Proof.Machine
end

