-- ==== Sys2Proof/Machine/Directives.lean ====
section
/-! DEFINITION. The host's side of a program: pseudo-commands and host directives (30_encoding.md R98, R99), as the
moves the host makes. -/

namespace Sys2Proof.Machine

/-- `HT.ENCU s` expands to `HT.ENC s` then `HT.UPD s` (30_encoding.md R98). -/
def pseudoEncU (s : Byte) : List Instr := [.htEnc s, .htUpd s]

/-- `BP.PUTB b` expands to `BP.PUT 8, b` (30_encoding.md R98). -/
def pseudoPutB (b : Byte) : List Instr := [.bpPut 8 b]

/-- One line of a program listing: a command or a host directive (30_encoding.md R99). -/
inductive Directive where
  | command (i : Instr)
  | wr (r : Reg) (v : Word)
  | rd (r : Reg)
  | loadI (bytes : List Byte)
  | moveO2I
  | updr
  deriving DecidableEq, Repr

/-- `LOAD.I b0 b1 ...`: writes the bytes to `IBUF[0..)` and their count to `ILEN` (30_encoding.md R99). -/
def loadMoves (bytes : List Byte) : List HostMove :=
  (bytes.zipIdx.map fun x => HostMove.ibufWrite x.2 x.1) ++ [.regWrite .ilen (BitVec.ofNat 64 bytes.length)]

/-- The moves a line stands for, where the state before them is `s`: `MOVE.O2I` copies what it reads of
`OBUF[0 .. OLEN)`, and `UPDR` builds the word `0x12000000 | RESULT[7:0]` (30_encoding.md R98, R99). -/
def Directive.moves (d : Directive) (s : State) : List HostMove :=
  match d with
  | .command i => [.issue (encode i)]
  | .wr r v => [.regWrite r v]
  | .rd r => [.regRead r]
  | .loadI bytes => loadMoves bytes
  | .moveO2I =>
    [.regRead .olen] ++ (List.range s.packer.olen.toNat).map .obufRead ++ loadMoves s.output
  | .updr => [.regRead .result, .issue (0x12000000 ||| s.results.val.setWidth 32)]

/-- Run the steps of the given moves, one after the other. -/
def runMoves : List HostMove → State → Host.Outcome State Fault Refusal
  | [], s => .next s
  | m :: ms, s =>
    match step { s with host := m :: s.host } with
    | .next t => runMoves ms t
    | .fault r => .fault r
    | .refused r => .refused r

/-- Run a program listing line by line (30_encoding.md R99). -/
def runProgram : List Directive → State → Host.Outcome State Fault Refusal
  | [], s => .next s
  | d :: ds, s =>
    match runMoves (d.moves s) s with
    | .next t => runProgram ds t
    | .fault r => .fault r
    | .refused r => .refused r

end Sys2Proof.Machine
end

