-- ==== Sys2Proof/Machine/Assembler.lean ====
section
/-! DEFINITION. The assembler syntax of command lines (30_encoding.md R97) and the pseudo-commands (R98). -/

namespace Sys2Proof.Machine

/-- A token of a line. -/
inductive Token where
  | word (cs : List Char)
  | quoted (c : Char)
  | comma
  deriving DecidableEq, Repr

/-- End the word collected (in reverse) so far. -/
def closeWord (acc : List Char) (rest : List Token) : List Token :=
  match acc with
  | [] => rest
  | c :: cs => .word (c :: cs).reverse :: rest

/-- The tokens of a line; a comment runs from `;` to its end (30_encoding.md R97). -/
def tokens : List Char → List Char → List Token
  | acc, [] => closeWord acc []
  | acc, '\'' :: c :: '\'' :: rest => closeWord acc (.quoted c :: tokens [] rest)
  | acc, c :: rest =>
    if c = ';' then closeWord acc []
    else if c = ',' then closeWord acc (.comma :: tokens [] rest)
    else if c = ' ' ∨ c = '\t' then closeWord acc (tokens [] rest)
    else tokens (c :: acc) rest

/-- The value of a digit. -/
def digitValue (c : Char) : Option Nat :=
  if '0'.toNat ≤ c.toNat ∧ c.toNat ≤ '9'.toNat then some (c.toNat - '0'.toNat)
  else if 'a'.toNat ≤ c.toNat ∧ c.toNat ≤ 'f'.toNat then some (c.toNat - 'a'.toNat + 10)
  else if 'A'.toNat ≤ c.toNat ∧ c.toNat ≤ 'F'.toNat then some (c.toNat - 'A'.toNat + 10)
  else none

/-- Digits of a base, most significant first, onto a value. -/
def digitsValue (base : Nat) : Nat → List Char → Option Nat
  | v, [] => some v
  | v, c :: cs =>
    match digitValue c with
    | some d => if d < base then digitsValue base (base * v + d) cs else none
    | none => none

/-- A number: decimal, `0x` hexadecimal or `0b` binary (30_encoding.md R97, 00_scope.md R7). -/
def numberValue : List Char → Option Nat
  | [] => none
  | '0' :: 'x' :: c :: cs => digitsValue 16 0 (c :: cs)
  | '0' :: 'b' :: c :: cs => digitsValue 2 0 (c :: cs)
  | c :: cs => digitsValue 10 0 (c :: cs)

/-- A byte operand: a number below 256 (30_encoding.md R97: only `sym` may be a quoted character). -/
def byteOperand : List Token → Option Byte
  | [.word cs] =>
    match numberValue cs with
    | some v => if v < 256 then some (BitVec.ofNat 8 v) else none
    | none => none
  | _ => none

/-- A symbol operand: a number below 256 or a quoted ASCII character (30_encoding.md R97). -/
def symOperand : List Token → Option Byte
  | [.quoted c] => if c.toNat < 128 then some (BitVec.ofNat 8 c.toNat) else none
  | ops => byteOperand ops

/-- A count operand, 1 to 8 (30_encoding.md R91). -/
def countOperand (cs : List Char) : Option (BitVec 4) :=
  match numberValue cs with
  | some v => if 1 ≤ v ∧ v ≤ 8 then some (BitVec.ofNat 4 v) else none
  | none => none

/-- The operand of `BU.GET`. -/
def getOperand : List Token → Option Instr
  | [.word cs] => (countOperand cs).map .buGet
  | _ => none

/-- The operands of `BP.PUT`, `val` below 2^n (30_encoding.md R91). -/
def putOperands : List Token → Option Instr
  | [.word cs, .comma, .word ds] =>
    match countOperand cs, numberValue ds with
    | some n, some v => if v < 2 ^ n.toNat then some (.bpPut n (BitVec.ofNat 8 v)) else none
    | _, _ => none
  | _ => none

/-- A mnemonic without operands. -/
def noOperand (i : Instr) (ops : List Token) : Option (List Instr) := if ops = [] then some [i] else none

/-- The commands of a line: none for a blank line, two for `HT.ENCU` (30_encoding.md R97, R98). -/
def assembleTokens : List Token → Option (List Instr)
  | [] => some []
  | .word cs :: ops =>
    if cs = ['N', 'O', 'P'] then noOperand .nop ops
    else if cs = ['S', 'R', 'S', 'T'] then noOperand .srst ops
    else if cs = ['H', 'T', '.', 'I', 'N', 'I', 'T'] then noOperand .htInit ops
    else if cs = ['H', 'T', '.', 'E', 'N', 'C'] then (symOperand ops).map fun s => [.htEnc s]
    else if cs = ['H', 'T', '.', 'U', 'P', 'D'] then (symOperand ops).map fun s => [.htUpd s]
    else if cs = ['H', 'T', '.', 'D', 'E', 'C'] then noOperand .htDec ops
    else if cs = ['H', 'T', '.', 'E', 'N', 'C', 'B', 'U', 'F'] then noOperand .htEncbuf ops
    else if cs = ['H', 'T', '.', 'D', 'E', 'C', 'B', 'U', 'F'] then noOperand .htDecbuf ops
    else if cs = ['B', 'P', '.', 'I', 'N', 'I', 'T'] then noOperand .bpInit ops
    else if cs = ['B', 'P', '.', 'P', 'U', 'T'] then (putOperands ops).map fun i => [i]
    else if cs = ['B', 'P', '.', 'F', 'L', 'U', 'S', 'H'] then noOperand .bpFlush ops
    else if cs = ['B', 'U', '.', 'I', 'N', 'I', 'T'] then noOperand .buInit ops
    else if cs = ['B', 'U', '.', 'G', 'E', 'T'] then (getOperand ops).map fun i => [i]
    else if cs = ['R', 'L', 'E', '.', 'E', 'N', 'C'] then noOperand .rleEnc ops
    else if cs = ['R', 'L', 'E', '.', 'D', 'E', 'C'] then noOperand .rleDec ops
    else if cs = ['A', 'B', 'R', '.', 'E', 'N', 'C', '1'] then noOperand .abrEnc1 ops
    else if cs = ['A', 'B', 'R', '.', 'E', 'N', 'C'] then noOperand .abrEnc ops
    else if cs = ['A', 'B', 'R', '.', 'D', 'E', 'C'] then noOperand .abrDec ops
    else if cs = ['H', 'T', '.', 'E', 'N', 'C', 'U'] then (symOperand ops).map pseudoEncU
    else if cs = ['B', 'P', '.', 'P', 'U', 'T', 'B'] then (byteOperand ops).map pseudoPutB
    else none
  | _ => none

/-- One line of assembler text to command words (30_encoding.md R97). -/
def assembleLine (line : List Char) : Option (List CmdWord) :=
  (assembleTokens (tokens [] line)).map fun is => is.map encode

end Sys2Proof.Machine
end

