-- ==== Sys2Proof/Tests/Slice0.lean ====
section
/-! SUPPORT. Tests of the model against the spec's vectors (95_test_vectors.md) and encodings (30_encoding.md), and for
every statement with hypotheses a state and operands that meet them. -/

namespace Sys2Proof.Tests

/-! The theorems below are checked one after the other: each is small, and checked together they take more threads than
the check's memory limit has room for. -/
set_option Elab.async false

open Sys2Proof Sys2Proof.Machine

/-! ### Well-formedness -/

/-- R91: `n` = 0 is refused. -/
theorem test_wf_put_zero_count : (Instr.bpPut 0 0).wellFormed = false := by decide

/-- R91: `n` = 9 is refused. -/
theorem test_wf_put_count_nine : (Instr.bpPut 9 4).wellFormed = false := by decide

/-- R91, V-SYS-1: `val` = 8 is not below 2^3. -/
theorem test_wf_put_big_value : (Instr.bpPut 3 8).wellFormed = false := by decide

/-- R91: `n` = 0 and `n` = 9 are refused. -/
theorem test_wf_get_bad_count : (Instr.buGet 0).wellFormed = false ∧ (Instr.buGet 9).wellFormed = false := by decide

/-- V-SYS-1, the legal neighbours. -/
theorem test_wf_legal : (Instr.bpPut 3 7).wellFormed = true ∧ (Instr.bpPut 8 0xFF).wellFormed = true ∧
    (Instr.buGet 1).wellFormed = true ∧ (Instr.buGet 8).wellFormed = true := by decide

/-! ### Decoding, words from the opcode map of R92 -/

theorem test_decode_nop : decode 0x00000000 = .ok .nop := rfl
theorem test_decode_srst : decode 0x01000000 = .ok .srst := rfl
theorem test_decode_htInit : decode 0x10000000 = .ok .htInit := rfl
theorem test_decode_htEnc : decode 0x110000FF = .ok (.htEnc 0xFF) := rfl
theorem test_decode_htUpd : decode 0x12000061 = .ok (.htUpd 0x61) := rfl
theorem test_decode_htDec : decode 0x13000000 = .ok .htDec := rfl
theorem test_decode_htEncbuf : decode 0x18000000 = .ok .htEncbuf := rfl
theorem test_decode_htDecbuf : decode 0x19000000 = .ok .htDecbuf := rfl
theorem test_decode_bpInit : decode 0x20000000 = .ok .bpInit := rfl
theorem test_decode_bpPut : decode 0x21000307 = .ok (.bpPut 3 7) := rfl
theorem test_decode_bpFlush : decode 0x22000000 = .ok .bpFlush := rfl
theorem test_decode_buInit : decode 0x24000000 = .ok .buInit := rfl
theorem test_decode_buGet : decode 0x25000100 = .ok (.buGet 1) := rfl
theorem test_decode_rleEnc : decode 0x30000000 = .ok .rleEnc := rfl
theorem test_decode_rleDec : decode 0x31000000 = .ok .rleDec := rfl
theorem test_decode_abrEnc1 : decode 0x40000000 = .ok .abrEnc1 := rfl
theorem test_decode_abrEnc : decode 0x41000000 = .ok .abrEnc := rfl
theorem test_decode_abrDec : decode 0x42000000 = .ok .abrDec := rfl

/-- V-SYS-1, its illegal words. -/
theorem test_decode_illegal : decode 0x02000000 = .error .unknownOpcode ∧ decode 0x10000001 = .error .zeroFieldSet ∧
    decode 0x11000161 = .error .zeroFieldSet ∧ decode 0x21000000 = .error .badCount ∧
    decode 0x21000904 = .error .badCount ∧ decode 0x21000308 = .error .badValue ∧
    decode 0x25000000 = .error .badCount ∧ decode 0x25000801 = .error .zeroFieldSet ∧
    decode 0x42000001 = .error .zeroFieldSet ∧ decode 0xFFFFFFFF = .error .unknownOpcode :=
  ⟨rfl, rfl, rfl, rfl, rfl, rfl, rfl, rfl, rfl, rfl⟩

/-- R97: an assembler line with a character operand and a comment. -/
theorem test_assemble : assembleLine ['H', 'T', '.', 'E', 'N', 'C', ' ', '\'', 'a', '\'', ' ', ';', 'x'] =
    some [0x11000061] := by decide +kernel

/-! ### Small states -/

/-- The state a command leaves. -/
def after (i : Instr) (s : State) : State :=
  match exec i s with
  | .next t => t
  | .fault _ => s
  | .refused _ => s

/-- The block with `x` in `IBUF`, of a build with small buffers. -/
def small (x : List Byte) (obufCap symcnt : Word := 1) : State :=
  loadedBlock { bsMin := 1, bsMaxDoublings := 1, ibufCap := 64, obufCap := obufCap } x 0 symcnt

/-- A state with a matrix in `IBUF`. -/
def matrix (x : List Byte) (width bsize : Word) (obufCap : Word := 64) : State :=
  { small x obufCap with operands := ⟨BitVec.ofNat 64 x.length, width, bsize, 0⟩ }

/-- A block of one-byte buffers with `bpacc` and `bpcnt` pending. -/
def pending (bpacc : Byte) (bpcnt : BitVec 3) : State := { small [] with packer := ⟨0, bpacc, bpcnt⟩ }

/-- The faulted block of V-SYS-3, with the host's next move. -/
def faulted (m : HostMove) : State :=
  { small [] with latch := ⟨false, true, 8, 0x02000000⟩, host := [m] }

/-- The tree of V-HT-1, its root and leaf having counted `f` symbols. -/
def treeA (f : Nat) : Tree :=
  ⟨[(510, ⟨some 512, 0, .nyt⟩), (511, ⟨some 512, f, .leaf 0x61⟩), (512, ⟨none, f, .int 510 511⟩)], 510, [(0x61, 511)]⟩

/-- The tree of V-HT-5 after `a b`. -/
def treeAB : Tree :=
  ⟨[(508, ⟨some 510, 0, .nyt⟩), (509, ⟨some 510, 1, .leaf 0x62⟩), (510, ⟨some 512, 1, .int 508 509⟩),
    (511, ⟨some 512, 1, .leaf 0x61⟩), (512, ⟨none, 2, .int 510 511⟩)], 508, [(0x61, 511), (0x62, 509)]⟩

/-- The tree of V-HT-5 after `a b c`. -/
def treeABC : Tree :=
  ⟨[(506, ⟨some 508, 0, .nyt⟩), (507, ⟨some 508, 1, .leaf 0x63⟩), (508, ⟨some 511, 1, .int 506 507⟩),
    (509, ⟨some 511, 1, .leaf 0x62⟩), (510, ⟨some 512, 1, .leaf 0x61⟩), (511, ⟨some 512, 2, .int 508 509⟩),
    (512, ⟨none, 3, .int 510 511⟩)], 506, [(0x61, 510), (0x62, 509), (0x63, 507)]⟩

/-- The tree of V-HT-4 after `a a r d`. -/
def treeAARD : Tree :=
  ⟨[(506, ⟨some 508, 0, .nyt⟩), (507, ⟨some 508, 1, .leaf 0x64⟩), (508, ⟨some 510, 1, .int 506 507⟩),
    (509, ⟨some 510, 1, .leaf 0x72⟩), (510, ⟨some 512, 2, .int 508 509⟩), (511, ⟨some 512, 2, .leaf 0x61⟩),
    (512, ⟨none, 4, .int 510 511⟩)], 506, [(0x61, 511), (0x64, 507), (0x72, 509)]⟩

/-- The tree of V-HT-4 after `a a r d v`. -/
def treeAARDV : Tree :=
  ⟨[(504, ⟨some 506, 0, .nyt⟩), (505, ⟨some 506, 1, .leaf 0x76⟩), (506, ⟨some 509, 1, .int 504 505⟩),
    (507, ⟨some 509, 1, .leaf 0x64⟩), (508, ⟨some 511, 1, .leaf 0x72⟩), (509, ⟨some 511, 2, .int 506 507⟩),
    (510, ⟨some 512, 2, .leaf 0x61⟩), (511, ⟨some 512, 3, .int 508 509⟩), (512, ⟨none, 5, .int 510 511⟩)], 504,
    [(0x61, 510), (0x64, 507), (0x72, 508), (0x76, 505)]⟩

/-! ### One step of each command -/

/-- R240: no change. -/
theorem test_nop : after .nop (pending 0xA0 3) = pending 0xA0 3 := by decide +kernel

/-- V-SYS-3: `SRST` clears everything, `ILEN` is 0 again. -/
theorem test_srst : (after .srst { faulted (.regRead .err) with operands := ⟨5, 1, 1, 1⟩ }).latch = ⟨false, false, 0, 0⟩ ∧
    (after .srst { faulted (.regRead .err) with operands := ⟨5, 1, 1, 1⟩ }).operands.ilen = 0 := by decide +kernel

/-- V-HT-0: the fresh tree. -/
theorem test_htInit : (after .htInit { State.reset with tree := treeABC }).tree =
    ⟨[(512, ⟨none, 0, .nyt⟩)], 512, []⟩ := by decide +kernel

/-- V-HT-3: the code `001100010` after `61` and one bit `1` gives `61 98` and two pending bits. -/
theorem test_htEnc_unseen :
    (after (.htEnc 0x62) { State.reset with tree := treeA 2, packer := ⟨1, 0x80, 1⟩, obuf := [(0, 0x61)] }).packer =
      ⟨2, 0x80, 2⟩ ∧
    (after (.htEnc 0x62) { State.reset with tree := treeA 2, packer := ⟨1, 0x80, 1⟩, obuf := [(0, 0x61)] }).output =
      [0x61, 0x98] := by decide +kernel

/-- V-HT-5, the fourth step: the code of the seen symbol `b` is `11`. -/
theorem test_htEnc_seen : (after (.htEnc 0x62) { State.reset with tree := treeABC, packer := ⟨3, 0x60, 3⟩ }).packer =
    ⟨3, 0x78, 5⟩ := by decide +kernel

/-- V-HT-5, the third step: swap (510, 511). -/
theorem test_htUpd_one_swap : (after (.htUpd 0x63) { State.reset with tree := treeAB }).tree = treeABC := by
  decide +kernel

/-- V-HT-4, the fifth step: swaps (508, 509) and (510, 511). -/
theorem test_htUpd_two_swaps : (after (.htUpd 0x76) { State.reset with tree := treeAARD }).tree = treeAARDV := by
  decide +kernel

/-- V-HT-8, the third symbol: `RESULT` = 0x062 with the cursor at (2, 2). -/
theorem test_htDec :
    (after .htDec { small [0x61, 0x98, 0x80] with tree := treeA 2, unpacker := ⟨1, 1⟩ }).readReg .result = 0x062 ∧
    (after .htDec { small [0x61, 0x98, 0x80] with tree := treeA 2, unpacker := ⟨1, 1⟩ }).unpacker = ⟨2, 2⟩ := by
  decide +kernel

/-- V-HT-8, the fourth `HT.DEC`: the end of the stream. -/
theorem test_htDec_end :
    (after .htDec { small [0x61, 0x98, 0x80] with tree := treeAB, unpacker := ⟨2, 2⟩ }).readReg .result = 0x100 ∧
    (after .htDec { small [0x61, 0x98, 0x80] with tree := treeAB, unpacker := ⟨2, 2⟩ }).unpacker = ⟨3, 0⟩ := by
  decide +kernel

/-- V-HT-7: `61 61 72 64 76`. -/
theorem test_htEncbuf : (after .htEncbuf (small [0x61, 0x61, 0x72, 0x64, 0x76] 8)).output =
    [0x61, 0x9C, 0x86, 0x40, 0xEC] := by decide +kernel

/-- V-HT-9: symbols and cursor. -/
theorem test_htDecbuf : (after .htDecbuf (small [0x61, 0x98, 0x80] 8 3)).output = [0x61, 0x61, 0x62] ∧
    (after .htDecbuf (small [0x61, 0x98, 0x80] 8 3)).unpacker = ⟨2, 2⟩ := by decide +kernel

/-- V-HT-9: input bytes that no symbol touched. -/
theorem test_htDecbuf_trailing : (after .htDecbuf (small [0x61, 0x98, 0x80, 0] 8 3)).latch = ⟨false, true, 5, 3⟩ := by
  decide +kernel

/-- V-BP-2: the pending bit is dropped. -/
theorem test_bpInit : (after .bpInit { State.reset with packer := ⟨1, 0x80, 1⟩, obuf := [(0, 0xFF)] }).packer =
    ⟨0, 0, 0⟩ := by decide +kernel

/-- V-BP-1: six bits over a byte boundary. -/
theorem test_bpPut : (after (.bpPut 6 0x33) (pending 0xA0 3)).output = [0xB9] ∧
    (after (.bpPut 6 0x33) (pending 0xA0 3)).packer = ⟨1, 0x80, 1⟩ := by decide +kernel

/-- V-BP-6: the byte that does not fit. -/
theorem test_bpPut_full :
    (after (.bpPut 1 0) { pending 0 7 with packer := ⟨1, 0, 7⟩, obuf := [(0, 0x12)] }).latch = ⟨false, true, 7, 0⟩ := by
  decide +kernel

/-- V-BP-1: the flush. -/
theorem test_bpFlush :
    (after .bpFlush { State.reset with packer := ⟨1, 0x80, 1⟩, obuf := [(0, 0xB9)] }).output = [0xB9, 0x80] ∧
    (after .bpFlush { State.reset with packer := ⟨1, 0x80, 1⟩, obuf := [(0, 0xB9)] }).packer = ⟨2, 0, 0⟩ := by
  decide +kernel

/-- R175. -/
theorem test_buInit : (after .buInit { State.reset with unpacker := ⟨2, 5⟩ }).unpacker = ⟨0, 0⟩ := by decide +kernel

/-- V-BP-3: six bits over a byte boundary. -/
theorem test_buGet : (after (.buGet 6) { small [0xB9, 0x80] with unpacker := ⟨0, 3⟩ }).readReg .result = 0x033 ∧
    (after (.buGet 6) { small [0xB9, 0x80] with unpacker := ⟨0, 3⟩ }).unpacker = ⟨1, 1⟩ := by decide +kernel

/-- V-BP-4: three bits left of four. -/
theorem test_buGet_end : (after (.buGet 4) { small [0xB9] with unpacker := ⟨0, 5⟩ }).readReg .result = 0x100 ∧
    (after (.buGet 4) { small [0xB9] with unpacker := ⟨0, 5⟩ }).unpacker = ⟨1, 0⟩ := by decide +kernel

/-- V-RLE-9, scenario 2 of the source. -/
theorem test_rleEnc : (after .rleEnc (small [5, 5, 5, 5, 5, 9] 8)).output = [5, 5, 5, 2, 9] := by decide +kernel

/-- V-RLE-18: the longest run one token covers, the last byte a literal. -/
theorem test_rleEnc_longest : rleFwd (List.replicate 260 5) = [5, 5, 5, 255, 5, 5] := by decide +kernel

/-- V-RLI-6: a count equal to a following literal. -/
theorem test_rleDec : (after .rleDec (small [5, 5, 5, 3, 3, 3, 3] 16)).output = [5, 5, 5, 5, 5, 5, 3, 3, 3] := by
  decide +kernel

/-- V-ABR-5: clipped edge blocks. -/
theorem test_abrEnc1 :
    (after .abrEnc1 (matrix [0, 1, 2, 3, 4, 5, 6, 7, 8, 9, 10, 11, 12, 13, 14] 5 2)).output =
      [5, 0, 0, 0, 0, 0, 0, 0, 3, 0, 0, 0, 0, 0, 0, 0, 2, 0, 0, 0, 0, 0, 0, 0, 0xFC,
        0, 1, 5, 6, 2, 3, 7, 8, 4, 9, 10, 11, 12, 13, 14] := by decide +kernel

/-- V-ABR-25: block size 0. -/
theorem test_abrEnc1_no_size : (after .abrEnc1 (matrix (List.replicate 64 0) 8 0)).latch = ⟨false, true, 3, 0⟩ := by
  decide +kernel

/-- V-ABR-14: one candidate. -/
theorem test_abrEnc :
    (after .abrEnc (loadedBlock {} (List.replicate 64 0x2A) 8 0)).output =
      [8, 0, 0, 0, 0, 0, 0, 0, 8, 0, 0, 0, 0, 0, 0, 0, 8, 0, 0, 0, 0, 0, 0, 0, 0x80, 0x2A, 0x2A, 0x2A, 0x3C, 0x2A] ∧
    (after .abrEnc (loadedBlock {} (List.replicate 64 0x2A) 8 0)).results.selbs = 8 := by decide +kernel

/-- V-ABR-24: height below `BS_MIN`. -/
theorem test_abrEnc_low : (after .abrEnc (loadedBlock {} (List.replicate 64 0) 16 0)).latch = ⟨false, true, 3, 0⟩ := by
  decide +kernel

/-- V-ABR-6 and "every output decodes back": the input of V-ABR-6 from its output. -/
theorem test_abrDec :
    (after .abrDec (small [3, 0, 0, 0, 0, 0, 0, 0, 4, 0, 0, 0, 0, 0, 0, 0, 2, 0, 0, 0, 0, 0, 0, 0, 0xF0,
        0, 1, 0, 1, 2, 2, 0, 1, 0, 1, 2, 2] 12)).output = [0, 1, 2, 0, 1, 2, 0, 1, 2, 0, 1, 2] := by decide +kernel

/-- V-ABD-8: a run that overruns its block. -/
theorem test_abrDec_overrun :
    (after .abrDec (small [8, 0, 0, 0, 0, 0, 0, 0, 8, 0, 0, 0, 0, 0, 0, 0, 8, 0, 0, 0, 0, 0, 0, 0, 0x80,
        0x2A, 0x2A, 0x2A, 0x3E, 0x2A] 64)).latch = ⟨false, true, 6, 0⟩ := by decide +kernel

/-! ### One step of the machine -/

/-- V-SYS-2: bits 63:32 of a `CMD` write are ignored. -/
theorem test_cmd_high_bits :
    step { State.reset with tree := treeA 1, host := [.regWrite .cmd 0xABCDEF0110000000] } =
      .next { State.reset with obufEpoch := 1 } := by rfl

/-- V-SYS-3: a second illegal word is refused, the first fault kept. -/
theorem test_faulted_refuses :
    step (faulted (.regWrite .cmd 0x02000000)) = .next { faulted (.regRead .err) with host := [] } := by rfl

/-! ### Witnesses: for each statement with hypotheses, a state and operands that meet them -/

/-- The fresh tree meets the tree invariant. -/
theorem witness_tree_fresh : Tree.fresh.Inv := (Tree.inv_iff _).2 (by decide +kernel)

/-- So does the tree of V-HT-5 after `a b`. -/
theorem witness_tree_AB : treeAB.Inv := (Tree.inv_iff _).2 (by decide +kernel)

/-- So does the tree of V-HT-5 after `a b c`. -/
theorem witness_tree_ABC : treeABC.Inv := (Tree.inv_iff _).2 (by decide +kernel)

/-- So does the tree with one symbol whose counters may count one more. -/
theorem witness_tree_almost_full : (treeA (2 ^ 64 - 2)).Inv := (Tree.inv_iff _).2 (by decide +kernel)

/-- The empty small block meets the state invariant. -/
theorem witness_state_small : (small []).Inv := (State.inv_iff _).2 (by decide +kernel)

/-- So does a block with seven bits pending. -/
theorem witness_state_pending : (pending 0xA0 7).Inv := (State.inv_iff _).2 (by decide +kernel)

/-- So does the faulted block. -/
theorem witness_state_faulted : (faulted (.regWrite .cmd 0x01000000)).Inv := (State.inv_iff _).2 (by decide +kernel)

theorem witness_DecodeInvertsEncode : (Instr.bpPut 8 0xFF).wellFormed = true ∧ (Instr.buGet 1).wellFormed = true ∧
    decode 0x21000307 = .ok (.bpPut 3 7) := ⟨by decide, by decide, rfl⟩

/-- An idle block and the faulted one, both given a command they accept, by a move and by `withFetchWord`. -/
theorem witness_StepRunsDecodedCommand :
    ({ small [] with host := [.regWrite .cmd 0x11000061] }.latch.busy = false ∧
      decode ((0x11000061 : Word).setWidth 32) = .ok (.htEnc 0x61) ∧
      ({ small [] with host := [.regWrite .cmd 0x11000061] }.latch.fault = true → Instr.htEnc 0x61 = .srst)) ∧
    ((faulted (.regWrite .cmd 0x01000000)).latch.fault = true ∧ (faulted (.regWrite .cmd 0x01000000)).latch.busy = false ∧
      decode ((0x01000000 : Word).setWidth 32) = .ok .srst) ∧
    (State.reset.latch.busy = false ∧ decodeTableWord 32 0x110000FF = some (.htEnc 0xFF) ∧
      (State.reset.latch.fault = true → Instr.htEnc 0xFF = .srst)) :=
  ⟨⟨rfl, rfl, by decide⟩, ⟨rfl, rfl, rfl⟩, rfl, rfl, by decide⟩

/-- A clause each: a command, a register read, a register write, and the last byte of each buffer. -/
theorem witness_FaultedBlockRefusesCommands :
    (∀ m, (faulted m).latch.fault = true ∧ (faulted m).latch.busy = false ∧ (faulted m).host = [m]) ∧
    (0x10000000 : Word).setWidth 32 ≠ (0x01000000 : CmdWord) ∧ Reg.ilen ≠ .cmd ∧
    63 < (faulted (.ibufWrite 63 0)).build.ibufCap.toNat ∧ 0 < (faulted (.obufRead 0)).build.obufCap.toNat :=
  ⟨fun _ => ⟨rfl, rfl, rfl⟩, by decide, by decide, by decide, by decide⟩

theorem witness_IllegalWordRaises : (small []).latch.busy = false ∧ (small []).latch.fault = false ∧
    decode ((0x21000904 : Word).setWidth 32) = .error .badCount := ⟨rfl, rfl, rfl⟩

theorem witness_HostReadsRegister : { small [] with host := [.regRead .err] }.host = [.regRead .err] ∧
    { small [] with host := [.regRead .err] }.latch.busy = false := ⟨rfl, rfl⟩

/-- A host-writable register and one that is not. -/
theorem witness_HostWritesRegister : { small [] with host := [.regWrite .ilen 5] }.latch.busy = false ∧
    Reg.ilen ≠ .cmd ∧ Reg.olen ≠ .cmd := ⟨rfl, by decide, by decide⟩

/-- The last byte within the capacity and the first one beyond it. -/
theorem witness_HostWritesInputByte : (small []).latch.busy = false ∧ 63 < (small []).build.ibufCap.toNat ∧
    (small []).build.ibufCap.toNat ≤ 64 := by decide

/-- A block with one byte of output and room for one more. -/
def oneOut : State := { small [] 2 with packer := ⟨1, 0, 0⟩, obuf := [(0, 7)] }

/-- `OBUF` with one byte of output: below `OLEN`, at `OLEN`, at the capacity. -/
theorem witness_HostReadsBufferByte :
    oneOut.latch.busy = false ∧
    (0 < oneOut.packer.olen.toNat ∧
      Table.get oneOut.obuf 0 = some 7) ∧
    (1 < oneOut.build.obufCap.toNat ∧
      oneOut.packer.olen.toNat ≤ 1) ∧
    oneOut.build.obufCap.toNat ≤ 2 ∧
    (small []).build.ibufCap.toNat ≤ 64 ∧ 63 < (small []).build.ibufCap.toNat := by decide

/-- The default build, whose `IBUF` fills its window exactly, one with a larger `IBUF`, and one with a gap and a base: the
first and the last offsets of each range. -/
theorem witness_WindowFollowsAddressMap :
    State.reset.latch.busy = false ∧ (0x88 ≤ 0xFFFF8 ∧ 0xFFFF8 + 8 ≤ 0x100000) ∧ (0x87 < 0x88 ∧ 0x87 % 8 ≠ 0) ∧
    0xFFFFF < State.reset.build.ibufCap.toNat ∧ State.reset.build.ibufCap.toNat ≤ 0x100000 ∧
    0xFFFFF < State.reset.build.obufCap.toNat ∧ obufBase State.reset.build = 0x200000 ∧
    (0x100000 < (({ ibufCap := 0x100001 } : Build).ibufCap).toNat ∧ 0x300000 % 0x100000 = 0 ∧
      0x100000 + (({ ibufCap := 0x100001 } : Build).ibufCap).toNat ≤ 0x300000) ∧
    (0x100000 + (small []).build.ibufCap.toNat ≤ 0x1FFFFF ∧ 0x1FFFFF < obufBase (small []).build) ∧
    obufBase (small []).build + (small []).build.obufCap.toNat ≤ 0x200001 ∧
    0xFFF < ({ State.reset with build := { blockBase := 0x1000 } } : State).build.blockBase := by decide +kernel

theorem witness_HardwareResetState : (faulted .hwReset).host = [.hwReset] := rfl

theorem witness_ResetStateIsIdle : State.reset.host = [] ∧ (511 : Nat) ≠ 512 := ⟨rfl, by decide⟩

theorem witness_SplitNumbersChildren : (treeAB.Inv ∧ treeAB.leafNum 0x63 = none) ∧ 2 ≤ treeAB.nytn ∧ Table.get treeAB.node treeAB.nytn = some ⟨some 510, 0, .nyt⟩ ∧
    (0x61 : Byte) ≠ 0x63 :=
  ⟨⟨witness_tree_AB, by decide +kernel⟩, by decide +kernel, by decide +kernel, by decide⟩

/-- An entry with a leader and one without. -/
theorem witness_LeaderIsHighestEqual : Table.get treeAB.node 510 = some ⟨some 512, 1, .int 508 509⟩ ∧
    treeAB.leader 510 = some 511 ∧ Table.get treeAB.node 511 = some ⟨some 512, 1, .leaf 0x61⟩ ∧
    treeAB.leader 511 = none := by decide +kernel

/-- The swap of an inner entry and a leaf in V-HT-5. -/
theorem witness_SwapExchangesContents : treeAB.Inv ∧ (510 : Nat) ≠ 511 ∧
    Table.get treeAB.node 510 = some ⟨some 512, 1, .int 508 509⟩ ∧
    Table.get treeAB.node 511 = some ⟨some 512, 1, .leaf 0x61⟩ ∧ (some 512 : Option Nat) ≠ some 511 ∧
    (some 512 : Option Nat) ≠ some 510 ∧ (508 : Nat) ≠ 511 ∧ (509 : Nat) ≠ 511 :=
  ⟨witness_tree_AB, by decide, by decide +kernel, by decide +kernel, by decide, by decide, by decide, by decide⟩

/-- The largest count that may still rise, for the symbol seen and one unseen. -/
theorem witness_HtUpdCountsSymbol : ({ small [] with tree := treeA (2 ^ 64 - 2) }).tree.Inv ∧
    (treeA (2 ^ 64 - 2)).freq 512 = some (2 ^ 64 - 2) ∧ 2 ^ 64 - 2 < 2 ^ 64 - 1 ∧
    ((treeA (2 ^ 64 - 2)).leafNum 0x61).isSome = true ∧ (treeA (2 ^ 64 - 2)).leafNum 0x62 = none :=
  ⟨witness_tree_almost_full, by decide +kernel, by decide, by decide +kernel, by decide +kernel⟩

theorem witness_HtUpdFirstSymbol : State.reset.tree = ⟨[(512, ⟨none, 0, .nyt⟩)], 512, []⟩ := rfl

theorem witness_HtUpdCounterFull : ({ small [] with tree := treeA (2 ^ 64 - 1) }).tree.freq 512 = some (2 ^ 64 - 1) := by
  decide +kernel

/-- One byte of code into a buffer of one byte, of the block at rest and of the one an accepted command starts from. -/
theorem witness_HtEncAppendsCode : (small []).PackerOk ∧ (small []).begin.PackerOk ∧
    (small []).begin.olenAfter ((small []).begin.tree.code 0x61).length ≤ (small []).begin.build.obufCap.toNat :=
  ⟨witness_state_small.packerOk rfl, witness_state_small.packer_begin rfl, by decide +kernel⟩

/-- A seen symbol's code `1`, and a literal after the NYT path `0` that names the seen symbol. -/
theorem witness_HtDecInvertsCode :
    ({ small [0x80] with tree := treeAB }.tree.Inv ∧
      { small [0x80] with tree := treeAB }.unreadBits =
        treeAB.code 0x61 ++ [false, false, false, false, false, false, false]) ∧
    ({ small [0x18, 0x40] with tree := treeAB }.tree.Inv ∧
      { small [0x18, 0x40] with tree := treeAB }.unreadBits =
        treeAB.path treeAB.nytn ++ msbFirst 8 0x61 ++ [false, false, false, false, false, false]) :=
  ⟨⟨witness_tree_AB, by decide +kernel⟩, witness_tree_AB, by decide +kernel⟩

/-- No bit left, before a seen symbol's code and before the NYT path. -/
theorem witness_HtDecReportsEnd : { small [] with tree := treeAB }.tree.Inv ∧ treeAB.code 0x61 ≠ [] ∧
    { small [] with tree := treeAB }.unreadBits ++ treeAB.code 0x61 = treeAB.code 0x61 ∧
    treeAB.path treeAB.nytn ++ msbFirst 8 0x61 ≠ [] ∧
    { small [] with tree := treeAB }.unreadBits ++ (treeAB.path treeAB.nytn ++ msbFirst 8 0x61) =
      treeAB.path treeAB.nytn ++ msbFirst 8 0x61 :=
  ⟨witness_tree_AB, by decide +kernel, by decide +kernel, by decide +kernel, by decide +kernel⟩

/-- Nine bits of codes into a buffer of two bytes, and into one of one byte. -/
theorem witness_HtEncbufWritesSession :
    (small [0x61, 0x61] 2).operands.ilen.toNat ≤ (small [0x61, 0x61] 2).build.ibufCap.toNat ∧
    (sessionBits Tree.fresh (small [0x61, 0x61] 2).input).length = 9 ∧
    9 ≤ 8 * (small [0x61, 0x61] 2).build.obufCap.toNat ∧ 8 * (small [0x61, 0x61] 1).build.obufCap.toNat < 9 := by
  decide +kernel

/-- The session of V-HT-2 with seven padding bits set, in a buffer it just fits; with a byte more; in a smaller buffer. -/
theorem witness_HtDecbufInvertsSession :
    ((small [0x61, 0xFF] 2 2).operands.ilen.toNat ≤ (small [0x61, 0xFF] 2 2).build.ibufCap.toNat ∧
      (small [0x61, 0xFF] 2 2).inputBits = sessionBits Tree.fresh [0x61, 0x61] ++ List.replicate 7 true ∧
      (small [0x61, 0xFF] 2 2).operands.symcnt.toNat = [0x61, (0x61 : Byte)].length ∧
      [0x61, (0x61 : Byte)].length ≤ (small [0x61, 0xFF] 2 2).build.obufCap.toNat ∧ 7 < 8) ∧
    ((small [0x61, 0] 1 1).inputBits = sessionBits Tree.fresh [0x61] ++ List.replicate 8 false ∧
      (small [0x61, 0] 1 1).operands.symcnt.toNat = [(0x61 : Byte)].length ∧
      [(0x61 : Byte)].length ≤ (small [0x61, 0] 1 1).build.obufCap.toNat ∧ 8 ≤ (List.replicate 8 false).length) ∧
    ((small [0x61, 0xFF] 1 2).inputBits = sessionBits Tree.fresh [0x61, 0x61] ++ List.replicate 7 true ∧
      [0x61, (0x61 : Byte)].length ≤ (small [0x61, 0xFF] 1 2).operands.symcnt.toNat ∧
      (small [0x61, 0xFF] 1 2).build.obufCap.toNat < [0x61, (0x61 : Byte)].length) := by decide +kernel

/-- V-HT-9: `61` alone with a second symbol asked for, whose code or whose literal after the NYT path is cut. -/
theorem witness_HtDecbufReportsFailingSymbol :
    (small [0x61] 1 2).operands.ilen.toNat ≤ (small [0x61] 1 2).build.ibufCap.toNat ∧
    [(0x61 : Byte)].length < (small [0x61] 1 2).operands.symcnt.toNat ∧
    [(0x61 : Byte)].length ≤ (small [0x61] 1 2).build.obufCap.toNat ∧
    Tree.fresh.updates [0x61] = some (treeA 1) ∧ (small [0x61] 1 2).inputBits = sessionBits Tree.fresh [0x61] ++ [] ∧
    ([true] ≠ [] ∧ [] ++ [true] = (treeA 1).code 0x61) ∧
    (small [0x61, 0x30] 1 2).inputBits = sessionBits Tree.fresh [0x61] ++ false :: (msbFirst 8 0x61).take 7 ∧
    (false :: (msbFirst 8 0x61).take 7) ++ [true] = (treeA 1).path (treeA 1).nytn ++ msbFirst 8 0x61 := by decide +kernel

/-- V-HT-9, its two corner cases. -/
theorem witness_HtDecbufCornerCases :
    ((small [0x61] 1 0).operands.ilen.toNat ≤ (small [0x61] 1 0).build.ibufCap.toNat ∧
      (small [0x61] 1 0).operands.symcnt = 0 ∧ (small [0x61] 1 0).operands.ilen ≠ 0) ∧
    ((small [] 1 1).operands.ilen.toNat ≤ (small [] 1 1).build.ibufCap.toNat ∧
      (small [] 1 1).operands.symcnt ≠ 0 ∧ (small [] 1 1).operands.ilen = 0) := by decide

theorem witness_CodesArePrefixFree : treeAB.Inv ∧ (0x61 : Byte) ≠ 0x62 ∧ (treeAB.leafNum 0x61).isSome = true :=
  ⟨witness_tree_AB, by decide, by decide +kernel⟩

/-- An entry, a symbol seen and one unseen. -/
theorem witness_CodeLengthBounds : treeAB.Inv ∧ (Table.get treeAB.node 508).isSome = true ∧
    (treeAB.leafNum 0x62).isSome = true ∧ treeAB.leafNum 0x63 = none :=
  ⟨witness_tree_AB, by decide +kernel, by decide +kernel, by decide +kernel⟩

theorem witness_FreshSymbolCodeShortens : treeAB.Inv ∧ treeAB.leafNum 0x63 = none ∧
    treeAB.update 0x63 = some treeABC ∧ treeABC.leafNum 0x64 = none :=
  ⟨witness_tree_AB, by decide +kernel, by decide +kernel, by decide +kernel⟩

/-- Eight bits after seven pending ones, into a buffer of one byte. -/
theorem witness_BpPutAppendsBits : (Instr.bpPut 8 0xFF).wellFormed = true ∧ (pending 0xA0 7).begin.PackerOk ∧
    (pending 0xA0 7).begin.olenAfter (8 : BitVec 4).toNat ≤ (pending 0xA0 7).begin.build.obufCap.toNat :=
  ⟨by decide, witness_state_pending.packer_begin rfl, by decide +kernel⟩

/-- On a byte boundary, and off it with one byte of room. -/
theorem witness_BpFlushPadsWithZeros :
    ((small []).begin.PackerOk ∧ (small []).begin.packer.bpcnt = 0) ∧
    ((pending 0xA0 7).begin.PackerOk ∧ (pending 0xA0 7).begin.packer.bpcnt ≠ 0 ∧
      (pending 0xA0 7).begin.packer.olen.toNat < (pending 0xA0 7).begin.build.obufCap.toNat) :=
  ⟨⟨witness_state_small.packer_begin rfl, rfl⟩, witness_state_pending.packer_begin rfl, by decide +kernel⟩

/-- A build with no output byte at all. -/
theorem witness_PackerFullRaises :
    (0 < ((small [] 0).packer.bpcnt.toNat + ((small [] 0).tree.code 0x61).length) / 8 ∧
      (small [] 0).build.obufCap.toNat < (small [] 0).olenAfter ((small [] 0).tree.code 0x61).length) ∧
    (0 < ((small [] 0).packer.bpcnt.toNat + (8 : BitVec 4).toNat) / 8 ∧
      (small [] 0).build.obufCap.toNat < (small [] 0).olenAfter (8 : BitVec 4).toNat) ∧
    ({ small [] 0 with packer := ⟨0, 0x80, 1⟩ }.packer.bpcnt ≠ 0 ∧
      { small [] 0 with packer := ⟨0, 0x80, 1⟩ }.build.obufCap.toNat ≤
        { small [] 0 with packer := ⟨0, 0x80, 1⟩ }.packer.olen.toNat) := by decide +kernel

/-- The last eight bits, and one bit where none is left. -/
theorem witness_BuGetReadsBits :
    ((Instr.buGet 8).wellFormed = true ∧ (8 : BitVec 4).toNat ≤ (small [0xB9]).unreadBits.length) ∧
    ((Instr.buGet 1).wellFormed = true ∧ (small []).unreadBits.length < (1 : BitVec 4).toNat) := by decide +kernel

/-- Five bytes of transform, with room for five and for four. -/
theorem witness_RleEncWritesTransform :
    (small [5, 5, 5, 5] 5).operands.ilen.toNat ≤ (small [5, 5, 5, 5] 5).build.ibufCap.toNat ∧
    (rleFwd (small [5, 5, 5, 5] 5).input).length ≤ (small [5, 5, 5, 5] 5).build.obufCap.toNat ∧
    (small [5, 5, 5, 5] 4).build.obufCap.toNat < (rleFwd (small [5, 5, 5, 5] 4).input).length := by decide +kernel

/-- Four bytes of inverse, with room for four and for three. -/
theorem witness_RleDecWritesInverse :
    (small [5, 5, 5, 0, 5] 4).operands.ilen.toNat ≤ (small [5, 5, 5, 0, 5] 4).build.ibufCap.toNat ∧
    (rleInv (small [5, 5, 5, 0, 5] 4).input).length ≤ (small [5, 5, 5, 0, 5] 4).build.obufCap.toNat ∧
    (small [5, 5, 5, 0, 5] 3).build.obufCap.toNat < (rleInv (small [5, 5, 5, 0, 5] 3).input).length := by decide +kernel

/-- A block at index 1 that ends where the input does. -/
theorem witness_RleRoundTrip : 1 ≤ [(5 : Byte), 5, 5, 5].length ∧
    1 + (rleFwd [5, 5, 5, 5]).length ≤ (small [0, 5, 5, 5, 0, 5]).operands.ilen.toNat ∧
    ∀ j, j < (rleFwd [5, 5, 5, 5]).length →
      (rleFwd [5, 5, 5, 5])[j]? = some ((small [0, 5, 5, 5, 0, 5]).readIbuf (1 + j)) := by decide +kernel

/-- A matrix of one element, an output buffer its candidate just fits, and one a byte smaller. -/
theorem witness_AbrEnc1WritesCandidate :
    (matrix [7] 1 1 26).operands.ilen.toNat ≤ (matrix [7] 1 1 26).build.ibufCap.toNat ∧
    (matrix [7] 1 1 26).operands.width ≠ 0 ∧ (matrix [7] 1 1 26).operands.ilen ≠ 0 ∧
    (matrix [7] 1 1 26).operands.ilen.toNat % (matrix [7] 1 1 26).operands.width.toNat = 0 ∧
    (matrix [7] 1 1 26).operands.bsize ≠ 0 ∧
    (abrCand (matrix [7] 1 1 26).input 1 1 1).length ≤ (matrix [7] 1 1 26).build.obufCap.toNat ∧
    (matrix [7] 1 1 25).build.obufCap.toNat < (abrCand (matrix [7] 1 1 25).input 1 1 1).length := by decide +kernel

/-- A 2 by 2 matrix, for which both candidates 1 and 2 exist; a buffer the first one just fits, and one that fits
neither. -/
theorem witness_AbrEncSelectsSmallest :
    (matrix [7, 7, 7, 8] 2 0).build.wf ∧
    (matrix [7, 7, 7, 8] 2 0).operands.ilen.toNat ≤ (matrix [7, 7, 7, 8] 2 0).build.ibufCap.toNat ∧
    (matrix [7, 7, 7, 8] 2 0).operands.width.toNat = 2 ∧ (matrix [7, 7, 7, 8] 2 0).operands.ilen.toNat = 2 * 2 ∧
    (matrix [7, 7, 7, 8] 2 0).build.bsMin ≤ 2 ∧
    (1 ≤ (matrix [7, 7, 7, 8] 2 0).build.bsMaxDoublings ∧ (matrix [7, 7, 7, 8] 2 0).build.bsMin * 2 ^ 1 ≤ 2) ∧
    (abrCand (matrix [7, 7, 7, 8] 2 0 29).input 2 2 1).length ≤ (matrix [7, 7, 7, 8] 2 0 29).build.obufCap.toNat ∧
    (matrix [7, 7, 7, 8] 2 0 28).build.obufCap.toNat < (abrCand (matrix [7, 7, 7, 8] 2 0 28).input 2 2 1).length ∧
    (matrix [7, 7, 7, 8] 2 0 28).build.obufCap.toNat < (abrCand (matrix [7, 7, 7, 8] 2 0 28).input 2 2 2).length := by
  decide +kernel

/-- The encoded output of a matrix of one element, read back into a buffer of one byte. -/
theorem witness_AbrDecInvertsCandidate : [(7 : Byte)].length = 1 * 1 ∧
    1 * 1 ≤ (small (abrCand [7] 1 1 1)).build.obufCap.toNat ∧
    (small (abrCand [7] 1 1 1)).operands.ilen.toNat ≤ (small (abrCand [7] 1 1 1)).build.ibufCap.toNat ∧
    (small (abrCand [7] 1 1 1)).input = abrCand [7] 1 1 1 := by decide +kernel

theorem witness_TilesPartitionMatrix : 1 ≤ 5 ∧ 1 ≤ 3 ∧ 1 ≤ 2 := by decide

/-- Each reason of each command: V-ABR-19 to V-ABR-26, with `BS_MIN` = 1 and 8; and a matrix both commands accept. -/
theorem witness_BadDimensionsRaise :
    (matrix [1] 0 1).operands.width = 0 ∧
    (matrix [1, 2, 3] 2 1).operands.ilen.toNat % (matrix [1, 2, 3] 2 1).operands.width.toNat ≠ 0 ∧
    (loadedBlock {} (List.replicate 56 0) 7 0).operands.width.toNat < (loadedBlock {} (List.replicate 56 0) 7 0).build.bsMin ∧
    (loadedBlock {} (List.replicate 56 0) 8 0).operands.ilen.toNat /
        (loadedBlock {} (List.replicate 56 0) 8 0).operands.width.toNat <
      (loadedBlock {} (List.replicate 56 0) 8 0).build.bsMin ∧
    (matrix [] 1 1).operands.ilen = 0 ∧ (matrix [1] 1 0).operands.bsize = 0 ∧
    (matrix [1] 0 1).operands.ilen.toNat ≤ (matrix [1] 0 1).build.ibufCap.toNat ∧
    (matrix [1] 1 1).latch.fault = false ∧ (matrix [1] 1 1).operands.width.toNat = 1 ∧
    (matrix [1] 1 1).operands.ilen.toNat = 1 ∧ (matrix [1] 1 1).operands.bsize = 1 ∧
    (matrix [1] 1 1).build.bsMin = 1 := by decide +kernel

/-- A header cut by one byte, each zero dimension, `W * H` = 2^64, a missing direction byte, and a sound one. -/
theorem witness_BadHeaderRaises :
    ((small ((le64 1 ++ le64 1 ++ le64 1).take 23)).operands.ilen.toNat < 24 ∧
      unLE64 ((small ((le64 1 ++ le64 1 ++ le64 1).take 23)).memRead 0 8) = 1 ∧
      unLE64 ((small ((le64 1 ++ le64 1 ++ le64 1).take 23)).memRead 8 8) = 1) ∧
    unLE64 ((small (le64 0 ++ le64 1 ++ le64 1)).memRead 0 8) = 0 ∧
    unLE64 ((small (le64 1 ++ le64 0 ++ le64 1)).memRead 8 8) = 0 ∧
    unLE64 ((small (le64 1 ++ le64 1 ++ le64 0)).memRead 16 8) = 0 ∧
    2 ^ 64 ≤ unLE64 ((small (le64 (2 ^ 32) ++ le64 (2 ^ 32) ++ le64 8)).memRead 0 8) *
      unLE64 ((small (le64 (2 ^ 32) ++ le64 (2 ^ 32) ++ le64 8)).memRead 8 8) ∧
    (small (le64 1 ++ le64 1 ++ le64 1)).operands.ilen.toNat - 24 < cdiv (cdiv 1 1 * cdiv 1 1) 8 ∧
    (small (le64 1 ++ le64 1 ++ le64 1)).operands.ilen.toNat ≤ (small (le64 1 ++ le64 1 ++ le64 1)).build.ibufCap.toNat ∧
    ((small (le64 1 ++ le64 1 ++ le64 1 ++ [0])).latch.fault = false ∧
      (small (le64 1 ++ le64 1 ++ le64 1 ++ [0])).operands.ilen.toNat - 24 = cdiv (cdiv 1 1 * cdiv 1 1) 8) := by
  decide +kernel

/-- A stream for a column of two bytes in blocks of one (`nb` = 2, `start` = 25), and for one block of four. -/
def column (data : List Byte) (obufCap : Word := 4) : State := small (le64 1 ++ le64 2 ++ le64 1 ++ [0x80] ++ data) obufCap

/-- One block of `need` bytes in a row. -/
def row (need : Nat) (data : List Byte) : State := small (le64 need ++ le64 1 ++ le64 need ++ [0x80] ++ data) 8

theorem witness_AbrDecFollowsStream_header :
    (column [7]).operands.ilen.toNat ≤ (column [7]).build.ibufCap.toNat ∧ unLE64 ((column [7]).memRead 0 8) = 1 ∧
    unLE64 ((column [7]).memRead 8 8) = 2 ∧ unLE64 ((column [7]).memRead 16 8) = 1 ∧
    cdiv 1 1 * cdiv 2 1 = 2 ∧ 24 + cdiv 2 8 = 25 ∧ 25 ≤ (column [7]).operands.ilen.toNat ∧
    (column [7] 1).build.obufCap.toNat < 1 * 2 ∧ 1 * 2 ≤ (column [7] 2).build.obufCap.toNat := by decide +kernel

/-- The second block cut (V-ABD-4), a run of five where four are left (V-ABD-8), a byte after the last block (V-ABD-6),
and a stream that fills both blocks exactly. -/
theorem witness_AbrDecFollowsStream_data :
    (FillsExactly [7] (tileOf 1 2 1 0).area ∧ FillsExactly [8] (tileOf 1 2 1 1).area) ∧
    ((column [7]).memRead 25 1 = [[(7 : Byte)]].flatten ++ [] ∧ [[(7 : Byte)]].length < 2 ∧
      (rleInv []).length < (tileOf 1 2 1 1).area) ∧
    ((row 4 [5, 5, 5, 2]).memRead 25 4 = ([] : List (List Byte)).flatten ++ [5, 5, 5, 2] ∧
      Overfills [5, 5, 5, 2] (tileOf 4 1 4 0).area) ∧
    (column [7, 8, 9]).memRead 25 3 = [[(7 : Byte)], [8]].flatten ++ [9] ∧
    (column [7, 8]).memRead 25 2 = [[(7 : Byte)], [8]].flatten ++ [] :=
  ⟨⟨⟨by decide, by decide +kernel⟩, by decide, by decide +kernel⟩, by decide +kernel,
    ⟨by decide +kernel, 4, by decide +kernel⟩, by decide +kernel, by decide +kernel⟩

/-- V-SYS-4: `ILEN` one above the capacity. -/
theorem witness_InputTooLongRaises :
    { small [] with operands := ⟨65, 0, 0, 0⟩ }.build.ibufCap.toNat < { small [] with operands := ⟨65, 0, 0, 0⟩ }.operands.ilen.toNat := by
  decide

/-- A command that completes and is none of those the frame statements leave out. -/
theorem witness_frames : exec .rleEnc (small []) = .next (after .rleEnc (small [])) ∧ Instr.rleEnc ≠ .srst ∧
    Instr.rleEnc ≠ .htInit ∧ (∀ v, Instr.rleEnc ≠ .htUpd v) ∧ Instr.rleEnc ≠ .htEncbuf ∧ Instr.rleEnc ≠ .htDecbuf ∧
    Instr.rleEnc ≠ .htDec ∧ Instr.rleEnc ≠ .buInit ∧ (∀ n, Instr.rleEnc ≠ .buGet n) ∧ Instr.rleEnc ≠ .abrEnc1 ∧
    Instr.rleEnc ≠ .abrEnc ∧ Instr.rleEnc ≠ .abrDec :=
  ⟨rfl, by decide, by decide, fun _ => nofun, by decide, by decide, by decide, by decide, fun _ => nofun, by decide,
    by decide, by decide⟩

/-- `HT.UPD` of a block that raises nothing. -/
theorem witness_OutputKeptByNonWriters :
    exec (.htUpd 0x61) (small []) = .next { small [] with tree := treeA 1 } ∧ (small []).latch.fault = false ∧
    { small [] with tree := treeA 1 }.latch.fault = false ∧ Instr.htUpd 0x61 ≠ .bpInit ∧ Instr.htUpd 0x61 ≠ .srst ∧
    writesObuf (.htUpd 0x61) = false := ⟨by rfl, rfl, rfl, by decide, by decide, rfl⟩

/-- The soft reset of the faulted block, and an accepted write of a register of the small one. -/
theorem witness_StateInvariantKept : (faulted (.regWrite .cmd 0x01000000)).Inv ∧
    step (faulted (.regWrite .cmd 0x01000000)) = .next { small [] with operands := ⟨0, 0, 0, 0⟩, obufEpoch := 1 } :=
  ⟨witness_state_faulted, by rfl⟩

/-- A step that splits and swaps. -/
theorem witness_TreeInvariantKept : { small [] with tree := treeAB, host := [.regWrite .cmd 0x12000063] }.tree.Inv ∧
    step { small [] with tree := treeAB, host := [.regWrite .cmd 0x12000063] } =
      .next { small [] with tree := treeABC, obufEpoch := 1 } := ⟨witness_tree_AB, by rfl⟩

theorem witness_DiffModelRoundTrip : (2 : Nat) < [(10 : Byte), 12, 12].length := by decide

/-- Two bytes through the diff model, the flat RLE and the entropy coder, and a build they just fit. -/
theorem witness_CompressRoundTrip :
    ({ ibufCap := 2, obufCap := 2 } : Build).wf ∧
    (compress { ibufCap := 2, obufCap := 2 } ⟨true, false, 0⟩ [1, 2]).toOption =
      some [2, 0, 0, 0, 0, 0, 0, 0, 0x80, 0x01, 0x80] ∧
    [(2 : Byte), 0, 0, 0, 0, 0, 0, 0, 0x80, 0x01, 0x80].length ≤ 9 + (({ ibufCap := 2, obufCap := 2 } : Build).ibufCap).toNat ∧
    [(1 : Byte), 2].length ≤ (({ ibufCap := 2, obufCap := 2 } : Build).obufCap).toNat := by decide +kernel

end Sys2Proof.Tests
end

/-! ## Tables by what reading them finds -/

namespace Sys2Proof.Machine

theorem Table.isSome_get_iff {α : Type} {m : Table α} (a : Nat) :
    (Table.get m a).isSome = true ↔ a ∈ m.map Prod.fst := by
  induction m with
  | nil => simp
  | cons x m ih =>
    obtain ⟨k, v⟩ := x
    by_cases h : k = a
    · simp [Table.get, h]
    · simp [Table.get, h, Ne.symm h, ih]

/-- Writing a listed address keeps the number of listed addresses, writing another one adds 1. -/
theorem Table.length_set {α : Type} {m : Table α} (hm : Table.wf m) (a : Nat) (v : α) :
    (Table.set m a v).length = m.length + if (Table.get m a).isSome then 0 else 1 := by
  induction m with
  | nil => simp [Table.set]
  | cons x m ih =>
    obtain ⟨k, w⟩ := x
    rw [Table.wf, List.map_cons, List.pairwise_cons] at hm
    obtain ⟨hk, hm⟩ := hm
    unfold Table.set
    split
    · next hlt =>
      have hnone : Table.get m a = none := by
        rw [← Option.not_isSome_iff_eq_none, Table.isSome_get_iff]
        exact fun h => by have := hk a h; omega
      simp [Table.get, hnone, show k ≠ a by omega]
    · split
      · next hka => simp [Table.get, hka]
      · next hka => simp [Table.get, hka, ih hm]; omega

/-- A canonical table whose listed addresses are an interval lists them in order. -/
theorem Table.keys_eq_range {α : Type} {m : Table α} (hm : Table.wf m) {lo hi : Nat}
    (h : ∀ a, (Table.get m a).isSome = true ↔ lo ≤ a ∧ a < hi) :
    m.map Prod.fst = (List.range (hi - lo)).map fun i => i + lo := by
  refine List.Pairwise.eq_of_mem_iff (r := (· < ·)) hm ?_ fun a => ?_
  · exact List.pairwise_map.2 (List.pairwise_lt_range.imp fun h => Nat.add_lt_add_right h lo)
  · rw [← Table.isSome_get_iff, h]
    simp only [List.mem_map, List.mem_range]
    exact ⟨fun ⟨h1, h2⟩ => ⟨a - lo, by omega, by omega⟩, fun ⟨i, h1, h2⟩ => by omega⟩

/-- Along a canonical table, a relation of neighbours in the list is one of entries by address. -/
theorem Table.pairwise_iff {α : Type} {m : Table α} (hm : Table.wf m) (R : α → α → Prop) :
    m.Pairwise (fun x y => R x.2 y.2) ↔
      ∀ i j a b, i < j → Table.get m i = some a → Table.get m j = some b → R a b := by
  have keys : m.Pairwise (fun x y => x.1 < y.1) := List.pairwise_map.1 hm
  constructor
  · intro h i j a b hij ha hb
    obtain ⟨p, hp, ea⟩ := List.getElem_of_mem (Table.mem_of_get ha)
    obtain ⟨q, hq, eb⟩ := List.getElem_of_mem (Table.mem_of_get hb)
    rcases Nat.lt_trichotomy p q with hpq | rfl | hqp
    · simpa [ea, eb] using List.pairwise_iff_getElem.1 h p q hp hq hpq
    · rw [ea] at eb; cases eb; omega
    · have := List.pairwise_iff_getElem.1 keys q p hq hp hqp
      simp only [ea, eb] at this
      omega
  · intro h
    refine keys.imp_of_mem fun {x y} hx hy hxy => ?_
    exact h x.1 y.1 x.2 y.2 hxy (Table.get_of_mem hm hx) (Table.get_of_mem hm hy)

/-! ## The tree by what each entry holds -/

/-- The frequency of an entry as a number: 0 where the entry is `FREE`. -/
def Tree.count (t : Tree) (n : Nat) : Nat := (t.freq n).getD 0

/-- Entry `n` is `INT` and names `c` as one of its two children. -/
def Tree.IsChild (t : Tree) (c n : Nat) : Prop := ∃ l r, t.body n = some (.int l r) ∧ (c = l ∨ c = r)

/-- What 10_state.md R31 and the fact of 40_aht.md R141 say of a tree apart from its frequencies. -/
structure Tree.Shape (t : Tree) : Prop where
  nodeWf    : Table.wf t.node
  leafWf    : Table.wf t.leafOf
  keys      : ∀ x ∈ t.leafOf, x.1 < 256
  size      : t.nytn + 2 * t.leafOf.length = 512
  alloc     : ∀ n, (Table.get t.node n).isSome = true ↔ t.nytn ≤ n ∧ n ≤ 512
  nyt       : ∀ n, t.body n = some .nyt ↔ n = t.nytn
  leaf      : ∀ n v, t.body n = some (.leaf v) ↔ t.leafNum v = some n
  pair      : ∀ n l r, t.body n = some (.int l r) → r = l + 1 ∧ l % 2 = 0
  child     : ∀ c n, t.parent c = some n ↔ t.IsChild c n
  below     : ∀ c n, t.parent c = some n → c < n
  hangs     : ∀ n, t.nytn ≤ n → n < 512 → ∃ p, t.parent n = some p
  nytParent : t.nytn = 512 ∨ t.parent t.nytn = some (t.nytn + 2)

/-- What 10_state.md R31 says of the frequencies of a tree, and their width (R28). -/
structure Tree.Weighted (t : Tree) : Prop where
  sum   : ∀ n l r, t.body n = some (.int l r) → t.count n = t.count l + t.count r
  zero  : t.count t.nytn = 0
  pos   : ∀ n, t.nytn < n → n ≤ 512 → 1 ≤ t.count n
  order : ∀ i j, t.nytn ≤ i → i < j → j ≤ 512 → t.count i ≤ t.count j
  width : ∀ n, t.count n ≤ freqMax

/-! ### Reading an entry -/

theorem Tree.body_of_get {t : Tree} {n : Nat} {e : Entry} (h : Table.get t.node n = some e) :
    t.body n = some e.body := by simp [Tree.body, h]

theorem Tree.parent_of_get {t : Tree} {n : Nat} {e : Entry} (h : Table.get t.node n = some e) :
    t.parent n = e.parent := by simp [Tree.parent, h]

theorem Tree.count_of_get {t : Tree} {n : Nat} {e : Entry} (h : Table.get t.node n = some e) :
    t.count n = e.freq := by simp [Tree.count, Tree.freq, h]

theorem Tree.get_of_body {t : Tree} {n : Nat} {b : Body} (h : t.body n = some b) :
    ∃ e, Table.get t.node n = some e ∧ e.body = b := by simpa [Tree.body] using h

theorem Tree.get_of_parent {t : Tree} {n p : Nat} (h : t.parent n = some p) :
    ∃ e, Table.get t.node n = some e ∧ e.parent = some p := Option.bind_eq_some_iff.1 h

/-! ### The checks of the invariant, read as statements -/

theorem Tree.nytOk_iff (t : Tree) (n : Nat) (e : Entry) :
    t.nytOk n e = true ↔
      (n = t.nytn → e.body = .nyt ∧ e.freq = 0) ∧ (n ≠ t.nytn → e.body ≠ .nyt ∧ 1 ≤ e.freq) := by
  unfold Tree.nytOk
  split <;> simp [*]

theorem Tree.leafOk_iff (t : Tree) (n : Nat) (e : Entry) :
    t.leafOk n e = true ↔ ∀ v, e.body = .leaf v → t.leafNum v = some n := by
  unfold Tree.leafOk
  split <;> simp [*]

theorem Tree.parentOk_iff (t : Tree) (n : Nat) (e : Entry) :
    t.parentOk n e = true ↔
      (e.parent = none → n = 512) ∧ ∀ p, e.parent = some p → n < p ∧ t.IsChild n p := by
  unfold Tree.parentOk Tree.IsChild
  split
  · rw [decide_eq_true_iff]; simp [*, rootNum]
  · split <;> simp [*]

theorem Tree.childrenOk_iff (t : Tree) (n : Nat) (e : Entry) :
    t.childrenOk n e = true ↔ ∀ l r, e.body = .int l r → ∃ a b,
      Table.get t.node l = some a ∧ Table.get t.node r = some b ∧ r = l + 1 ∧ l % 2 = 0 ∧
        a.parent = some n ∧ b.parent = some n ∧ e.freq = a.freq + b.freq := by
  unfold Tree.childrenOk
  split
  · next l r hl =>
    split
    · next a b ha hb =>
      rw [decide_eq_true_iff, show rootNum % 2 = 0 from rfl]
      constructor
      · rintro hall l' r' heq
        cases hl.symm.trans heq
        exact ⟨a, b, ha, hb, hall⟩
      · intro hall
        obtain ⟨a', b', ha', hb', hall⟩ := hall l r hl
        cases ha.symm.trans ha'
        cases hb.symm.trans hb'
        exact hall
    · next hno =>
      simp only [Bool.false_eq_true, false_iff]
      intro h
      obtain ⟨a, b, ha, hb', -⟩ := h l r hl
      exact hno a b ha hb'
  · simp_all
  · simp_all

/-! ### The invariant is shape and weights -/

theorem Tree.Inv.nodeWf {t : Tree} (h : t.Inv) : Table.wf t.node := by
  obtain ⟨hkeys, -, -⟩ := h.alloc
  rw [Table.wf, hkeys]
  exact List.pairwise_map.2 (List.pairwise_lt_range.imp fun h => Nat.add_lt_add_right h _)

theorem Tree.Inv.alloc_iff {t : Tree} (h : t.Inv) (n : Nat) :
    (Table.get t.node n).isSome = true ↔ t.nytn ≤ n ∧ n ≤ 512 := by
  obtain ⟨hkeys, hle, -⟩ := h.alloc
  rw [Table.isSome_get_iff, hkeys]
  simp only [List.mem_map, List.mem_range, rootNum] at *
  exact ⟨fun ⟨i, h1, h2⟩ => by omega, fun ⟨h1, h2⟩ => ⟨n - t.nytn, by omega, by omega⟩⟩

/-- What an entry of a tree of R31 satisfies. -/
structure Tree.EntryOk (t : Tree) (n : Nat) (e : Entry) : Prop where
  isNyt   : n = t.nytn → e.body = .nyt ∧ e.freq = 0
  notNyt  : n ≠ t.nytn → e.body ≠ .nyt ∧ 1 ≤ e.freq
  leaf    : ∀ v, e.body = .leaf v → t.leafNum v = some n
  isRoot  : e.parent = none → n = 512
  parent  : ∀ p, e.parent = some p → n < p ∧ t.IsChild n p
  int     : ∀ l r, e.body = .int l r → ∃ a b,
    Table.get t.node l = some a ∧ Table.get t.node r = some b ∧ r = l + 1 ∧ l % 2 = 0 ∧
      a.parent = some n ∧ b.parent = some n ∧ e.freq = a.freq + b.freq
  width   : e.freq ≤ freqMax

theorem Tree.Inv.entryOk {t : Tree} (h : t.Inv) {n : Nat} {e : Entry} (hn : Table.get t.node n = some e) :
    t.EntryOk n e := by
  have hm := Table.mem_of_get hn
  obtain ⟨h1, h2⟩ := (t.nytOk_iff n e).1 (h.nyt _ hm)
  obtain ⟨h3, h4⟩ := (t.parentOk_iff n e).1 (h.parents _ hm)
  exact ⟨h1, h2, (t.leafOk_iff n e).1 (h.leaves _ hm), h3, h4, (t.childrenOk_iff n e).1 (h.children _ hm),
    h.counters _ hm⟩

theorem Tree.Inv.get_of_alloc {t : Tree} (h : t.Inv) {n : Nat} (h1 : t.nytn ≤ n) (h2 : n ≤ 512) :
    ∃ e, Table.get t.node n = some e ∧ t.EntryOk n e := by
  obtain ⟨e, he⟩ := Option.isSome_iff_exists.1 ((h.alloc_iff n).2 ⟨h1, h2⟩)
  exact ⟨e, he, h.entryOk he⟩

theorem Tree.Inv.body_leaf_iff {t : Tree} (h : t.Inv) (n : Nat) (v : Byte) :
    t.body n = some (.leaf v) ↔ t.leafNum v = some n := by
  constructor
  · intro hb
    obtain ⟨e, he, hv⟩ := Tree.get_of_body hb
    exact (h.entryOk he).leaf v hv
  · intro hv
    obtain ⟨-, hs⟩ := h.symbols _ (Table.mem_of_get hv)
    simpa using hs

theorem Tree.Inv.parent_iff {t : Tree} (h : t.Inv) (c n : Nat) : t.parent c = some n ↔ t.IsChild c n := by
  constructor
  · intro hp
    obtain ⟨e, he, hep⟩ := Tree.get_of_parent hp
    exact ((h.entryOk he).parent n hep).2
  · rintro ⟨l, r, hb, hc⟩
    obtain ⟨e, he, heb⟩ := Tree.get_of_body hb
    obtain ⟨a, b, ha, hb, -, -, hap, hbp, -⟩ := (h.entryOk he).int l r heb
    rcases hc with rfl | rfl
    · rw [Tree.parent_of_get ha, hap]
    · rw [Tree.parent_of_get hb, hbp]

theorem Tree.Inv.shape {t : Tree} (h : t.Inv) : t.Shape where
  nodeWf := h.nodeWf
  leafWf := h.leafTable
  keys x hx := (h.symbols x hx).1
  size := by
    obtain ⟨-, hle, hsize⟩ := h.alloc
    simp only [rootNum] at hle hsize
    omega
  alloc := h.alloc_iff
  nyt n := by
    constructor
    · intro hb
      obtain ⟨e, he, heb⟩ := Tree.get_of_body hb
      exact Classical.byContradiction fun hne => ((h.entryOk he).notNyt hne).1 heb
    · rintro rfl
      obtain ⟨-, hle, -⟩ := h.alloc
      obtain ⟨e, he, hok⟩ := h.get_of_alloc (le_refl _) hle
      rw [Tree.body_of_get he, (hok.isNyt rfl).1]
  leaf := h.body_leaf_iff
  pair n l r hb := by
    obtain ⟨e, he, heb⟩ := Tree.get_of_body hb
    obtain ⟨-, -, -, -, h1, h2, -⟩ := (h.entryOk he).int l r heb
    exact ⟨h1, h2⟩
  child := h.parent_iff
  below c n hp := by
    obtain ⟨e, he, hep⟩ := Tree.get_of_parent hp
    exact ((h.entryOk he).parent n hep).1
  hangs n h1 h2 := by
    obtain ⟨e, he, hok⟩ := h.get_of_alloc h1 h2.le
    obtain ⟨p, hp⟩ := Option.ne_none_iff_exists'.1 fun hnone => h2.ne (hok.isRoot hnone)
    exact ⟨p, by rw [Tree.parent_of_get he, hp]⟩
  nytParent := h.nytParent

theorem Tree.Inv.weighted {t : Tree} (h : t.Inv) : t.Weighted where
  sum n l r hb := by
    obtain ⟨e, he, heb⟩ := Tree.get_of_body hb
    obtain ⟨a, b, ha, hb, -, -, -, -, hsum⟩ := (h.entryOk he).int l r heb
    rw [Tree.count_of_get he, Tree.count_of_get ha, Tree.count_of_get hb, hsum]
  zero := by
    obtain ⟨-, hle, -⟩ := h.alloc
    obtain ⟨e, he, hok⟩ := h.get_of_alloc (le_refl _) hle
    rw [Tree.count_of_get he, (hok.isNyt rfl).2]
  pos n h1 h2 := by
    obtain ⟨e, he, hok⟩ := h.get_of_alloc h1.le h2
    rw [Tree.count_of_get he]
    exact (hok.notNyt h1.ne').2
  order i j h1 h2 h3 := by
    obtain ⟨a, ha, -⟩ := h.get_of_alloc h1 (by omega)
    obtain ⟨b, hb, -⟩ := h.get_of_alloc (n := j) (by omega) h3
    rw [Tree.count_of_get ha, Tree.count_of_get hb]
    exact (Table.pairwise_iff h.nodeWf fun a b => a.freq ≤ b.freq).1 (List.pairwise_map.1 h.sibling) i j a b h2 ha hb
  width n := by
    unfold Tree.count Tree.freq
    cases he : Table.get t.node n with
    | none => simp
    | some e => simpa using (h.entryOk he).width

theorem Tree.Shape.symOk {t : Tree} (h : t.Shape) {x : Nat × Nat} (hx : x ∈ t.leafOf) : t.symOk x.1 x.2 := by
  have hlt := h.keys x hx
  refine ⟨hlt, (h.leaf x.2 (BitVec.ofNat 8 x.1)).2 ?_⟩
  have : (BitVec.ofNat 8 x.1).toNat = x.1 := by simpa using hlt
  rw [Tree.leafNum, this]
  exact Table.get_of_mem h.leafWf hx

theorem Tree.Shape.isChild_get {t : Tree} (h : t.Shape) {c n : Nat} (hc : t.IsChild c n) :
    ∃ e, Table.get t.node c = some e ∧ e.parent = some n :=
  Tree.get_of_parent ((h.child c n).2 hc)

theorem Tree.Shape.entryOk {t : Tree} (h : t.Shape) (w : t.Weighted) {n : Nat} {e : Entry}
    (hn : Table.get t.node n = some e) : t.EntryOk n e := by
  have hb := Tree.body_of_get hn
  have hp := Tree.parent_of_get hn
  have hc := Tree.count_of_get hn
  obtain ⟨hlo, hhi⟩ := (h.alloc n).1 (by rw [hn]; rfl)
  refine ⟨?_, ?_, ?_, ?_, ?_, ?_, hc ▸ w.width n⟩
  · rintro rfl
    have := (h.nyt t.nytn).2 rfl
    exact ⟨by simpa [hb] using this, by rw [← hc, w.zero]⟩
  · intro hne
    exact ⟨fun hnyt => hne ((h.nyt n).1 (by rw [hb, hnyt])), hc ▸ w.pos n (by omega) hhi⟩
  · exact fun v hv => (h.leaf n v).1 (by rw [hb, hv])
  · intro hnone
    refine Classical.byContradiction fun hne => ?_
    obtain ⟨p, hp'⟩ := h.hangs n hlo (by omega)
    simp [hp, hnone] at hp'
  · exact fun p hep => ⟨h.below n p (hp.trans hep), (h.child n p).1 (hp.trans hep)⟩
  · intro l r hbody
    have hint : t.body n = some (.int l r) := by rw [hb, hbody]
    obtain ⟨a, ha, hap⟩ := h.isChild_get ⟨l, r, hint, .inl rfl⟩
    obtain ⟨b, hb, hbp⟩ := h.isChild_get ⟨l, r, hint, .inr rfl⟩
    obtain ⟨h1, h2⟩ := h.pair n l r hint
    have hsum := w.sum n l r hint
    rw [hc, Tree.count_of_get ha, Tree.count_of_get hb] at hsum
    exact ⟨a, b, ha, hb, h1, h2, hap, hbp, hsum⟩

theorem Tree.Shape.inv {t : Tree} (h : t.Shape) (w : t.Weighted) : t.Inv := by
  have hok : ∀ x ∈ t.node, t.EntryOk x.1 x.2 := fun x hx => h.entryOk w (Table.get_of_mem h.nodeWf hx)
  have hsize := h.size
  have hle : t.nytn ≤ rootNum ∧ rootNum - t.nytn = 2 * t.leafOf.length := by simp only [rootNum]; omega
  refine ⟨⟨?_, hle⟩, ?_, h.leafWf, ?_, fun x hx => h.symOk hx, ?_, ?_, ?_, h.nytParent,
    fun x hx => (hok x hx).width⟩
  · refine Table.keys_eq_range h.nodeWf fun a => (h.alloc a).trans ?_
    simp only [rootNum]
    omega
  · exact fun x hx => (t.nytOk_iff _ _).2 ⟨(hok x hx).isNyt, (hok x hx).notNyt⟩
  · exact fun x hx => (t.leafOk_iff _ _).2 (hok x hx).leaf
  · exact fun x hx => (t.parentOk_iff _ _).2 ⟨(hok x hx).isRoot, (hok x hx).parent⟩
  · exact fun x hx => (t.childrenOk_iff _ _).2 (hok x hx).int
  · refine List.pairwise_map.2 ((Table.pairwise_iff h.nodeWf fun a b => a.freq ≤ b.freq).2 ?_)
    intro i j a b hij ha hb
    obtain ⟨hi, -⟩ := (h.alloc i).1 (by rw [ha]; rfl)
    obtain ⟨-, hj⟩ := (h.alloc j).1 (by rw [hb]; rfl)
    simpa [Tree.count_of_get ha, Tree.count_of_get hb] using w.order i j hi hij hj

end Sys2Proof.Machine

/-! ## What the operations on the tree do to bodies, parents and counts -/

namespace Sys2Proof.Machine

theorem Tree.isChild_congr {t u : Tree} {n m : Nat} (h : u.body m = t.body n) (c : Nat) :
    u.IsChild c m ↔ t.IsChild c n := by simp only [Tree.IsChild, h]

/-! ### Increment -/

@[simp] theorem Tree.bump_body (t : Tree) (n m : Nat) : (t.bump n).body m = t.body m := by
  rw [Tree.body, Tree.bump_get]
  split <;> simp [Tree.body, Function.comp_def, *]

@[simp] theorem Tree.bump_parent (t : Tree) (n m : Nat) : (t.bump n).parent m = t.parent m := by
  rw [Tree.parent, Tree.bump_get]
  split <;> simp [Tree.parent, Option.bind_map, *]

@[simp] theorem Tree.bump_isSome (t : Tree) (n m : Nat) :
    (Table.get (t.bump n).node m).isSome = (Table.get t.node m).isSome := by
  rw [Tree.bump_get]
  split <;> simp [*]

theorem Tree.bump_count {t : Tree} {n : Nat} (h : (Table.get t.node n).isSome = true) (m : Nat) :
    (t.bump n).count m = t.count m + if m = n then 1 else 0 := by
  obtain ⟨e, he⟩ := Option.isSome_iff_exists.1 h
  rw [Tree.count, Tree.freq, Tree.bump_get]
  split <;> simp [Tree.count, Tree.freq, *]

/-- Incrementing keeps the shape. -/
theorem Tree.Shape.bump {t : Tree} (h : t.Shape) (n : Nat) : (t.bump n).Shape where
  nodeWf := t.bump_node_wf n h.nodeWf
  leafWf := by simpa using h.leafWf
  keys := by simpa using h.keys
  size := by simpa using h.size
  alloc := by simpa using h.alloc
  nyt := by simpa using h.nyt
  leaf := by simpa [Tree.leafNum] using h.leaf
  pair := by simpa using h.pair
  child c m := by rw [Tree.isChild_congr (t.bump_body n m)]; simpa using h.child c m
  below := by simpa using h.below
  hangs := by simpa using h.hangs
  nytParent := by simpa using h.nytParent

/-! ### Repair -/

@[simp] theorem Tree.setParent_body (t : Tree) (c n m : Nat) : (t.setParent c n).body m = t.body m := by
  rw [Tree.body, Tree.setParent_get]
  split <;> simp [Tree.body, Function.comp_def, *]

@[simp] theorem Tree.setParent_count (t : Tree) (c n m : Nat) : (t.setParent c n).count m = t.count m := by
  rw [Tree.count, Tree.freq, Tree.setParent_get]
  split <;> simp [Tree.count, Tree.freq, Function.comp_def, *]

@[simp] theorem Tree.setParent_isSome (t : Tree) (c n m : Nat) :
    (Table.get (t.setParent c n).node m).isSome = (Table.get t.node m).isSome := by
  rw [Tree.setParent_get]
  split <;> simp [*]

theorem Tree.setParent_parent_same {t : Tree} {c : Nat} (h : (Table.get t.node c).isSome = true) (n : Nat) :
    (t.setParent c n).parent c = some n := by
  obtain ⟨e, he⟩ := Option.isSome_iff_exists.1 h
  simp [Tree.parent, Tree.setParent_get, he]

theorem Tree.setParent_parent_other (t : Tree) {c m : Nat} (n : Nat) (h : m ≠ c) :
    (t.setParent c n).parent m = t.parent m := by
  rw [Tree.parent, Tree.setParent_get, if_neg h, Tree.parent]

@[simp] theorem Tree.repair_body (t : Tree) (n m : Nat) : (t.repair n).body m = t.body m := by
  unfold Tree.repair
  split
  · simp
  · rfl
  · rfl
  · rfl

@[simp] theorem Tree.repair_count (t : Tree) (n m : Nat) : (t.repair n).count m = t.count m := by
  unfold Tree.repair
  split
  · simp
  · rfl
  · rfl
  · rfl

@[simp] theorem Tree.repair_isSome (t : Tree) (n m : Nat) :
    (Table.get (t.repair n).node m).isSome = (Table.get t.node m).isSome := by
  unfold Tree.repair
  split <;> simp

/-- `repair` hangs the children of an entry at it. -/
theorem Tree.repair_parent_child {t : Tree} {n c : Nat} (hc : t.IsChild c n)
    (ha : (Table.get t.node c).isSome = true) : (t.repair n).parent c = some n := by
  obtain ⟨l, r, hb, hlr⟩ := hc
  rw [Tree.repair_int hb]
  by_cases h : c = r
  · subst h
    exact Tree.setParent_parent_same (by simpa using ha) n
  · obtain rfl : c = l := hlr.resolve_right h
    rw [Tree.setParent_parent_other _ _ h, Tree.setParent_parent_same ha]

/-- `repair` leaves the parents of all other entries. -/
theorem Tree.repair_parent_other {t : Tree} {n c : Nat} (hc : ¬ t.IsChild c n) :
    (t.repair n).parent c = t.parent c := by
  unfold Tree.repair
  split
  · next l r hb =>
    have hl : c ≠ l := fun e => hc ⟨l, r, hb, .inl e⟩
    have hr : c ≠ r := fun e => hc ⟨l, r, hb, .inr e⟩
    rw [Tree.setParent_parent_other _ _ hr, Tree.setParent_parent_other _ _ hl]
  · rfl
  · rfl
  · rfl

/-- `repair` registers the symbol of a leaf and leaves all others. -/
theorem Tree.repair_leafNum (t : Tree) (n : Nat) (v : Byte) :
    (t.repair n).leafNum v = if t.body n = some (.leaf v) then some n else t.leafNum v := by
  unfold Tree.repair
  split
  · simp [Tree.leafNum, *]
  · next s hb =>
    rw [Tree.leafNum, Table.get_set, hb]
    simp only [BitVec.toNat_inj, Option.some.injEq, Body.leaf.injEq, eq_comm, Tree.leafNum]
  · simp [*]
  · simp [*]

theorem Tree.repair_keys {t : Tree} (h : ∀ x ∈ t.leafOf, x.1 < 256) (n : Nat) :
    ∀ x ∈ (t.repair n).leafOf, x.1 < 256 := by
  unfold Tree.repair
  split
  · simpa using h
  · next s _ =>
    intro x hx
    rcases Table.mem_set hx with rfl | hx
    · exact s.isLt
    · exact h x hx
  · exact h
  · exact h

/-- `repair` registers no new symbol where the leaf's symbol is registered already. -/
theorem Tree.repair_length {t : Tree} {n : Nat} (hw : Table.wf t.leafOf)
    (h : ∀ v, t.body n = some (.leaf v) → (t.leafNum v).isSome = true) :
    (t.repair n).leafOf.length = t.leafOf.length := by
  unfold Tree.repair
  split
  · simp
  · next s hb =>
    have hs : (Table.get t.leafOf s.toNat).isSome = true := h s hb
    simp [Table.length_set hw, hs]
  · rfl
  · rfl

/-! ### Swap -/

section Swap

variable {t : Tree} {p q : Nat} (hp : (Table.get t.node p).isSome = true) (hq : (Table.get t.node q).isSome = true)
include hp hq

theorem Tree.exchange_get_of_alloc : ∃ a b, Table.get t.node p = some a ∧ Table.get t.node q = some b ∧
    ∀ m, Table.get (t.exchange p q).node m =
      if m = q then some ⟨b.parent, a.freq, a.body⟩
      else if m = p then some ⟨a.parent, b.freq, b.body⟩ else Table.get t.node m := by
  obtain ⟨a, ha⟩ := Option.isSome_iff_exists.1 hp
  obtain ⟨b, hb⟩ := Option.isSome_iff_exists.1 hq
  exact ⟨a, b, ha, hb, Tree.exchange_get ha hb⟩

theorem Tree.exchange_body (m : Nat) :
    (t.exchange p q).body m = if m = q then t.body p else if m = p then t.body q else t.body m := by
  obtain ⟨a, b, ha, hb, hget⟩ := Tree.exchange_get_of_alloc hp hq
  rw [Tree.body, hget, Tree.body_of_get ha, Tree.body_of_get hb]
  split_ifs <;> rfl

theorem Tree.exchange_count (m : Nat) :
    (t.exchange p q).count m = if m = q then t.count p else if m = p then t.count q else t.count m := by
  obtain ⟨a, b, ha, hb, hget⟩ := Tree.exchange_get_of_alloc hp hq
  rw [Tree.count, Tree.freq, hget, Tree.count_of_get ha, Tree.count_of_get hb]
  split_ifs <;> rfl

theorem Tree.exchange_parent (m : Nat) : (t.exchange p q).parent m = t.parent m := by
  obtain ⟨a, b, ha, hb, hget⟩ := Tree.exchange_get_of_alloc hp hq
  rw [Tree.parent, hget]
  split_ifs with h1 h2
  · subst h1; simp [Tree.parent, hb]
  · subst h2; simp [Tree.parent, ha]
  · rfl

theorem Tree.exchange_isSome (m : Nat) :
    (Table.get (t.exchange p q).node m).isSome = (Table.get t.node m).isSome := by
  obtain ⟨a, b, ha, hb, hget⟩ := Tree.exchange_get_of_alloc hp hq
  rw [hget]
  split_ifs with h1 h2
  · subst h1; simp [hb]
  · subst h2; simp [ha]
  · rfl

/-- `swap` exchanges bodies. -/
theorem Tree.swap_body (m : Nat) :
    (t.swap p q).body m = if m = q then t.body p else if m = p then t.body q else t.body m := by
  simpa [Tree.swap] using Tree.exchange_body hp hq m

/-- `swap` exchanges frequencies. -/
theorem Tree.swap_count (m : Nat) :
    (t.swap p q).count m = if m = q then t.count p else if m = p then t.count q else t.count m := by
  simpa [Tree.swap] using Tree.exchange_count hp hq m

theorem Tree.swap_isSome (m : Nat) :
    (Table.get (t.swap p q).node m).isSome = (Table.get t.node m).isSome := by
  simpa [Tree.swap] using Tree.exchange_isSome hp hq m

theorem Tree.exchange_isChild_right (c : Nat) : (t.exchange p q).IsChild c q ↔ t.IsChild c p :=
  Tree.isChild_congr (by simp [Tree.exchange_body hp hq]) c

theorem Tree.exchange_isChild_left (hpq : p ≠ q) (c : Nat) : (t.exchange p q).IsChild c p ↔ t.IsChild c q :=
  Tree.isChild_congr (by simp [Tree.exchange_body hp hq, hpq]) c

/-- The children of the first entry hang at the second after `swap`. -/
theorem Tree.swap_parent_left {c : Nat} (hc : t.IsChild c p) (ha : (Table.get t.node c).isSome = true) :
    (t.swap p q).parent c = some q := by
  refine Tree.repair_parent_child ?_ (by simpa [Tree.exchange_isSome hp hq] using ha)
  exact (Tree.isChild_congr (Tree.repair_body _ p q) c).2 ((Tree.exchange_isChild_right hp hq c).2 hc)

/-- The entries that are no children of the first one. -/
theorem Tree.swap_parent_not_left {c : Nat} (hc : ¬ t.IsChild c p) :
    (t.swap p q).parent c = ((t.exchange p q).repair p).parent c := by
  refine Tree.repair_parent_other fun h => hc ?_
  exact (Tree.exchange_isChild_right hp hq c).1 ((Tree.isChild_congr (Tree.repair_body _ p q) c).1 h)

/-- The children of the second entry hang at the first after `swap`. -/
theorem Tree.swap_parent_right (hpq : p ≠ q) {c : Nat} (hn : ¬ t.IsChild c p) (hc : t.IsChild c q)
    (ha : (Table.get t.node c).isSome = true) : (t.swap p q).parent c = some p := by
  rw [Tree.swap_parent_not_left hp hq hn]
  exact Tree.repair_parent_child ((Tree.exchange_isChild_left hp hq hpq c).2 hc)
    (by simpa [Tree.exchange_isSome hp hq] using ha)

/-- All other entries keep their parent over `swap`. -/
theorem Tree.swap_parent_other (hpq : p ≠ q) {c : Nat} (hl : ¬ t.IsChild c p) (hr : ¬ t.IsChild c q) :
    (t.swap p q).parent c = t.parent c := by
  rw [Tree.swap_parent_not_left hp hq hl,
    Tree.repair_parent_other (fun h => hr ((Tree.exchange_isChild_left hp hq hpq c).1 h)),
    Tree.exchange_parent hp hq]

/-- `swap` registers the symbols of both entries where their leaves now are. -/
theorem Tree.swap_leafNum (hpq : p ≠ q) (v : Byte) :
    (t.swap p q).leafNum v =
      if t.body p = some (.leaf v) then some q else if t.body q = some (.leaf v) then some p else t.leafNum v := by
  rw [Tree.swap, Tree.repair_leafNum, Tree.repair_body, Tree.repair_leafNum, Tree.exchange_body hp hq,
    Tree.exchange_body hp hq, if_pos rfl, if_neg hpq, if_pos rfl]
  simp [Tree.leafNum]

/-- `swap` registers no new symbol where both leaves' symbols are registered already. -/
theorem Tree.swap_length (hpq : p ≠ q) (hw : Table.wf t.leafOf)
    (h : ∀ n v, t.body n = some (.leaf v) → (t.leafNum v).isSome = true) :
    (t.swap p q).leafOf.length = t.leafOf.length := by
  have hw' : Table.wf (t.exchange p q).leafOf := by simpa using hw
  have hfirst : ((t.exchange p q).repair p).leafOf.length = t.leafOf.length := by
    rw [Tree.repair_length hw', Tree.exchange_leafOf]
    intro v hv
    rw [Tree.exchange_body hp hq, if_neg hpq, if_pos rfl] at hv
    simpa [Tree.leafNum] using h q v hv
  rw [Tree.swap, Tree.repair_length (Tree.repair_leafOf_wf _ _ hw'), hfirst]
  intro v hv
  rw [Tree.repair_body, Tree.exchange_body hp hq, if_pos rfl] at hv
  rw [Tree.repair_leafNum]
  split
  · rfl
  · simpa [Tree.leafNum] using h p v hv

end Swap

theorem Tree.swap_keys {t : Tree} (h : ∀ x ∈ t.leafOf, x.1 < 256) (p q : Nat) :
    ∀ x ∈ (t.swap p q).leafOf, x.1 < 256 :=
  Tree.repair_keys (Tree.repair_keys (by simpa using h) p) q

/-! ### Split -/

section Split

variable {t : Tree} (h : t.Shape) (h2 : 2 ≤ t.nytn) (s : Byte)
include h

theorem Tree.Shape.nytn_le : t.nytn ≤ 512 := by have := h.size; omega

theorem Tree.Shape.nytn_even : t.nytn % 2 = 0 := by have := h.size; omega

theorem Tree.Shape.get_nytn : ∃ e, Table.get t.node t.nytn = some e ∧ e.body = .nyt :=
  Tree.get_of_body ((h.nyt _).2 rfl)

theorem Tree.Shape.split_eq : ∃ e, Table.get t.node t.nytn = some e ∧
    t.split s =
      { node := Table.set (Table.set (Table.set t.node t.nytn { e with body := .int (t.nytn - 2) (t.nytn - 1) })
          (t.nytn - 2) ⟨some t.nytn, 0, .nyt⟩) (t.nytn - 1) ⟨some t.nytn, 0, .leaf s⟩
        nytn := t.nytn - 2
        leafOf := Table.set t.leafOf s.toNat (t.nytn - 1) } := by
  obtain ⟨e, he, -⟩ := h.get_nytn
  exact ⟨e, he, by rw [Tree.split, he]⟩

theorem Tree.Shape.split_nytn : (t.split s).nytn = t.nytn - 2 := by
  obtain ⟨e, -, heq⟩ := h.split_eq s
  rw [heq]

theorem Tree.Shape.split_leafOf : (t.split s).leafOf = Table.set t.leafOf s.toNat (t.nytn - 1) := by
  obtain ⟨e, -, heq⟩ := h.split_eq s
  rw [heq]

/-- Every entry of the split tree: the two new ones, the opened one and the kept ones. -/
theorem Tree.Shape.split_get : ∃ e, Table.get t.node t.nytn = some e ∧ ∀ m,
    Table.get (t.split s).node m =
      if m = t.nytn - 1 then some ⟨some t.nytn, 0, .leaf s⟩
      else if m = t.nytn - 2 then some ⟨some t.nytn, 0, .nyt⟩
      else if m = t.nytn then some { e with body := .int (t.nytn - 2) (t.nytn - 1) }
      else Table.get t.node m := by
  obtain ⟨e, he, heq⟩ := h.split_eq s
  refine ⟨e, he, fun m => ?_⟩
  simp only [heq, Table.get_set]

theorem Tree.Shape.not_alloc {n : Nat} (hn : n < t.nytn) : Table.get t.node n = none := by
  rw [← Option.not_isSome_iff_eq_none, h.alloc]
  omega

theorem Tree.Shape.split_body (m : Nat) : (t.split s).body m =
    if m = t.nytn - 1 then some (.leaf s) else if m = t.nytn - 2 then some .nyt
    else if m = t.nytn then some (.int (t.nytn - 2) (t.nytn - 1)) else t.body m := by
  obtain ⟨e, he, hget⟩ := h.split_get s
  rw [Tree.body, hget]
  split_ifs <;> rfl

include h2

theorem Tree.Shape.split_parent (m : Nat) : (t.split s).parent m =
    if m = t.nytn - 1 ∨ m = t.nytn - 2 then some t.nytn else t.parent m := by
  obtain ⟨e, he, hget⟩ := h.split_get s
  rw [Tree.parent, hget]
  by_cases hnew : m = t.nytn - 1 ∨ m = t.nytn - 2
  · rw [if_pos hnew]
    split_ifs with h1 h3
    · rfl
    · rfl
    · omega
    · omega
  · rw [if_neg hnew, if_neg fun h1 => hnew (.inl h1), if_neg fun h3 => hnew (.inr h3)]
    split_ifs with hm
    · rw [hm, Tree.parent_of_get he]; rfl
    · rfl

/-- The two new entries count 0, as an entry that is `FREE` does, and the others keep their count. -/
theorem Tree.Shape.split_count (m : Nat) : (t.split s).count m = t.count m := by
  obtain ⟨e, he, hget⟩ := h.split_get s
  rw [Tree.count, Tree.freq, hget, Tree.count, Tree.freq]
  split_ifs with h1 h3 h4
  · rw [h1, h.not_alloc (by omega)]; rfl
  · rw [h3, h.not_alloc (by omega)]; rfl
  · rw [h4, he]; rfl
  · rfl

theorem Tree.Shape.split_isSome (m : Nat) : (Table.get (t.split s).node m).isSome = true ↔
    t.nytn - 2 ≤ m ∧ m ≤ 512 := by
  obtain ⟨e, he, hget⟩ := h.split_get s
  have := h.nytn_le
  rw [hget]
  split_ifs with h1 h3 h4
  · exact iff_of_true rfl (by omega)
  · exact iff_of_true rfl (by omega)
  · exact iff_of_true rfl (by omega)
  · rw [h.alloc]; omega

end Split

end Sys2Proof.Machine

/-! ## The walk of `update` -/

namespace Sys2Proof.Machine

/-! ### Reading the shape -/

theorem Tree.isSome_of_body {t : Tree} {n : Nat} {b : Body} (hb : t.body n = some b) :
    (Table.get t.node n).isSome = true := by
  obtain ⟨e, he, -⟩ := Tree.get_of_body hb
  rw [he]; rfl

section Shape

variable {t : Tree} (h : t.Shape)
include h

theorem Tree.Shape.body_bounds {n : Nat} {b : Body} (hb : t.body n = some b) : t.nytn ≤ n ∧ n ≤ 512 :=
  (h.alloc n).1 (Tree.isSome_of_body hb)

theorem Tree.Shape.parent_bounds {c p : Nat} (hp : t.parent c = some p) : t.nytn ≤ c ∧ c < p ∧ p ≤ 512 := by
  obtain ⟨e, he, -⟩ := Tree.get_of_parent hp
  obtain ⟨l, r, hb, -⟩ := (h.child c p).1 hp
  exact ⟨((h.alloc c).1 (by rw [he]; rfl)).1, h.below c p hp, (h.body_bounds hb).2⟩

theorem Tree.Shape.isChild_bounds {c p : Nat} (hc : t.IsChild c p) : t.nytn ≤ c ∧ c < p ∧ p ≤ 512 :=
  h.parent_bounds ((h.child c p).2 hc)

theorem Tree.Shape.isChild_alloc {c p : Nat} (hc : t.IsChild c p) : (Table.get t.node c).isSome = true :=
  (h.alloc c).2 (by have := h.isChild_bounds hc; omega)

theorem Tree.Shape.isChild_unique {c p q : Nat} (hp : t.IsChild c p) (hq : t.IsChild c q) : p = q :=
  Option.some.inj (((h.child c p).2 hp).symm.trans ((h.child c q).2 hq))

theorem Tree.Shape.int_parents {n l r : Nat} (hb : t.body n = some (.int l r)) :
    t.parent l = some n ∧ t.parent r = some n :=
  ⟨(h.child l n).2 ⟨l, r, hb, .inl rfl⟩, (h.child r n).2 ⟨l, r, hb, .inr rfl⟩⟩

theorem Tree.Shape.root_parent : t.parent 512 = none := by
  cases hp : t.parent 512 with
  | none => rfl
  | some p => have := h.parent_bounds hp; omega

/-- The NYT entry is the left child of its parent, the entry `NYTN + 2`, whose other child is `NYTN + 1`. -/
theorem Tree.Shape.nyt_sibling {p : Nat} (hp : t.parent t.nytn = some p) :
    p = t.nytn + 2 ∧ t.body p = some (.int t.nytn (t.nytn + 1)) := by
  have hp2 : p = t.nytn + 2 := by
    rcases h.nytParent with hroot | hpar
    · have := h.parent_bounds hp; omega
    · exact Option.some.inj (hp.symm.trans hpar)
  obtain ⟨l, r, hb, hlr⟩ := (h.child _ p).1 hp
  obtain ⟨hr, -⟩ := h.pair p l r hb
  have hl := h.parent_bounds (h.int_parents hb).1
  obtain rfl : l = t.nytn := by omega
  exact ⟨hp2, by rw [hb, hr]⟩

end Shape

/-! ### Swap keeps the shape -/

/-- Where `swap` may be applied: to two entries that are neither the NYT entry nor its parent, and of which each is
above the other's children. -/
structure Tree.Swappable (t : Tree) (p q : Nat) : Prop where
  ne     : p ≠ q
  left   : t.nytn < p ∧ p ≤ 512
  right  : t.nytn < q ∧ q ≤ 512
  leftP  : p ≠ t.nytn + 2
  rightP : q ≠ t.nytn + 2
  leftC  : ∀ c, t.IsChild c p → c < q
  rightC : ∀ c, t.IsChild c q → c < p

section Swap

variable {t : Tree} {p q : Nat} (h : t.Shape) (hs : t.Swappable p q)
include h hs

theorem Tree.Swappable.allocLeft : (Table.get t.node p).isSome = true :=
  (h.alloc p).2 (by have := hs.left; omega)

theorem Tree.Swappable.allocRight : (Table.get t.node q).isSome = true :=
  (h.alloc q).2 (by have := hs.right; omega)

/-- After the swap an entry hangs where before it hung, the two swapped entries taken for each other. -/
theorem Tree.Swappable.isChild (c n : Nat) : (t.swap p q).IsChild c n ↔
    if n = q then t.IsChild c p else if n = p then t.IsChild c q else t.IsChild c n := by
  have hbody := Tree.swap_body (hs.allocLeft h) (hs.allocRight h) n
  split_ifs at hbody ⊢ <;> exact Tree.isChild_congr hbody c

theorem Tree.Swappable.parent (c n : Nat) : (t.swap p q).parent c = some n ↔
    if n = q then t.IsChild c p else if n = p then t.IsChild c q else t.IsChild c n := by
  have hp := hs.allocLeft h
  have hq := hs.allocRight h
  by_cases hl : t.IsChild c p
  · rw [Tree.swap_parent_left hp hq hl (h.isChild_alloc hl), Option.some.injEq]
    split_ifs with h1 h2
    · exact iff_of_true h1.symm hl
    · exact iff_of_false (fun e => h1 e.symm) fun hr => hs.ne (h.isChild_unique hl hr)
    · exact iff_of_false (fun e => h1 e.symm) fun hn => h2 (h.isChild_unique hl hn).symm
  · by_cases hr : t.IsChild c q
    · rw [Tree.swap_parent_right hp hq hs.ne hl hr (h.isChild_alloc hr), Option.some.injEq]
      split_ifs with h1 h2
      · exact iff_of_false (fun e => hs.ne (e.trans h1)) hl
      · exact iff_of_true h2.symm hr
      · exact iff_of_false (fun e => h2 e.symm) fun hn => h1 (h.isChild_unique hr hn).symm
    · rw [Tree.swap_parent_other hp hq hs.ne hl hr, h.child]
      split_ifs with h1 h2
      · simp [h1, hl, hr]
      · simp [h2, hl, hr]
      · rfl

theorem Tree.Swappable.leaf (n : Nat) (v : Byte) :
    (t.swap p q).body n = some (.leaf v) ↔ (t.swap p q).leafNum v = some n := by
  have hp := hs.allocLeft h
  have hq := hs.allocRight h
  rw [Tree.swap_body hp hq, Tree.swap_leafNum hp hq hs.ne]
  have hpv := h.leaf p v
  have hqv := h.leaf q v
  have hnv := h.leaf n v
  have := hs.ne
  grind

/-- `swap` keeps the shape. -/
theorem Tree.Swappable.shape : (t.swap p q).Shape := by
  have hp := hs.allocLeft h
  have hq := hs.allocRight h
  have hbody := Tree.swap_body hp hq
  have hl := hs.left
  have hr := hs.right
  refine
    { nodeWf := t.swap_node_wf p q h.nodeWf, leafWf := t.swap_leafOf_wf p q h.leafWf
      keys := Tree.swap_keys h.keys p q, size := ?_, alloc := ?_, nyt := ?_, leaf := hs.leaf h, pair := ?_
      child := ?_, below := ?_, hangs := ?_, nytParent := ?_ }
  · rw [Tree.swap_nytn, Tree.swap_length hp hq hs.ne h.leafWf, h.size]
    exact fun n v hv => by rw [(h.leaf n v).1 hv]; rfl
  · intro n
    rw [Tree.swap_isSome hp hq, Tree.swap_nytn, h.alloc]
  · intro n
    rw [hbody, Tree.swap_nytn]
    split_ifs with h1 h2
    · rw [h.nyt]; omega
    · rw [h.nyt]; omega
    · exact h.nyt n
  · intro n l r hb
    rw [hbody] at hb
    split_ifs at hb
    · exact h.pair _ l r hb
    · exact h.pair _ l r hb
    · exact h.pair _ l r hb
  · exact fun c n => (hs.parent h c n).trans (hs.isChild h c n).symm
  · intro c n hc
    rw [hs.parent h] at hc
    split_ifs at hc with h1 h2
    · exact h1 ▸ hs.leftC c hc
    · exact h2 ▸ hs.rightC c hc
    · have := h.isChild_bounds hc; omega
  · intro n h1 h2
    obtain ⟨m, hm⟩ := h.hangs n (by simpa using h1) h2
    rw [h.child] at hm
    by_cases hmp : m = p
    · exact ⟨q, (hs.parent h n q).2 (by rw [if_pos rfl]; exact hmp ▸ hm)⟩
    · by_cases hmq : m = q
      · exact ⟨p, (hs.parent h n p).2 (by rw [if_neg hs.ne, if_pos rfl]; exact hmq ▸ hm)⟩
      · exact ⟨m, (hs.parent h n m).2 (by rwa [if_neg hmq, if_neg hmp])⟩
  · rw [Tree.swap_nytn]
    refine h.nytParent.imp id fun hpar => (hs.parent h _ _).2 ?_
    rw [if_neg hs.rightP.symm, if_neg hs.leftP.symm, ← h.child, hpar]

end Swap

/-! ### Split keeps the shape -/

section Split

variable {t : Tree} (h : t.Shape) {s : Byte} (hs : t.leafNum s = none)
include h hs

/-- While a symbol is unseen, two numbers are left for its split: 256 symbols take 512 entries. -/
theorem Tree.Shape.two_le_nytn : 2 ≤ t.nytn := by
  have hle : (t.leafOf.map Prod.fst).length ≤ ((List.range 256).erase s.toNat).length := by
    refine ((List.Nodup.subperm (h.leafWf.imp fun hlt => ne_of_lt hlt)) fun a ha => ?_).length_le
    have hne : a ≠ s.toNat := by
      rintro rfl
      rw [← Table.isSome_get_iff, show Table.get t.leafOf s.toNat = none from hs] at ha
      cases ha
    obtain ⟨x, hx, rfl⟩ := List.mem_map.1 ha
    exact (List.mem_erase_of_ne hne).2 (List.mem_range.2 (h.keys x hx))
  rw [List.length_map, List.length_erase_of_mem (List.mem_range.2 s.isLt), List.length_range] at hle
  have := h.size
  omega

theorem Tree.Shape.split_isChild (c n : Nat) : (t.split s).IsChild c n ↔
    if n = t.nytn then c = t.nytn - 1 ∨ c = t.nytn - 2 else t.IsChild c n := by
  have h2 := h.two_le_nytn hs
  have hlow : t.IsChild c n → t.nytn ≤ n := fun hc => by have := h.isChild_bounds hc; omega
  rw [Tree.IsChild, h.split_body]
  split_ifs with h1 h3 h4 h5
  · omega
  · exact iff_of_false (by simp) fun hc => by have := hlow hc; omega
  · omega
  · exact iff_of_false (by simp) fun hc => by have := hlow hc; omega
  · simp only [Option.some.injEq, Body.int.injEq]
    exact ⟨fun ⟨l, r, e, hc⟩ => by omega, fun hc => ⟨_, _, ⟨rfl, rfl⟩, hc.symm⟩⟩
  · rfl

theorem Tree.Shape.split_child (c n : Nat) : (t.split s).parent c = some n ↔ (t.split s).IsChild c n := by
  have h2 := h.two_le_nytn hs
  rw [h.split_parent h2, h.split_isChild hs]
  by_cases hc : c = t.nytn - 1 ∨ c = t.nytn - 2
  · have hno : ¬ t.IsChild c n := fun hc' => by have := h.isChild_bounds hc'; omega
    simp [hc, hno, eq_comm]
  · rw [if_neg hc, h.child]
    split_ifs with hn
    · refine ⟨fun hc' => ?_, fun hc' => absurd hc' hc⟩
      obtain ⟨l, r, hb, -⟩ := hc'
      rw [hn, (h.nyt _).2 rfl] at hb
      cases hb
    · rfl

omit hs in
theorem Tree.Shape.split_leafNum (s v : Byte) :
    (t.split s).leafNum v = if v = s then some (t.nytn - 1) else t.leafNum v := by
  rw [Tree.leafNum, h.split_leafOf, Table.get_set]
  simp only [BitVec.toNat_inj, Tree.leafNum]

theorem Tree.Shape.split_leaf (n : Nat) (v : Byte) :
    (t.split s).body n = some (.leaf v) ↔ (t.split s).leafNum v = some n := by
  have h2 := h.two_le_nytn hs
  rw [h.split_body, h.split_leafNum]
  by_cases hv : v = s
  · subst hv
    have hno : t.body n ≠ some (.leaf v) := fun hb => by rw [h.leaf, hs] at hb; cases hb
    rw [if_pos rfl, Option.some.injEq]
    split_ifs with h1 h3 h4
    · exact iff_of_true rfl h1.symm
    · exact iff_of_false (by simp) (by omega)
    · exact iff_of_false (by simp) (by omega)
    · exact iff_of_false hno (by omega)
  · have hlow : t.leafNum v = some n → t.nytn < n := fun hn => by
      have hb := (h.leaf n v).2 hn
      have := (h.body_bounds hb).1
      have : n ≠ t.nytn := fun e => by rw [(h.nyt n).2 e] at hb; cases hb
      omega
    rw [if_neg hv]
    split_ifs with h1 h3 h4
    · exact iff_of_false (by simpa using Ne.symm hv) fun hn => by have := hlow hn; omega
    · exact iff_of_false (by simp) fun hn => by have := hlow hn; omega
    · exact iff_of_false (by simp) fun hn => by have := hlow hn; omega
    · exact h.leaf n v

/-- `split` of an unseen symbol keeps the shape. -/
theorem Tree.Shape.split : (t.split s).Shape := by
  have h2 := h.two_le_nytn hs
  have hle := h.nytn_le
  have heven := h.nytn_even
  refine
    { nodeWf := ?_, leafWf := ?_, keys := ?_, size := ?_, alloc := ?_, nyt := ?_, leaf := h.split_leaf hs
      pair := ?_, child := h.split_child hs, below := ?_, hangs := ?_, nytParent := ?_ }
  · obtain ⟨e, -, heq⟩ := h.split_eq s
    rw [heq]
    exact Table.set_wf _ _ (Table.set_wf _ _ (Table.set_wf _ _ h.nodeWf))
  · rw [h.split_leafOf]
    exact Table.set_wf _ _ h.leafWf
  · rw [h.split_leafOf]
    intro x hx
    rcases Table.mem_set hx with rfl | hx
    · exact s.isLt
    · exact h.keys x hx
  · have hsize := h.size
    have hnone : Table.get t.leafOf s.toNat = none := hs
    rw [h.split_nytn, h.split_leafOf, Table.length_set h.leafWf, hnone]
    simp only [Option.isSome_none, Bool.false_eq_true, if_false]
    omega
  · intro n
    rw [h.split_isSome h2, h.split_nytn]
  · intro n
    rw [h.split_body, h.split_nytn]
    split_ifs with h1 h3 h4
    · exact iff_of_false (by simp) (by omega)
    · simp [h3]
    · exact iff_of_false (by simp) (by omega)
    · rw [h.nyt]; omega
  · intro n l r hb
    rw [h.split_body] at hb
    split_ifs at hb
    · cases hb
    · cases hb
    · cases hb; omega
    · exact h.pair n l r hb
  · intro c n hc
    rw [h.split_parent h2] at hc
    split_ifs at hc with hnew
    · have := Option.some.inj hc; omega
    · exact h.below c n hc
  · intro n h1 h3
    rw [h.split_nytn] at h1
    rw [h.split_parent h2]
    split_ifs with hnew
    · exact ⟨_, rfl⟩
    · exact h.hangs n (by omega) h3
  · right
    rw [h.split_nytn, h.split_parent h2, if_pos (.inr rfl)]
    congr 1
    omega

end Split

end Sys2Proof.Machine

namespace Sys2Proof.Machine

/-! ### The state of the walk -/

/-- The tree while `update` stands at entry `cur`, whose increment is still to come: the children of `cur` already count
one more than `cur`, and so may the right one of the NYT entry's parent. Only `cur` and its parent may count 0, which
they do after a split. -/
structure Tree.Walking (t : Tree) (cur : Nat) : Prop where
  shape : t.Shape
  above : t.nytn < cur
  top   : cur ≤ 512
  sum   : ∀ n l r, t.body n = some (.int l r) → t.count l + t.count r = t.count n + if n = cur then 1 else 0
  zero  : t.count t.nytn = 0
  pos   : ∀ n, t.nytn < n → n ≤ 512 → n ≠ cur → t.parent cur ≠ some n → 1 ≤ t.count n
  order : ∀ i j, t.nytn ≤ i → i < j → j ≤ 512 → ¬ (i = t.nytn + 1 ∧ j = t.nytn + 2 ∧ j = cur) →
    t.count i ≤ t.count j
  room  : t.count 512 < freqMax

theorem Tree.Shape.freq_eq_some {t : Tree} (h : t.Shape) {n : Nat} (h1 : t.nytn ≤ n) (h2 : n ≤ 512) (f : Nat) :
    t.freq n = some f ↔ t.count n = f := by
  obtain ⟨e, he⟩ := Option.isSome_iff_exists.1 ((h.alloc n).2 ⟨h1, h2⟩)
  rw [Tree.count_of_get he, Tree.freq, he, Option.map_some, Option.some.injEq]

theorem Tree.Shape.leader_eq {t : Tree} (h : t.Shape) {cur : Nat} (h1 : t.nytn ≤ cur) (h2 : cur ≤ 512) :
    t.leader cur = t.leaderScan cur (t.count cur) (t.parent cur) 512 := by
  obtain ⟨e, he⟩ := Option.isSome_iff_exists.1 ((h.alloc cur).2 ⟨h1, h2⟩)
  rw [Tree.leader, he, Tree.count_of_get he, Tree.parent_of_get he]
  rfl

section Walk

variable {t : Tree} {cur : Nat} (w : t.Walking cur)
include w

/-- The leader has the frequency of `cur`, and above it only the parent of `cur` may have it. -/
theorem Tree.Walking.leader_some {l : Nat} (hl : t.leader cur = some l) :
    cur < l ∧ l ≤ 512 ∧ t.parent cur ≠ some l ∧ t.count l = t.count cur ∧
      ∀ k, l < k → k ≤ 512 → t.parent cur ≠ some k → t.count k ≠ t.count cur := by
  have ha := w.above
  rw [w.shape.leader_eq ha.le w.top] at hl
  obtain ⟨h1, h2, h3, h4, h5⟩ := Tree.leaderScan_some hl
  refine ⟨h1, h2, h3.symm, (w.shape.freq_eq_some (by omega) h2 _).1 h4, fun k hk hk2 hp hc => ?_⟩
  exact h5 k hk hk2 hp.symm ((w.shape.freq_eq_some (by omega) hk2 _).2 hc)

/-- Without a leader, above `cur` only its parent may have its frequency. -/
theorem Tree.Walking.leader_none (hl : t.leader cur = none) (k : Nat) (h1 : cur < k) (h2 : k ≤ 512)
    (hp : t.parent cur ≠ some k) : t.count k ≠ t.count cur := by
  have ha := w.above
  rw [w.shape.leader_eq ha.le w.top] at hl
  exact fun hc => Tree.leaderScan_none hl k h1 h2 hp.symm ((w.shape.freq_eq_some (by omega) h2 _).2 hc)

/-- The parent of `cur` counts more than `cur`, unless the other child is the NYT entry. -/
theorem Tree.Walking.parent_gt {p : Nat} (hp : t.parent cur = some p) :
    t.count cur < t.count p ∨ (cur = t.nytn + 1 ∧ p = t.nytn + 2) := by
  have hbound := w.shape.parent_bounds hp
  obtain ⟨l, r, hb, hlr⟩ := (w.shape.child cur p).1 hp
  obtain ⟨rfl, -⟩ := w.shape.pair p l r hb
  have hsum := w.sum p l _ hb
  have hl := w.shape.parent_bounds (w.shape.int_parents hb).1
  have hr := w.shape.parent_bounds (w.shape.int_parents hb).2
  rw [if_neg (by omega)] at hsum
  have ha := w.above
  have hpos : ∀ c, c < p → t.nytn < c → c ≠ cur → 1 ≤ t.count c := fun c h1 h2 h3 =>
    w.pos c h2 (by omega) h3 fun e => by have := Option.some.inj (hp.symm.trans e); omega
  rcases hlr with rfl | rfl
  · have := hpos (cur + 1) (by omega) (by omega) (by omega)
    omega
  · by_cases hnyt : l = t.nytn
    · obtain ⟨h1, -⟩ := w.shape.nyt_sibling (hnyt ▸ (w.shape.int_parents hb).1)
      omega
    · have := hpos l (by omega) (by omega) (by omega)
      omega

/-- The entry `NYTN + 2`, where `cur` stands at it, counts one less than `NYTN + 1`. -/
theorem Tree.Walking.count_at_nytParent (h : cur = t.nytn + 2) : t.count (t.nytn + 1) = t.count cur + 1 := by
  have htop := w.top
  rcases w.shape.nytParent with hroot | hpar
  · omega
  · obtain ⟨-, hb⟩ := w.shape.nyt_sibling hpar
    have hsum := w.sum _ _ _ hb
    rw [if_pos h.symm, w.zero, ← h] at hsum
    omega

/-! ### A visit in place -/

/-- Without a leader, every entry above `cur` counts more, but for the parent of the NYT entry. -/
theorem Tree.Walking.count_gt_of_no_leader (hl : t.leader cur = none) {j : Nat} (h1 : cur < j) (h2 : j ≤ 512) :
    t.count cur < t.count j ∨ (cur = t.nytn + 1 ∧ j = t.nytn + 2 ∧ t.parent cur = some j) := by
  have ha := w.above
  by_cases hp : t.parent cur = some j
  · exact (w.parent_gt hp).imp id fun ⟨h3, h4⟩ => ⟨h3, h4, hp⟩
  · have hne := w.leader_none hl j h1 h2 hp
    have hle := w.order cur j ha.le h1 h2 (by omega)
    omega

/-- Where there is no leader, the increment in place goes on to the parent. -/
theorem Tree.Walking.bump {p : Nat} (hl : t.leader cur = none) (hp : t.parent cur = some p) :
    (t.bump cur).Walking p := by
  have ha := w.above
  have hbound := w.shape.parent_bounds hp
  have hcount := Tree.bump_count ((w.shape.alloc cur).2 ⟨ha.le, w.top⟩)
  refine ⟨w.shape.bump cur, by rw [Tree.bump_nytn]; omega, hbound.2.2, ?_, ?_, ?_, ?_, ?_⟩
  · intro n l r hb
    rw [Tree.bump_body] at hb
    have hsum := w.sum n l r hb
    have hcur : (cur = l ∨ cur = r) ↔ n = p := by
      refine ⟨fun h => w.shape.isChild_unique ⟨l, r, hb, h⟩ ((w.shape.child cur p).1 hp), ?_⟩
      rintro rfl
      obtain ⟨l', r', hb', hlr⟩ := (w.shape.child cur n).1 hp
      cases hb.symm.trans hb'
      exact hlr
    obtain ⟨rfl, -⟩ := w.shape.pair n l r hb
    simp only [hcount]
    split_ifs at hsum ⊢ <;> omega
  · rw [Tree.bump_nytn, hcount, if_neg (by omega), w.zero]
  · intro n h1 h2 h3 h4
    rw [Tree.bump_nytn] at h1
    rw [hcount]
    by_cases hn : n = cur
    · rw [if_pos hn]; omega
    · rw [if_neg hn]
      exact w.pos n h1 h2 hn (by rw [hp]; simpa using Ne.symm h3)
  · intro i j h1 h2 h3 hex
    rw [Tree.bump_nytn] at h1 hex
    rw [hcount, hcount]
    have hij := w.order i j h1 h2 h3
    by_cases hi : i = cur
    · subst hi
      rw [if_pos rfl, if_neg (by omega)]
      rcases w.count_gt_of_no_leader hl h2 h3 with h | ⟨h, h', h''⟩
      · omega
      · exact absurd ⟨h, h', Option.some.inj (h''.symm.trans hp)⟩ hex
    · by_cases hj : j = cur
      · subst hj
        rw [if_neg hi, if_pos rfl]
        by_cases he : i = t.nytn + 1 ∧ j = t.nytn + 2
        · obtain ⟨rfl, hj⟩ := he
          have := w.count_at_nytParent hj
          omega
        · have := hij (by omega)
          omega
      · rw [if_neg hi, if_neg hj]
        exact hij (by omega)
  · rw [hcount, if_neg (by omega)]
    exact w.room

/-! ### A visit with a swap -/

section Leader

variable {l : Nat} (hl : t.leader cur = some l)
include hl

theorem Tree.Walking.leader_pos : 1 ≤ t.count cur := by
  obtain ⟨h1, h2, h3, h4, -⟩ := w.leader_some hl
  have ha := w.above
  have := w.pos l (by omega) h2 (by omega) h3
  omega

theorem Tree.Walking.ne_nytParent : cur ≠ t.nytn + 2 := by
  intro h
  obtain ⟨h1, h2, -, h4, -⟩ := w.leader_some hl
  have := w.count_at_nytParent h
  have := w.order (t.nytn + 1) l (by omega) (by omega) h2 (by omega)
  omega

theorem Tree.Walking.order_of_leader {i j : Nat} (h1 : t.nytn ≤ i) (h2 : i < j) (h3 : j ≤ 512) :
    t.count i ≤ t.count j := by
  have := w.ne_nytParent hl
  exact w.order i j h1 h2 h3 (by omega)

/-- Where there is a leader, the NYT entry alone counts 0. -/
theorem Tree.Walking.pos_of_leader {n : Nat} (h1 : t.nytn < n) (h2 : n ≤ 512) : 1 ≤ t.count n := by
  have hpos := w.leader_pos hl
  rcases Nat.lt_or_ge n cur with h | h
  · refine w.pos n h1 h2 (by omega) fun hp => ?_
    have := w.shape.parent_bounds hp
    omega
  · rcases Nat.eq_or_lt_of_le h with rfl | h
    · exact hpos
    · have := w.order_of_leader hl w.above.le h h2
      omega

theorem Tree.Walking.leader_ne_nytParent : l ≠ t.nytn + 2 := by
  rintro rfl
  obtain ⟨h1, h2, h3, -, -⟩ := w.leader_some hl
  have ha := w.above
  rcases w.shape.nytParent with hroot | hpar
  · omega
  · obtain ⟨-, hb⟩ := w.shape.nyt_sibling hpar
    obtain rfl : cur = t.nytn + 1 := by omega
    exact h3 (w.shape.int_parents hb).2

/-- The children of the leader lie below `cur`: one at or above `cur` would leave its sibling a count of 0, which only
the NYT entry has. -/
theorem Tree.Walking.leader_children_below {c : Nat} (hc : t.IsChild c l) : c < cur := by
  obtain ⟨h1, h2, h3, h4, -⟩ := w.leader_some hl
  refine Classical.byContradiction fun hge => ?_
  have hne : c ≠ cur := fun e => h3 (e ▸ (w.shape.child c l).2 hc)
  have hcl := w.shape.isChild_bounds hc
  have hle := w.order_of_leader hl w.above.le (show cur < c by omega) (by omega)
  obtain ⟨x, y, hb, hxy⟩ := hc
  have hsum := w.sum l x y hb
  have hx := w.shape.parent_bounds (w.shape.int_parents hb).1
  have hy := w.shape.parent_bounds (w.shape.int_parents hb).2
  obtain ⟨rfl, -⟩ := w.shape.pair l x y hb
  rw [if_neg (by omega)] at hsum
  have hpos := w.pos_of_leader hl (n := x + 1) (by omega) (by omega)
  by_cases hnyt : x = t.nytn
  · exact w.leader_ne_nytParent hl (w.shape.nyt_sibling (hnyt ▸ (w.shape.int_parents hb).1)).1
  · have := w.pos_of_leader hl (n := x) (by omega) (by omega)
    rcases hxy with rfl | rfl <;> omega

theorem Tree.Walking.leader_ne_root : l ≠ 512 := by
  rintro rfl
  obtain ⟨h1, -⟩ := w.leader_some hl
  have ha := w.above
  obtain ⟨p, hp⟩ := w.shape.hangs 511 (by omega) (by omega)
  have hb := w.shape.parent_bounds hp
  obtain rfl : p = 512 := by omega
  have := w.leader_children_below hl ((w.shape.child 511 512).1 hp)
  omega

theorem Tree.Walking.swappable : t.Swappable cur l := by
  obtain ⟨h1, h2, -⟩ := w.leader_some hl
  have ha := w.above
  refine ⟨h1.ne, ⟨ha, w.top⟩, ⟨by omega, h2⟩, w.ne_nytParent hl, w.leader_ne_nytParent hl, fun c hc => ?_,
    fun c hc => w.leader_children_below hl hc⟩
  have := w.shape.isChild_bounds hc
  omega

/-- The swap with the leader exchanges equal frequencies, so only the increment changes the counts. -/
theorem Tree.Walking.swap_bump_count (m : Nat) :
    ((t.swap cur l).bump l).count m = t.count m + if m = l then 1 else 0 := by
  obtain ⟨h1, -, -, h4, -⟩ := w.leader_some hl
  have hs := w.swappable hl
  have ha := hs.allocLeft w.shape
  have hb := hs.allocRight w.shape
  rw [Tree.bump_count (by rw [Tree.swap_isSome ha hb]; exact hb), Tree.swap_count ha hb]
  congr 1
  split_ifs with h5 h6
  · rw [h5, h4]
  · rw [h6, h4]
  · rfl

/-- Above the leader every entry counts more. -/
theorem Tree.Walking.count_gt_leader {j : Nat} (h1 : l < j) (h2 : j ≤ 512) : t.count l < t.count j := by
  obtain ⟨hcl, hl2, -, h4, h5⟩ := w.leader_some hl
  have ha := w.above
  have hle := w.order_of_leader hl (show t.nytn ≤ l by omega) h1 h2
  by_cases hp : t.parent cur = some j
  · rcases w.parent_gt hp with h | h
    · omega
    · omega
  · have := h5 j h1 h2 hp
    omega

theorem Tree.Walking.swap_parent {p : Nat} (hp : t.parent l = some p) : (t.swap cur l).parent l = some p := by
  obtain ⟨h1, -⟩ := w.leader_some hl
  have hb := w.shape.parent_bounds hp
  rw [(w.swappable hl).parent w.shape, if_neg (by omega), if_neg (by omega), ← w.shape.child, hp]

/-- Where there is a leader, the swap and the increment at it go on to its parent. -/
theorem Tree.Walking.swap_bump {p : Nat} (hp : t.parent l = some p) : ((t.swap cur l).bump l).Walking p := by
  obtain ⟨h1, h2, h3, h4, -⟩ := w.leader_some hl
  have ha := w.above
  have hs := w.swappable hl
  have hbound := w.shape.parent_bounds hp
  have hcount := w.swap_bump_count hl
  have hnytn : ((t.swap cur l).bump l).nytn = t.nytn := by simp
  refine ⟨(hs.shape w.shape).bump l, by rw [hnytn]; omega, hbound.2.2, ?_, ?_, ?_, ?_, ?_⟩
  · intro n x y hb
    rw [Tree.bump_body, Tree.swap_body (hs.allocLeft w.shape) (hs.allocRight w.shape)] at hb
    rw [hcount, hcount, hcount]
    split_ifs at hb with hn hn'
    · have hsum := w.sum cur x y hb
      have hx := hs.leftC x ⟨x, y, hb, .inl rfl⟩
      have hy := hs.leftC y ⟨x, y, hb, .inr rfl⟩
      subst hn
      rw [if_pos rfl] at hsum
      rw [if_neg hx.ne, if_neg hy.ne, if_pos rfl, if_neg hbound.2.1.ne]
      omega
    · have hsum := w.sum l x y hb
      have hx := hs.rightC x ⟨x, y, hb, .inl rfl⟩
      have hy := hs.rightC y ⟨x, y, hb, .inr rfl⟩
      subst hn'
      rw [if_neg h1.ne'] at hsum
      rw [if_neg (by omega), if_neg (by omega), if_neg hn, if_neg (by omega)]
      omega
    · have hsum := w.sum n x y hb
      have hlp : (l = x ∨ l = y) ↔ n = p := by
        refine ⟨fun h => w.shape.isChild_unique ⟨x, y, hb, h⟩ ((w.shape.child l p).1 hp), ?_⟩
        rintro rfl
        obtain ⟨x', y', hb', hxy⟩ := (w.shape.child l n).1 hp
        cases hb.symm.trans hb'
        exact hxy
      obtain ⟨rfl, -⟩ := w.shape.pair n x y hb
      rw [if_neg hn'] at hsum
      split_ifs <;> omega
  · rw [hnytn, hcount, if_neg (by omega), w.zero]
  · intro n h5 h6 _ _
    have := w.pos_of_leader hl (hnytn ▸ h5) h6
    rw [hcount]
    omega
  · intro i j h5 h6 h7 _
    rw [hnytn] at h5
    have hij := w.order_of_leader hl h5 h6 h7
    rw [hcount, hcount]
    by_cases hi : i = l
    · subst hi
      have := w.count_gt_leader hl h6 h7
      rw [if_pos rfl, if_neg h6.ne']
      omega
    · rw [if_neg hi]
      omega
  · rw [hcount, if_neg (Ne.symm (w.leader_ne_root hl))]
    exact w.room

end Leader

/-! ### The whole walk -/

/-- A visit below the root goes on to an entry above. -/
theorem Tree.Walking.visit (hc : cur ≠ 512) :
    ∃ p, (t.visit cur).1.parent (t.visit cur).2 = some p ∧ cur < p ∧ (t.visit cur).1.Walking p := by
  have ha := w.above
  have htop := w.top
  rcases t.visit_cases cur with ⟨l, hl, hv⟩ | ⟨hl, hv⟩
  · obtain ⟨h1, h2, -⟩ := w.leader_some hl
    have hroot := w.leader_ne_root hl
    obtain ⟨p, hp⟩ := w.shape.hangs l (by omega) (by omega)
    have hb := w.shape.parent_bounds hp
    rw [hv]
    exact ⟨p, by simpa using w.swap_parent hl hp, by omega, w.swap_bump hl hp⟩
  · obtain ⟨p, hp⟩ := w.shape.hangs cur (by omega) (by omega)
    have hb := w.shape.parent_bounds hp
    rw [hv]
    exact ⟨p, by simpa using hp, hb.2.1, w.bump hl hp⟩

end Walk

/-- The walk reaches the root before its rounds run out, because each visit goes on to a higher number. -/
theorem Tree.Walking.walk {k cur : Nat} {t : Tree} (w : t.Walking cur) (hk : 512 < cur + k) :
    (Tree.walk k cur t).Walking 512 := by
  induction k generalizing cur t with
  | zero => have := w.top; omega
  | succ k ih =>
    unfold Tree.walk
    split
    · next hroot => exact (show cur = 512 from hroot) ▸ w
    · next hroot =>
      obtain ⟨p, hp, hlt, w'⟩ := w.visit hroot
      rw [hp]
      exact ih w' (by omega)

/-- The last increment, of the root, completes the update. -/
theorem Tree.Walking.inv_bump_root {t : Tree} (w : t.Walking 512) : (t.bump rootNum).Inv := by
  have ha := w.above
  have hcount := Tree.bump_count ((w.shape.alloc 512).2 ⟨ha.le, le_refl _⟩)
  have hroot := w.shape.root_parent
  have hroom := w.room
  have horder : ∀ i j, t.nytn ≤ i → i < j → j ≤ 512 → (t.bump 512).count i ≤ (t.bump 512).count j := by
    intro i j h1 h2 h3
    rw [hcount, hcount]
    by_cases hex : i = t.nytn + 1 ∧ j = t.nytn + 2 ∧ j = 512
    · obtain ⟨rfl, hj, hj'⟩ := hex
      have := w.count_at_nytParent (hj' ▸ hj)
      rw [if_neg (by omega), if_pos hj', hj']
      omega
    · have := w.order i j h1 h2 h3 hex
      split_ifs <;> omega
  refine (w.shape.bump 512).inv ⟨?_, ?_, ?_, by simpa using horder, ?_⟩
  · intro n l r hb
    rw [Tree.bump_body] at hb
    have hsum := w.sum n l r hb
    have hl := w.shape.parent_bounds (w.shape.int_parents hb).1
    have hr := w.shape.parent_bounds (w.shape.int_parents hb).2
    rw [hcount, hcount, hcount, hsum.symm, if_neg (by omega), if_neg (by omega)]
    omega
  · rw [Tree.bump_nytn, hcount, if_neg (by omega), w.zero]
  · intro n h1 h2
    rw [Tree.bump_nytn] at h1
    rw [hcount]
    by_cases hn : n = 512
    · rw [if_pos hn]; omega
    · have := w.pos n h1 h2 hn (by rw [hroot]; simp)
      omega
  · intro n
    by_cases hn : t.nytn ≤ n ∧ n ≤ 512
    · have h512 := hcount 512
      rw [if_pos rfl] at h512
      rcases Nat.eq_or_lt_of_le hn.2 with rfl | hlt
      · omega
      · have := horder n 512 hn.1 hlt (le_refl _)
        omega
    · have hnone : Table.get (t.bump 512).node n = none := by
        rw [← Option.not_isSome_iff_eq_none, Tree.bump_isSome, w.shape.alloc]
        exact hn
      rw [Tree.count, Tree.freq, hnone]
      exact Nat.zero_le _

/-! ### The start of the walk, and `update` -/

section Start

variable {t : Tree} (h : t.Inv) (hroom : t.count 512 < freqMax)
include h hroom

/-- The walk of a seen symbol starts at its leaf. -/
theorem Tree.Inv.walking_leaf {s : Byte} {n : Nat} (hn : t.leafNum s = some n) : t.Walking n := by
  have hs := h.shape
  have hw := h.weighted
  have hb := (hs.leaf n s).2 hn
  have hbound := hs.body_bounds hb
  have hne : n ≠ t.nytn := fun e => by rw [(hs.nyt n).2 e] at hb; cases hb
  refine ⟨hs, by omega, hbound.2, fun m l r hint => ?_, hw.zero, fun m h1 h2 _ _ => hw.pos m h1 h2,
    fun i j h1 h2 h3 _ => hw.order i j h1 h2 h3, hroom⟩
  have hmn : m ≠ n := fun e => by rw [e, hb] at hint; cases hint
  rw [if_neg hmn, hw.sum m l r hint, Nat.add_zero]

/-- The walk of an unseen symbol starts at the new leaf. -/
theorem Tree.Inv.walking_split {s : Byte} (hn : t.leafNum s = none) : (t.split s).Walking (t.nytn - 1) := by
  have hs := h.shape
  have hw := h.weighted
  have h2 := hs.two_le_nytn hn
  have hle := hs.nytn_le
  have hcount := hs.split_count h2 s
  have hfree : ∀ m, m < t.nytn → t.count m = 0 := fun m hm => by
    rw [Tree.count, Tree.freq, hs.not_alloc hm]; rfl
  have hlow : ∀ m, m ≤ t.nytn → t.count m = 0 := fun m hm => by
    rcases Nat.eq_or_lt_of_le hm with rfl | hm
    · exact hw.zero
    · exact hfree m hm
  have hnytn := hs.split_nytn s
  refine ⟨hs.split hn, by omega, by omega, ?_, ?_, ?_, ?_, ?_⟩
  · intro m l r hb
    simp only [hcount]
    rw [hs.split_body] at hb
    split_ifs at hb with h3 h4 h5
    · cases hb
    · cases hb
    · cases hb
      rw [hlow _ (by omega), hlow _ (by omega), hlow _ (by omega), if_neg h3]
    · rw [if_neg h3, hw.sum m l r hb, Nat.add_zero]
  · rw [hcount, hlow _ (by omega)]
  · intro m h3 h4 h5 h6
    rw [hs.split_parent h2, if_pos (.inl rfl)] at h6
    rw [hcount]
    have hne : t.nytn ≠ m := fun e => h6 (congrArg some e)
    exact hw.pos m (by omega) h4
  · intro i j h3 h4 h5 _
    rw [hcount, hcount]
    rcases Nat.lt_or_ge t.nytn i with hi | hi
    · exact hw.order i j hi.le h4 h5
    · rw [hlow i hi]
      exact Nat.zero_le _
  · rw [hcount]
    exact hroom

/-- The tree with the symbol's leaf, walked from it, satisfies the invariant again. -/
theorem Tree.Inv.promote_withLeaf (s : Byte) : ((t.withLeaf s).promote s).Inv := by
  have hstart : ∃ n, (t.withLeaf s).leafNum s = some n ∧ (t.withLeaf s).Walking n := by
    unfold Tree.withLeaf
    split
    · next hn => exact ⟨_, by rw [h.shape.split_leafNum, if_pos rfl], h.walking_split hroom hn⟩
    · next n hn => exact ⟨n, hn, h.walking_leaf hroom hn⟩
  obtain ⟨n, hn, w⟩ := hstart
  rw [Tree.promote, hn]
  exact (w.walk (by simp only [nodeSlots]; have := w.above; omega)).inv_bump_root

end Start

/-- `update` keeps the invariant of the tree (40_aht.md R133, R140). -/
theorem Tree.Inv.update {t u : Tree} (h : t.Inv) {s : Byte} (hu : t.update s = some u) : u.Inv := by
  have hle := h.weighted.width 512
  have hfull : t.count 512 ≠ freqMax := fun he => by
    have hnone : t.update s = none :=
      (t.update_eq_none s).2 ((h.shape.freq_eq_some h.shape.nytn_le (le_refl _) _).2 he)
    rw [hnone] at hu
    cases hu
  rw [Tree.update_eq_some hu]
  exact h.promote_withLeaf (by omega) s

/-- The fresh tree satisfies the invariant (10_state.md R31, R37). -/
theorem Tree.fresh_inv : Tree.fresh.Inv := (Tree.inv_iff _).2 (by decide)

end Sys2Proof.Machine

/-! ## What the parts of a command keep, the command keeps -/

namespace Sys2Proof.Machine

/-- The state a run has reached satisfies `G` where the run goes on, and `E` where a raise has ended it. -/
def Run.Ends (G E : State → Prop) : Run → Prop
  | .going s => G s
  | .ended s => E s

theorem Run.Ends.andThen {G H E : State → Prop} {r : Run} {f : State → Run} (hr : r.Ends G E)
    (hf : ∀ s, G s → (f s).Ends H E) : (r.andThen f).Ends H E := by
  cases r with
  | going s => exact hf s hr
  | ended s => exact hr

theorem Run.Ends.state {G E : State → Prop} {r : Run} (hr : r.Ends G E) : G r.state ∨ E r.state := by
  cases r with
  | going s => exact .inl hr
  | ended s => exact .inr hr

/-- The parts of command `i`, each with the commands that have it: `G` holds before and after every part that completes,
and `E` after every raise. -/
structure Keeps (i : Instr) (G E : State → Prop) : Prop where
  raise   : ∀ k info s, mayRaise i k info = true → G s → E (s.raise k info)
  full    : ∀ p s, writesObuf i = true → G s → E (s.packerFull p)
  store   : ∀ v s, writesObuf i = true → G s → s.packer.olen.toNat < s.build.obufCap.toNat → G { s with
    obuf := Table.set s.obuf s.packer.olen.toNat v, packer := { s.packer with olen := s.packer.olen + 1 } }
  byte    : ∀ v s, writesObuf i = true → G s → s.packer.olen.toNat < s.build.obufCap.toNat → G { s with
    obuf := Table.set s.obuf s.packer.olen.toNat v, packer := ⟨s.packer.olen + 1, 0, 0⟩ }
  bit     : ∀ b s, writesObuf i = true → G s → s.packer.bpcnt ≠ 7 → G { s with
    packer := { s.packer with bpacc := s.packer.accWith b, bpcnt := s.packer.bpcnt + 1 } }
  restart : ∀ s, checksInput i = true ∨ i = .bpInit → G s → G s.restartOutput
  fresh   : ∀ s, i = .htInit ∨ i = .htEncbuf ∨ i = .htDecbuf → G s → G s.freshTree
  update  : ∀ v t s, updatesTree i = true → G s → s.tree.update v = some t → G { s with tree := t }
  rewind  : ∀ s, i = .buInit ∨ i = .htDecbuf → G s → G s.rewindInput
  cursor  : ∀ s, i = .htDec ∨ i = .htDecbuf ∨ (∃ n, i = .buGet n) → G s →
    s.unpacker.ipos.toNat < s.inputEnd → G { s with unpacker := s.unpacker.next }
  result  : ∀ v s, i = .htDec ∨ (∃ n, i = .buGet n) → G s → G (s.setResult v)
  forward : ∀ bs h s, i = .abrEnc1 ∨ i = .abrEnc → G s → G (s.setForward bs h)
  reverse : ∀ h o s, i = .abrDec → G s → abrParse s = some h → h.W * h.H ≤ s.build.obufCap.toNat →
    abrBlocks h h.blocks 0 (abrFixedHeader + h.dirBytes) s = .going { s with obuf := o } →
    G ({ s with obuf := o }.setReverse h)

section Parts

variable {i : Instr} {G E : State → Prop} (c : Keeps i G E)
include c

theorem Keeps.raiseRun {k : ErrKind} {info : Word} (hk : mayRaise i k info = true) {s : State} (h : G s) :
    (Run.ended (s.raise k info)).Ends G E := c.raise k info s hk h

/-! ### Output -/

theorem Keeps.emit (hi : writesObuf i = true) (v : Byte) {s : State} (h : G s) : (emit v s).Ends G E := by
  rcases emit_cases v s with ⟨hlt, he⟩ | ⟨-, he⟩ <;> rw [he]
  · exact c.store v s hi h hlt
  · exact c.raiseRun (by simp [mayRaise, hi]) h

theorem Keeps.emitAll (hi : writesObuf i = true) (vs : List Byte) {s : State} (h : G s) :
    (emitAll vs s).Ends G E := by
  induction vs generalizing s with
  | nil => exact h
  | cons v vs ih => exact (c.emit hi v h).andThen fun t ht => ih ht

theorem Keeps.putBit (hi : writesObuf i = true) (b : Bool) {s : State} (h : G s) :
    (putBit b s).Ends G E := by
  rcases putBit_cases b s with ⟨h7, he⟩ | ⟨-, hlt, he⟩ | ⟨-, -, he⟩ <;> rw [he]
  · exact c.bit b s hi h h7
  · exact c.byte _ s hi h hlt
  · exact c.full ⟨0, s.packer.accWith b, Config.freePackerCount s.obufEpoch⟩ s hi h

theorem Keeps.putBits (hi : writesObuf i = true) (bs : List Bool) {s : State} (h : G s) :
    (putBits bs s).Ends G E := by
  induction bs generalizing s with
  | nil => exact h
  | cons b bs ih => exact (c.putBit hi b h).andThen fun t ht => ih ht

theorem Keeps.flush (hi : writesObuf i = true) {s : State} (h : G s) : (flush s).Ends G E := by
  rcases flush_cases s with ⟨-, he⟩ | ⟨-, hlt, he⟩ | ⟨-, -, he⟩ <;> rw [he]
  · exact h
  · exact c.byte _ s hi h hlt
  · exact c.raiseRun (by simp [mayRaise, hi]) h

/-- The opening of the commands that check `ILEN`. -/
theorem Keeps.withInput (hi : checksInput i = true) {s : State} (h : G s) {f : State → Run}
    (hf : ∀ t, G t → (f t).Ends G E) : (withInput s f).Ends G E := by
  rcases withInput_cases s f with ⟨-, he⟩ | ⟨-, he⟩ <;> rw [he]
  · exact c.raiseRun (by simp [mayRaise, hi]) h
  · exact hf _ (c.restart s (.inl hi) h)

/-! ### Input -/

section Cursor

variable (hi : i = .htDec ∨ i = .htDecbuf ∨ ∃ n, i = .buGet n)
include hi

theorem Keeps.getBit {s : State} (h : G s) : G (getBit s).2 := by
  rcases getBit_cases s with ⟨-, he⟩ | ⟨hlt, he⟩ <;> rw [he]
  · exact h
  · exact c.cursor s hi h hlt

theorem Keeps.getBits (n v : Nat) {s : State} (h : G s) : G (getBits n v s).2 := by
  induction n generalizing v s with
  | zero => exact h
  | succ n ih =>
    have hbit := c.getBit hi h
    unfold Machine.getBits
    split
    · next heq => rw [heq] at hbit; exact hbit
    · next heq => rw [heq] at hbit; exact ih _ hbit

theorem Keeps.decodeLiteral {s : State} (h : G s) : G (decodeLiteral s).2 := by
  have hbits := c.getBits hi 8 0 h
  unfold Machine.decodeLiteral
  split <;> next heq => rw [heq] at hbits; exact hbits

theorem Keeps.decodeFrom (k n : Nat) {s : State} (h : G s) : G (decodeFrom k n s).2 := by
  induction k generalizing n s with
  | zero => exact h
  | succ k ih =>
    have hbit := c.getBit hi h
    unfold Machine.decodeFrom
    split
    · split
      · next heq => rw [heq] at hbit; exact hbit
      · next heq => rw [heq] at hbit; exact ih _ hbit
    · exact h
    · exact c.decodeLiteral hi h
    · exact c.decodeLiteral hi h

theorem Keeps.decodeSymbol {s : State} (h : G s) : G (decodeSymbol s).2 := c.decodeFrom hi _ _ h

end Cursor

/-! ### The tree and the session commands -/

theorem Keeps.updateTree (hi : updatesTree i = true) (v : Byte) {s : State} (h : G s) :
    (updateTree v s).Ends G E := by
  rcases updateTree_cases v s with ⟨t, ht, he⟩ | ⟨-, he⟩ <;> rw [he]
  · exact c.update v t s hi h ht
  · exact c.raiseRun (by simp [mayRaise, hi]) h

theorem Keeps.encodeLoop (hw : writesObuf i = true) (hu : updatesTree i = true) (k j : Nat) {s : State}
    (h : G s) : (encodeLoop k j s).Ends G E := by
  induction k generalizing j s with
  | zero => exact h
  | succ k ih =>
    exact (c.putBits hw _ h).andThen fun t ht => (c.updateTree hu _ ht).andThen fun u hu => ih _ hu

theorem Keeps.decodeLoop (hi : i = .htDecbuf) (k j : Nat) {s : State} (h : G s) :
    (decodeLoop k j s).Ends G E := by
  induction k generalizing j s with
  | zero => exact h
  | succ k ih =>
    have hsym := c.decodeSymbol (.inr (.inl hi)) h
    unfold Machine.decodeLoop
    split
    · next t heq => rw [heq] at hsym; exact c.raiseRun (by simp [mayRaise, hi]) hsym
    · next v t heq =>
      rw [heq] at hsym
      exact (c.emit (by simp [writesObuf, hi]) v hsym).andThen fun u hu =>
        (c.updateTree (by simp [updatesTree, hi]) v hu).andThen fun w hw => ih _ hw

theorem Keeps.checkAllUsed (hi : i = .htDecbuf) {s : State} (h : G s) : (checkAllUsed s).Ends G E := by
  unfold Machine.checkAllUsed
  split
  · exact c.raiseRun (by simp [mayRaise, hi]) h
  · exact h

/-! ### The block commands -/

theorem Keeps.abrEnc1Body (hi : i = .abrEnc1) {s : State} (h : G s) : (abrEnc1Body s).Ends G E := by
  unfold Machine.abrEnc1Body
  dsimp only
  split
  · exact c.raiseRun (by simp [mayRaise, hi]) h
  · exact (c.emitAll (by simp [writesObuf, hi]) _ h).andThen fun t ht => c.forward _ _ t (.inl hi) ht

theorem Keeps.abrEncBody (hi : i = .abrEnc) {s : State} (h : G s) : (abrEncBody s).Ends G E := by
  have hdims : mayRaise i .invalidDimensions 0 = true := by simp [mayRaise, hi]
  unfold Machine.abrEncBody
  dsimp only
  split
  · exact c.raiseRun hdims h
  · split
    · exact c.raiseRun hdims h
    · split
      · exact c.raiseRun hdims h
      · exact (c.emitAll (by simp [writesObuf, hi]) _ h).andThen fun t ht => c.forward _ _ t (.inr hi) ht

theorem Keeps.abrDecBody (hi : i = .abrDec) {s : State} (h : G s) : (abrDecBody s).Ends G E := by
  unfold Machine.abrDecBody
  split
  · exact c.raiseRun (by simp [mayRaise, hi]) h
  · next hd hparse =>
    split
    · exact c.raiseRun (by simp [mayRaise, writesObuf, hi]) h
    · next hfit =>
      rcases abrBlocks_cases hd hd.blocks 0 (abrFixedHeader + hd.dirBytes) s with ⟨o, he⟩ | ⟨k, info, he, hk⟩
      · rw [he]
        exact c.reverse hd o s hi h hparse (by omega) he
      · rw [he]
        exact c.raiseRun (by rcases hk with rfl | rfl | rfl <;> simp [mayRaise, hi]) h

/-! ### Every command -/

/-- What all its parts keep, a command other than `SRST` keeps. -/
theorem Keeps.exec (hi : i ≠ .srst) {s t : State} (h : G s) (ht : exec i s = .next t) : G t ∨ E t := by
  have run : ∀ {r : Run}, r.outcome = .next t → r.Ends G E → G t ∨ E t := fun hr hends => by
    rw [Run.outcome_eq] at hr
    cases hr
    exact hends.state
  cases i with
  | nop => cases ht; exact .inl h
  | srst => exact absurd rfl hi
  | htInit => cases ht; exact .inl (c.fresh s (.inl rfl) h)
  | htEnc sym => exact run ht (c.putBits rfl _ h)
  | htUpd sym => exact run ht (c.updateTree rfl sym h)
  | htDec => cases ht; exact .inl (c.result _ _ (.inl rfl) (c.decodeSymbol (.inl rfl) h))
  | htEncbuf =>
    exact run ht (c.withInput rfl h fun u hu =>
      (c.encodeLoop rfl rfl _ _ (c.fresh u (.inr (.inl rfl)) hu)).andThen fun v hv => c.flush rfl hv)
  | htDecbuf =>
    exact run ht (c.withInput rfl h fun u hu =>
      (c.decodeLoop rfl _ _ (c.rewind _ (.inr rfl) (c.fresh u (.inr (.inr rfl)) hu))).andThen fun v hv =>
        c.checkAllUsed rfl hv)
  | bpInit => cases ht; exact .inl (c.restart s (.inr rfl) h)
  | bpPut n val => exact run ht (c.putBits rfl _ h)
  | bpFlush => exact run ht (c.flush rfl h)
  | buInit => cases ht; exact .inl (c.rewind s (.inl rfl) h)
  | buGet n =>
    have hbits := c.getBits (.inr (.inr ⟨n, rfl⟩)) n.toNat 0 h
    change execBuGet n s = .next t at ht
    unfold execBuGet at ht
    split at ht <;> next heq =>
      cases ht
      rw [heq] at hbits
      exact .inl (c.result _ _ (.inr ⟨n, rfl⟩) hbits)
  | rleEnc => exact run ht (c.withInput rfl h fun u hu => c.emitAll rfl _ hu)
  | rleDec => exact run ht (c.withInput rfl h fun u hu => c.emitAll rfl _ hu)
  | abrEnc1 => exact run ht (c.withInput rfl h fun u hu => c.abrEnc1Body rfl hu)
  | abrEnc => exact run ht (c.withInput rfl h fun u hu => c.abrEncBody rfl hu)
  | abrDec => exact run ht (c.withInput rfl h fun u hu => c.abrDecBody rfl hu)

end Parts

end Sys2Proof.Machine

/-! ## The invariant of the tree over every step -/

namespace Sys2Proof.Machine

/-- Every part of every command keeps the invariant of the tree: only `update` and the fresh tree change it. -/
theorem keeps_treeInv (i : Instr) : Keeps i (fun s => s.tree.Inv) (fun s => s.tree.Inv) where
  raise _ _ _ _ h := h
  full _ _ _ h := h
  store _ _ _ h _ := h
  byte _ _ _ h _ := h
  bit _ _ _ h _ := h
  restart _ _ h := h
  fresh _ _ _ := Tree.fresh_inv
  update _ _ _ _ h hu := h.update hu
  rewind _ _ h := h
  cursor _ _ h _ := h
  result _ _ _ h := h
  forward _ _ _ _ h := h
  reverse _ _ _ _ h _ _ _ := h

theorem exec_treeInv {i : Instr} {s t : State} (h : s.tree.Inv) (ht : exec i s = .next t) : t.tree.Inv := by
  by_cases hi : i = .srst
  · subst hi; cases ht; exact Tree.fresh_inv
  · exact ((keeps_treeInv i).exec hi h ht).elim id id

/-- A host move changes the tree through a command or a reset only. -/
theorem MoveResult.treeInv {s t : State} (hm : MoveResult s t) (h : s.tree.Inv) : t.tree.Inv := by
  cases hm with
  | reset => exact Tree.fresh_inv
  | same => exact h
  | reply v => exact h
  | register r v => rw [State.writeReg_eq]; exact h
  | input j v hj => exact h
  | illegal w hf e he => exact h
  | command w i u hf hi hu => exact exec_treeInv (s := s.begin) (t := u) h hu

/-- Settles O57: `update` keeps shape, sums and sibling order of the tree through its walk, and every other part of a
step leaves the tree or makes it fresh. -/
theorem treeInvariantKept : Obligations.TreeInvariantKept := by
  intro s t h ht
  rcases step_cases ht with ⟨-, rfl⟩ | ⟨-, hm⟩
  · exact h
  · exact hm.treeInv h

/-! ## The writers of the result registers -/

/-- A predicate of the result registers is kept by every part but the ones that report a symbol, a forward or a reverse
block transform. -/
theorem keeps_results {i : Instr} {P : Results → Prop}
    (hresult : i = .htDec ∨ (∃ n, i = .buGet n) → ∀ r v e, P r → P { r with val := v, eos := e })
    (hforward : i = .abrEnc1 ∨ i = .abrEnc → ∀ r b h, P r → P { r with selbs := b, outh := h })
    (hreverse : i = .abrDec → ∀ r w h b, P r → P { r with outw := w, outh := h, selbs := b }) :
    Keeps i (fun s => P s.results) (fun s => P s.results) where
  raise _ _ _ _ h := h
  full _ _ _ h := h
  store _ _ _ h _ := h
  byte _ _ _ h _ := h
  bit _ _ _ h _ := h
  restart _ _ h := h
  fresh _ _ h := h
  update _ _ _ _ h _ := h
  rewind _ _ h := h
  cursor _ _ h _ := h
  result _ _ hi h := hresult hi _ _ _ h
  forward _ _ _ hi h := hforward hi _ _ _ h
  reverse _ _ _ hi h _ _ _ := hreverse hi _ _ _ _ h

/-- Settles O53: each of the three groups of registers is a predicate of the results that the parts of all commands but
its writers keep. -/
theorem resultsWrittenOnlyByTheirCommands : Obligations.ResultsWrittenOnlyByTheirCommands := by
  intro i s t ht hsrst
  refine ⟨fun hdec hget => ?_, fun henc1 henc hdec => ?_, fun hdec => ?_⟩
  · have hk : Keeps i (fun u => u.results.val = s.results.val ∧ u.results.eos = s.results.eos) _ :=
      keeps_results (P := fun r => r.val = s.results.val ∧ r.eos = s.results.eos)
        (fun hi => absurd hi (not_or.2 ⟨hdec, not_exists.2 hget⟩)) (fun _ _ _ _ h => h) (fun _ _ _ _ _ h => h)
    exact (hk.exec hsrst ⟨rfl, rfl⟩ ht).elim id id
  · have hk : Keeps i (fun u => u.results.selbs = s.results.selbs ∧ u.results.outh = s.results.outh) _ :=
      keeps_results (P := fun r => r.selbs = s.results.selbs ∧ r.outh = s.results.outh)
        (fun _ _ _ _ h => h) (fun hi => absurd hi (not_or.2 ⟨henc1, henc⟩)) (fun hi => absurd hi hdec)
    exact (hk.exec hsrst ⟨rfl, rfl⟩ ht).elim id id
  · have hk : Keeps i (fun u => u.results.outw = s.results.outw) _ :=
      keeps_results (P := fun r => r.outw = s.results.outw)
        (fun _ _ _ _ h => h) (fun _ _ _ _ h => h) (fun hi => absurd hi hdec)
    exact (hk.exec hsrst rfl ht).elim id id

/-! ## The reset state -/

/-- Settles O14: the registers of the reset state one by one, its only tree entry, and the step with no move pending. -/
theorem resetStateIsIdle : Obligations.ResetStateIsIdle := by
  refine ⟨fun r => by cases r <;> rfl, by decide, fun n hn => ?_, fun v => rfl, rfl, rfl, fun s hs => ?_⟩
  · exact if_neg (Ne.symm hn)
  · simp [step, hs]

/-- A state whose registers have their reset values satisfies the invariant if its buffers do. -/
theorem State.inv_of_reset {s : State} (hlatch : s.latch = Latch.reset) (hpacker : s.packer = Packer.reset)
    (hunpacker : s.unpacker = Unpacker.reset) (hresults : s.results = Results.reset) (ibufWf : Memory.wf s.ibuf)
    (obufWf : Memory.wf s.obuf) (ibufIn : ∀ x ∈ s.ibuf, x.1 < s.build.ibufCap.toNat)
    (obufIn : ∀ x ∈ s.obuf, x.1 < s.build.obufCap.toNat) : s.Inv where
  idle := by rw [hlatch]; rfl
  latch := by rw [hlatch]; exact .inl ⟨rfl, rfl, rfl⟩
  faulted := by rw [hlatch]; nofun
  clean _ := by rw [hpacker]; decide
  fits := by rw [hpacker]; exact Nat.zero_le _
  written i hi := by rw [hpacker] at hi; exact absurd hi (Nat.not_lt_zero i)
  ibufWf := ibufWf
  obufWf := obufWf
  ibufIn := ibufIn
  obufIn := obufIn
  cursor := by rw [hunpacker]; exact Nat.zero_le _
  endResult _ := by rw [hresults]; rfl

theorem State.reset_inv : State.reset.Inv :=
  State.inv_of_reset rfl rfl rfl rfl Memory.nil_wf Memory.nil_wf nofun nofun

/-- Settles O58: nothing is stored or latched after reset, and the fresh tree is a tree of R31. -/
theorem resetHasInvariants : Obligations.ResetHasInvariants := ⟨State.reset_inv, Tree.fresh_inv⟩

end Sys2Proof.Machine

/-! ## The blocks of a matrix cover it -/

namespace Sys2Proof.Machine

theorem le_cdiv_mul (a : Nat) {b : Nat} (hb : b ≠ 0) : a ≤ cdiv a b * b := by
  have hdiv := Nat.div_add_mod' a b
  have hlt := Nat.mod_lt a (Nat.pos_of_ne_zero hb)
  unfold cdiv
  split
  · rw [Nat.add_mul]; omega
  · rw [Nat.add_zero]; omega

theorem div_lt_cdiv {x a b : Nat} (hb : b ≠ 0) (hx : x < a) : x / b < cdiv a b :=
  (Nat.div_lt_iff_lt_mul (Nat.pos_of_ne_zero hb)).2 (hx.trans_le (le_cdiv_mul a hb))

theorem Tile.mem_indices (b : Tile) (W : Nat) (dir : Bool) (i : Nat) :
    i ∈ b.indices W dir ↔ ∃ r c, r < b.h ∧ c < b.w ∧ b.index W r c = i := by
  cases dir
  · simp only [Tile.indices, Tile.verIndices, Bool.false_eq_true, if_false, List.mem_flatMap, List.mem_map,
      List.mem_range]
    exact ⟨fun ⟨c, hc, r, hr, e⟩ => ⟨r, c, hr, hc, e⟩, fun ⟨r, c, hr, hc, e⟩ => ⟨c, hc, r, hr, e⟩⟩
  · simp only [Tile.indices, Tile.horIndices, if_true, List.mem_flatMap, List.mem_map, List.mem_range]
    exact ⟨fun ⟨r, hr, c, hc, e⟩ => ⟨r, c, hr, hc, e⟩, fun ⟨r, c, hr, hc, e⟩ => ⟨r, hr, c, hc, e⟩⟩

theorem Tile.length_indices (b : Tile) (W : Nat) (dir : Bool) : (b.indices W dir).length = b.w * b.h := by
  cases dir
  · simp [Tile.indices, Tile.verIndices, List.length_flatMap]
  · simp [Tile.indices, Tile.horIndices, List.length_flatMap, Nat.mul_comm]

/-- Element `x` of row `y` lies in the matrix. -/
theorem rowMajor_lt {x y W H : Nat} (hx : x < W) (hy : y < H) : y * W + x < W * H :=
  calc y * W + x < y * W + W := by omega
    _ = (y + 1) * W := by rw [Nat.add_mul, Nat.one_mul]
    _ ≤ H * W := Nat.mul_le_mul_right W hy
    _ = W * H := Nat.mul_comm H W

theorem tileOf_index_lt {W H bs k i : Nat} {dir : Bool} (hi : i ∈ (tileOf W H bs k).indices W dir) : i < W * H := by
  obtain ⟨r, c, hr, hc, rfl⟩ := (Tile.mem_indices _ _ _ _).1 hi
  simp only [tileOf] at hr hc
  rw [Tile.index, Nat.add_assoc]
  exact rowMajor_lt (by simp only [tileOf]; omega) (by simp only [tileOf]; omega)

/-- Every index of the matrix lies in a block (43_abr.md R211): the one of its row and column divided by the block
size. -/
theorem tileOf_covers {W H bs i : Nat} (hbs : bs ≠ 0) (hi : i < W * H) (dir : Nat → Bool) :
    ∃ k, k < blockCount W H bs ∧ i ∈ (tileOf W H bs k).indices W (dir k) := by
  have hW : 0 < W := Nat.pos_of_ne_zero fun h => by simp [h] at hi
  have hx : i % W < W := Nat.mod_lt i hW
  have hy : i / W < H := Nat.div_lt_of_lt_mul hi
  have hcol := div_lt_cdiv hbs hx
  have hrow := div_lt_cdiv hbs hy
  have hkmod : (i % W / bs + i / W / bs * cdiv W bs) % cdiv W bs = i % W / bs := by
    rw [Nat.add_mul_mod_self_right, Nat.mod_eq_of_lt hcol]
  have hkdiv : (i % W / bs + i / W / bs * cdiv W bs) / cdiv W bs = i / W / bs := by
    rw [Nat.add_mul_div_right _ _ (by omega), Nat.div_eq_of_lt hcol, Nat.zero_add]
  refine ⟨i % W / bs + i / W / bs * cdiv W bs, ?_,
    (Tile.mem_indices _ _ _ _).2 ⟨i / W % bs, i % W % bs, ?_, ?_, ?_⟩⟩
  · rw [Nat.add_comm]
    exact rowMajor_lt hcol hrow
  · have := Nat.div_add_mod' (i / W) bs
    have := Nat.mod_lt (i / W) (Nat.pos_of_ne_zero hbs)
    simp only [tileOf, hkdiv]
    omega
  · have := Nat.div_add_mod' (i % W) bs
    have := Nat.mod_lt (i % W) (Nat.pos_of_ne_zero hbs)
    simp only [tileOf, hkmod]
    omega
  · simp only [Tile.index, tileOf, hkmod, hkdiv]
    rw [Nat.div_add_mod', Nat.add_assoc, Nat.div_add_mod', Nat.div_add_mod']

/-! ## What the block loop of `ABR.DEC` stores -/

/-- What a step adds to `OBUF`: it stays in canonical form and within the limit, and keeps the bytes it had. -/
structure Memory.Extends (m m' : Memory) (limit : Nat) : Prop where
  wf    : Memory.wf m → Memory.wf m'
  bound : (∀ x ∈ m, x.1 < limit) → ∀ x ∈ m', x.1 < limit
  keeps : ∀ i, (Table.get m i).isSome = true → (Table.get m' i).isSome = true

theorem Memory.Extends.refl (m : Memory) (limit : Nat) : Memory.Extends m m limit := ⟨id, id, fun _ => id⟩

theorem Memory.Extends.trans {m m' m'' : Memory} {limit : Nat} (h : Memory.Extends m m' limit)
    (h' : Memory.Extends m' m'' limit) : Memory.Extends m m'' limit :=
  ⟨fun hm => h'.wf (h.wf hm), fun hm => h'.bound (h.bound hm), fun i hi => h'.keeps i (h.keeps i hi)⟩

theorem Memory.isSome_set {m : Memory} {a i : Nat} (v : Byte) (h : i = a ∨ (Table.get m i).isSome = true) :
    (Table.get (Table.set m a v) i).isSome = true := by
  rw [Table.get_set]
  split
  · rfl
  · next hne => exact h.resolve_left hne

theorem Memory.extends_set (m : Memory) {a limit : Nat} (v : Byte) (h : a < limit) :
    Memory.Extends m (Table.set m a v) limit where
  wf hm := Memory.set_wf a v hm
  bound hm x hx := by
    rcases Table.mem_set hx with rfl | hx
    · exact h
    · exact hm x hx
  keeps _ hi := Memory.isSome_set v (.inr hi)

/-- Scattered writes below a limit extend `OBUF`, and every index they name holds a byte then. -/
theorem writeAt_extends (xs : List (Nat × Byte)) (s : State) {limit : Nat} (h : ∀ i ∈ xs.map Prod.fst, i < limit) :
    Memory.Extends s.obuf (writeAt xs s).obuf limit ∧
      ∀ i ∈ xs.map Prod.fst, (Table.get (writeAt xs s).obuf i).isSome = true := by
  induction xs generalizing s with
  | nil => exact ⟨.refl _ _, nofun⟩
  | cons x xs ih =>
    rw [List.map_cons, List.forall_mem_cons] at h
    obtain ⟨hext, hsome⟩ := ih (s.writeObuf x.1 x.2) h.2
    refine ⟨(Memory.extends_set s.obuf x.2 h.1).trans hext, ?_⟩
    rw [List.map_cons, List.forall_mem_cons]
    exact ⟨hext.keeps _ (Memory.isSome_set _ (.inl rfl)), hsome⟩

/-- A decoded block is scattered over all its indices. -/
theorem scatter_extends {d : List Byte} {W H bs k limit : Nat} (dir : Bool) (s : State) (hfit : W * H ≤ limit)
    (hd : d.length = (tileOf W H bs k).w * (tileOf W H bs k).h) :
    Memory.Extends s.obuf (scatter d dir (tileOf W H bs k) W s).obuf limit ∧
      ∀ i ∈ (tileOf W H bs k).indices W dir,
        (Table.get (scatter d dir (tileOf W H bs k) W s).obuf i).isSome = true := by
  have hkeys : (((tileOf W H bs k).indices W dir).zip d).map Prod.fst = (tileOf W H bs k).indices W dir :=
    List.map_fst_zip (by rw [Tile.length_indices, hd])
  have h := writeAt_extends (((tileOf W H bs k).indices W dir).zip d) s (limit := limit)
    (by rw [hkeys]; exact fun i hi => (tileOf_index_lt hi).trans_le hfit)
  rwa [hkeys] at h

/-- The block loop, where it completes, fills every block from `k` on. -/
theorem abrBlocks_fills {h : Header} {m k pos limit : Nat} {s t : State} (hfit : h.W * h.H ≤ limit)
    (hgo : abrBlocks h m k pos s = .going t) :
    Memory.Extends s.obuf t.obuf limit ∧ ∀ j, k ≤ j → j < k + m → ∃ dir,
      ∀ i ∈ (tileOf h.W h.H h.bs j).indices h.W dir, (Table.get t.obuf i).isSome = true := by
  induction m generalizing k pos s with
  | zero =>
    unfold abrBlocks at hgo
    split at hgo
    · cases hgo
    · cases hgo
      exact ⟨.refl _ _, fun j h1 h2 => by omega⟩
  | succ m ih =>
    unfold abrBlocks at hgo
    split at hgo
    · cases hgo
    · next d pos' hok =>
      obtain ⟨hext, hfill⟩ := scatter_extends (dirOf s k) s hfit (rleBlockLoop_ok hok).1
      obtain ⟨hext', hfill'⟩ := ih hgo
      refine ⟨hext.trans hext', fun j h1 h2 => ?_⟩
      rcases Nat.eq_or_lt_of_le h1 with rfl | h1
      · exact ⟨_, fun i hi => hext'.keeps i (hfill i hi)⟩
      · exact hfill' j h1 (by omega)

/-- A header that `abr_parse` accepts has a block size. -/
theorem abrParse_bs {s : State} {h : Header} (hp : abrParse s = some h) : h.bs ≠ 0 := by
  unfold abrParse at hp
  dsimp only at hp
  split at hp
  · cases hp
  · split at hp
    · cases hp
    · next hne =>
      split at hp
      · cases hp
      · split at hp
        · cases hp
        · rw [← Option.some.inj hp]
          exact fun hbs => hne (.inr (.inr hbs))

/-- A completed `ABR.DEC` has stored every byte of its matrix. -/
theorem abrBlocks_complete {h : Header} {pos : Nat} {s t : State} (hbs : h.bs ≠ 0)
    (hgo : abrBlocks h h.blocks 0 pos s = .going t) {i : Nat} (hi : i < h.W * h.H) :
    (Table.get t.obuf i).isSome = true := by
  obtain ⟨-, hfill⟩ := abrBlocks_fills (le_refl _) hgo
  choose! dir hdir using hfill
  obtain ⟨k, hk, hmem⟩ := tileOf_covers hbs hi dir
  exact hdir k (Nat.zero_le k) (by rw [Nat.zero_add]; exact hk) i hmem

/-! ## The invariant of registers, latch, packer and buffers -/

/-! ### The parts of a command -/

/-- Between its parts a command leaves a state that satisfies the invariant once `BUSY` is cleared, and no fault. -/
def State.Running (s : State) : Prop := s.finish.Inv ∧ s.latch.fault = false

/-- The invariant speaks of these fields only. -/
theorem State.Inv.congr {s t : State} (h : s.Inv) (hlatch : t.latch = s.latch) (hpacker : t.packer = s.packer)
    (hunpacker : t.unpacker = s.unpacker) (hresults : t.results = s.results) (hibuf : t.ibuf = s.ibuf)
    (hobuf : t.obuf = s.obuf) (hbuild : t.build = s.build) : t.Inv := by
  rw [State.inv_iff, hlatch, hpacker, hunpacker, hresults, hibuf, hobuf, hbuild, ← State.inv_iff]
  exact h

theorem State.Inv.clear_busy {s : State} (h : s.Inv) : { s.latch with busy := false } = s.latch := by
  rw [← h.idle]

theorem State.Inv.finish {s : State} (h : s.Inv) : s.finish.Inv := h.congr h.clear_busy rfl rfl rfl rfl rfl rfl

theorem State.Inv.running_begin {s : State} (h : s.Inv) (hf : s.latch.fault = false) : s.begin.Running :=
  ⟨h.congr (t := s.begin.finish) h.clear_busy rfl rfl rfl rfl rfl rfl, hf⟩

theorem ErrKind.code_bounds (k : ErrKind) : 1 ≤ k.code.toNat ∧ k.code.toNat ≤ 8 := by cases k <;> decide

/-- A latched fault leaves no output (60_exceptions.md R276), whatever the packer's bits. -/
theorem State.Inv.faulted_of {s : State} (h : s.finish.Inv) (k : ErrKind) (info : Word) (p : Packer) :
    State.Inv { s with latch := Latch.latched k info, packer := { p with olen := 0 }, obuf := [] } :=
  ⟨rfl, .inr ⟨rfl, k.code_bounds⟩, fun _ => ⟨rfl, rfl⟩, nofun, Nat.zero_le _,
    fun i hi => absurd hi (Nat.not_lt_zero i), h.ibufWf, Memory.nil_wf, h.ibufIn, nofun, h.cursor, h.endResult⟩

section Running

variable {s : State} (h : s.Running)
include h

theorem State.Running.packerOk : s.PackerOk := ⟨h.1.clean h.2, h.1.fits, h.1.written⟩

/-- A new packer and a new `OBUF` in order keep the invariant. -/
theorem State.Running.withOutput {p : Packer} {o : Memory} (hok : State.PackerOk { s with packer := p, obuf := o })
    (hwf : Memory.wf o) (hin : ∀ x ∈ o, x.1 < s.build.obufCap.toNat) :
    State.Running { s with packer := p, obuf := o } :=
  ⟨⟨rfl, h.1.latch, fun hf => absurd hf (by simp [h.2]), fun _ => hok.clean, hok.fits, hok.written,
    h.1.ibufWf, hwf, h.1.ibufIn, hin, h.1.cursor, h.1.endResult⟩, h.2⟩

/-- A byte stored at `OLEN` extends the output by it. -/
theorem State.Running.store (v : Byte) {a : Byte} {n : BitVec 3} (hc : Packer.Clean ⟨s.packer.olen + 1, a, n⟩)
    (hlt : s.packer.olen.toNat < s.build.obufCap.toNat) :
    State.Running { s with
      obuf := Table.set s.obuf s.packer.olen.toNat v, packer := ⟨s.packer.olen + 1, a, n⟩ } := by
  have hsucc := olen_succ hlt
  have hext := Memory.extends_set s.obuf v hlt
  refine h.withOutput ⟨hc, ?_, fun i hi => ?_⟩ (hext.wf h.1.obufWf) (hext.bound h.1.obufIn)
  · show (s.packer.olen + 1).toNat ≤ _
    rw [hsucc]
    exact hlt
  · refine Memory.isSome_set v ?_
    rcases Nat.lt_or_ge i s.packer.olen.toNat with hi' | hi'
    · exact .inr (h.packerOk.written i hi')
    · have hi : i < (s.packer.olen + 1).toNat := hi
      exact .inl (by omega)

theorem State.Running.withUnpacker {u : Unpacker} (hu : u.bitIndex ≤ 8 * s.build.ibufCap.toNat) :
    State.Running { s with unpacker := u } :=
  ⟨⟨rfl, h.1.latch, h.1.faulted, h.1.clean, h.1.fits, h.1.written, h.1.ibufWf, h.1.obufWf, h.1.ibufIn, h.1.obufIn,
    hu, h.1.endResult⟩, h.2⟩

theorem State.Running.withResults {r : Results} (hr : r.eos = true → r.val = 0) :
    State.Running { s with results := r } :=
  ⟨⟨rfl, h.1.latch, h.1.faulted, h.1.clean, h.1.fits, h.1.written, h.1.ibufWf, h.1.obufWf, h.1.ibufIn, h.1.obufIn,
    h.1.cursor, hr⟩, h.2⟩

theorem State.Running.withTree (t : Tree) : State.Running { s with tree := t } :=
  ⟨h.1.congr rfl rfl rfl rfl rfl rfl rfl, h.2⟩

end Running

/-- `BPACC` with no bit pending is clean when it is 0. -/
theorem Packer.clean_zero (o : Word) : Packer.Clean ⟨o, 0, 0⟩ := Nat.zero_mod _

/-- The next bit goes above the bits that are still 0 (10_state.md R26). -/
theorem Packer.clean_accWith {p : Packer} (hc : p.Clean) (h7 : p.bpcnt ≠ 7) (b : Bool) :
    Packer.Clean { p with bpacc := p.accWith b, bpcnt := p.bpcnt + 1 } := by
  have hlt : p.bpcnt.toNat < 7 := by
    have := p.bpcnt.isLt
    have : p.bpcnt.toNat ≠ 7 := fun h => h7 (BitVec.eq_of_toNat_eq h)
    omega
  have hsucc : (p.bpcnt + 1).toNat = p.bpcnt.toNat + 1 := by
    rw [BitVec.toNat_add, show (1 : BitVec 3).toNat = 1 from rfl]
    omega
  have hold : p.bpacc.toNat % 2 ^ (7 - p.bpcnt.toNat) = 0 :=
    Nat.mod_eq_zero_of_dvd ((Nat.pow_dvd_pow 2 (by omega)).trans (Nat.dvd_of_mod_eq_zero hc))
  have hnew : (BitVec.ofNat 8 b.toNat <<< (7 - p.bpcnt.toNat)).toNat % 2 ^ (7 - p.bpcnt.toNat) = 0 := by
    rw [BitVec.toNat_shiftLeft, Nat.mod_mod_of_dvd _ (Nat.pow_dvd_pow 2 (by omega)), Nat.shiftLeft_eq,
      Nat.mul_mod_left]
  show (p.accWith b).toNat % 2 ^ (8 - (p.bpcnt + 1).toNat) = 0
  rw [hsucc, show 8 - (p.bpcnt.toNat + 1) = 7 - p.bpcnt.toNat by omega, Packer.accWith, BitVec.toNat_or,
    Nat.or_mod_two_pow, hold, hnew, Nat.or_zero]

theorem Unpacker.bitIndex_next_le {u : Unpacker} {n : Nat} (h : u.ipos.toNat < n) (hn : n < 2 ^ 64) :
    u.next.bitIndex ≤ 8 * n := by
  have hi := u.ibit.isLt
  unfold Unpacker.next Unpacker.bitIndex
  split
  · have : (u.ipos + 1).toNat = u.ipos.toNat + 1 := by
      rw [BitVec.toNat_add, show (1 : Word).toNat = 1 from rfl]
      omega
    rw [this]
    simp only [show (0 : BitVec 3).toNat = 0 from rfl]
    omega
  · next h7 =>
    have : u.ibit.toNat ≠ 7 := fun h => h7 (BitVec.eq_of_toNat_eq h)
    have : (u.ibit + 1).toNat = u.ibit.toNat + 1 := by
      rw [BitVec.toNat_add, show (1 : BitVec 3).toNat = 1 from rfl]
      omega
    simp only [this]
    omega

/-- Every part of every command keeps the invariant. -/
theorem keeps_inv (i : Instr) : Keeps i State.Running State.Inv where
  raise k info s _ h := h.1.faulted_of k info s.packer
  full p s _ h := h.1.faulted_of .capacity 0 p
  store v s _ h hlt := h.store v h.packerOk.clean hlt
  byte v s _ h hlt := h.store v (Packer.clean_zero _) hlt
  bit b s _ h h7 :=
    h.withOutput ⟨Packer.clean_accWith h.packerOk.clean h7 b, h.packerOk.fits, h.packerOk.written⟩
      h.1.obufWf h.1.obufIn
  restart s _ h :=
    h.withOutput ⟨Packer.clean_zero _, Nat.zero_le _, fun i hi => absurd hi (Nat.not_lt_zero i)⟩ Memory.nil_wf nofun
  fresh s _ h := h.withTree _
  update v t s _ h _ := h.withTree t
  rewind s _ h := h.withUnpacker (Nat.zero_le _)
  cursor s _ h hlt := h.withUnpacker <| Unpacker.bitIndex_next_le (lt_min_iff.1 hlt).2 s.build.ibufCap.isLt
  result v s _ h := h.withResults (by cases v <;> simp)
  forward bs hd s _ h := h.withResults h.1.endResult
  reverse hd o s _ h hp hfit hgo := by
    obtain ⟨hext, -⟩ := abrBlocks_fills hfit hgo
    have holen : (BitVec.ofNat 64 (hd.W * hd.H)).toNat = hd.W * hd.H := by
      have := s.build.obufCap.isLt
      rw [BitVec.toNat_ofNat]
      omega
    have hok : State.PackerOk
        { s with packer := { s.packer with olen := BitVec.ofNat 64 (hd.W * hd.H) }, obuf := o } :=
      ⟨h.packerOk.clean, holen.le.trans hfit, fun j hj => abrBlocks_complete (abrParse_bs hp) hgo (holen ▸ hj)⟩
    exact (h.withOutput hok (hext.wf h.1.obufWf) (hext.bound h.1.obufIn)).withResults h.1.endResult

/-! ### Every step -/

/-- A command keeps the invariant: `SRST` from every state, the others while no fault is latched. -/
theorem State.Inv.exec {i : Instr} {s t : State} (h : s.Inv) (hf : s.latch.fault = true → i = .srst)
    (ht : exec i s.begin = .next t) : t.finish.Inv := by
  by_cases hi : i = .srst
  · subst hi
    cases ht
    exact State.inv_of_reset rfl rfl rfl rfl h.ibufWf h.obufWf h.ibufIn h.obufIn
  · have hrun := h.running_begin (Bool.eq_false_iff.2 fun hfault => hi (hf hfault))
    exact ((keeps_inv i).exec hi hrun ht).elim (fun hgo => hgo.1) State.Inv.finish

theorem decode_srstWord : decode srstWord = .ok .srst := by decide

theorem MoveResult.inv {s t : State} (hm : MoveResult s t) (h : s.Inv) : t.Inv := by
  cases hm with
  | reset => exact State.inv_of_reset rfl rfl rfl rfl Memory.nil_wf Memory.nil_wf nofun nofun
  | same => exact h
  | reply v => exact h.congr rfl rfl rfl rfl rfl rfl rfl
  | register r v =>
    rw [State.writeReg_eq]
    exact h.congr rfl rfl rfl rfl rfl rfl rfl
  | input i v hi =>
    have hext := Memory.extends_set s.ibuf v hi
    exact ⟨h.idle, h.latch, h.faulted, h.clean, h.fits, h.written, hext.wf h.ibufWf, h.obufWf, hext.bound h.ibufIn,
      h.obufIn, h.cursor, h.endResult⟩
  | illegal w hf e he =>
    have hfault : s.latch.fault = false := Bool.eq_false_iff.2 fun hfault => by
      rw [hf hfault, decode_srstWord] at he
      cases he
    exact (h.running_begin hfault).1.faulted_of .illegalCommand _ s.packer
  | command w i u hf hi hu =>
    refine h.exec (fun hfault => ?_) hu
    rw [hf hfault, decode_srstWord] at hi
    cases hi
    rfl

/-- Settles O56: the parts of every command keep the invariant, `ABR.DEC` because the blocks of its matrix cover it, and
so does every other move of the host. -/
theorem stateInvariantKept : Obligations.StateInvariantKept := by
  intro s t h ht
  rcases step_cases ht with ⟨-, rfl⟩ | ⟨-, hm⟩
  · exact h
  · exact hm.inv (h.congr rfl rfl rfl rfl rfl rfl rfl)

end Sys2Proof.Machine

/-! ## What no command writes -/

namespace Sys2Proof.Machine

/-- `t` has the input buffer, the operand registers and the model's own fields of `s`: what only the host writes. -/
def State.SameHostSide (s t : State) : Prop :=
  t.ibuf = s.ibuf ∧ t.operands = s.operands ∧ t.build = s.build ∧ t.host = s.host ∧ t.reply = s.reply ∧
    t.ibufEpoch = s.ibufEpoch ∧ t.obufEpoch = s.obufEpoch

/-- No part of any command writes what only the host writes. -/
theorem keeps_sameHostSide (i : Instr) (s : State) : Keeps i s.SameHostSide s.SameHostSide where
  raise _ _ _ _ h := h
  full _ _ _ h := h
  store _ _ _ h _ := h
  byte _ _ _ h _ := h
  bit _ _ _ h _ := h
  restart _ _ h := h
  fresh _ _ h := h
  update _ _ _ _ h _ := h
  rewind _ _ h := h
  cursor _ _ h _ := h
  result _ _ _ h := h
  forward _ _ _ _ h := h
  reverse _ _ _ _ h _ _ _ := h

theorem exec_sameHostSide {i : Instr} {s t : State} (hi : i ≠ .srst) (ht : exec i s = .next t) : s.SameHostSide t :=
  ((keeps_sameHostSide i s).exec hi ⟨rfl, rfl, rfl, rfl, rfl, rfl, rfl⟩ ht).elim id id

/-- Settles O50: no part of a command writes these fields, and the soft reset writes the operand registers only. -/
theorem commandsKeepInputAndOperands : Obligations.CommandsKeepInputAndOperands := by
  intro i s t ht
  by_cases hi : i = .srst
  · subst hi
    cases ht
    exact ⟨rfl, absurd rfl, rfl, rfl, rfl, rfl, rfl⟩
  · obtain ⟨hibuf, hoperands, hmodel⟩ := exec_sameHostSide hi ht
    exact ⟨hibuf, fun _ => hoperands, hmodel⟩

/-! ## Output of the commands that write none -/

/-- What the host reads in `OBUF` depends on these three fields only. -/
theorem State.readObuf_congr {s t : State} (hpacker : t.packer = s.packer) (hobuf : t.obuf = s.obuf)
    (hepoch : t.obufEpoch = s.obufEpoch) (a : Nat) : t.readObuf a = s.readObuf a := by
  unfold State.readObuf
  rw [hpacker, hobuf, hepoch]

/-- The commands that read `IBUF` by index all write `OBUF`. -/
theorem writesObuf_of_checksInput {i : Instr} (h : checksInput i = true) : writesObuf i = true := by
  cases i <;> simp_all [checksInput, writesObuf]

/-- A part that touches packer or `OBUF` and does not raise belongs to a command that writes `OBUF`, or to `BP.INIT`. -/
theorem keeps_output {i : Instr} (hw : writesObuf i = false) (hinit : i ≠ .bpInit) (s : State) :
    Keeps i (fun u => u.packer = s.packer ∧ u.obuf = s.obuf) (fun u => u.latch.fault = true) where
  raise _ _ _ _ _ := rfl
  full _ _ _ _ := rfl
  store _ _ hi := absurd hi (Bool.eq_false_iff.1 hw)
  byte _ _ hi := absurd hi (Bool.eq_false_iff.1 hw)
  bit _ _ hi := absurd hi (Bool.eq_false_iff.1 hw)
  restart _ hi := absurd hi (not_or.2 ⟨fun hc => Bool.eq_false_iff.1 hw (writesObuf_of_checksInput hc), hinit⟩)
  fresh _ _ h := h
  update _ _ _ _ h _ := h
  rewind _ _ h := h
  cursor _ _ h _ := h
  result _ _ _ h := h
  forward _ _ _ _ h := h
  reverse _ _ _ hi := by subst hi; cases hw

/-- Settles O54: the parts of these commands keep packer and `OBUF` or raise, and what stands for an unspecified byte is
none of a command's fields. -/
theorem outputKeptByNonWriters : Obligations.OutputKeptByNonWriters := by
  intro i s t ht _ hfault hinit hsrst hw
  obtain ⟨-, -, -, -, -, -, hepoch⟩ := exec_sameHostSide hsrst ht
  rcases (keeps_output hw hinit s).exec hsrst ⟨rfl, rfl⟩ ht with ⟨hpacker, hobuf⟩ | hraised
  · exact ⟨hpacker, hobuf, State.readObuf_congr hpacker hobuf hepoch⟩
  · rw [hfault] at hraised
    cases hraised

/-! ## The address map -/

/-! ### The place of OBUF -/

/-- `cdiv(a, b) * b` is the least multiple of `b` that is not below `a`. -/
theorem cdiv_mul_le {a b m : Nat} (hm : m % b = 0) (ha : a ≤ m) : cdiv a b * b ≤ m := by
  obtain ⟨k, rfl⟩ := Nat.dvd_of_mod_eq_zero hm
  have hdiv := Nat.div_add_mod a b
  have hk : cdiv a b ≤ k := by
    unfold cdiv
    split
    · next hr =>
      have : b * (a / b) < b * k := by omega
      exact Nat.lt_of_mul_lt_mul_left this
    · exact Nat.div_le_of_le_mul ha
  rw [Nat.mul_comm b]
  exact Nat.mul_le_mul_right b hk

theorem ibufEnd_le_obufBase (b : Build) : ibufBase + b.ibufCap.toNat ≤ obufBase b :=
  (le_cdiv_mul _ (by decide)).trans (le_max_right _ _)

/-- Offset 0x0020_0000 serves every build whose `IBUF` ends at it or below. -/
theorem obufBase_of_small {b : Build} (h : b.ibufCap.toNat ≤ 0x100000) : obufBase b = 0x200000 :=
  max_eq_left (cdiv_mul_le rfl (Nat.add_le_add_left h 0x100000))

theorem obufBase_of_large {b : Build} (h : 0x100000 < b.ibufCap.toNat) :
    obufBase b = cdiv (ibufBase + b.ibufCap.toNat) 0x100000 * 0x100000 :=
  max_eq_right (le_trans (Nat.add_le_add_left h.le ibufBase) (le_cdiv_mul _ (by decide)))

/-! ### What an offset reaches -/

theorem regAt_offset (r : Reg) : regAt (Reg.offset r) = some r := by cases r <;> rfl

theorem Reg.offset_lt (r : Reg) : Reg.offset r < regEnd := by cases r <;> decide

theorem Reg.offset_mod (r : Reg) : Reg.offset r % 8 = 0 := by cases r <;> rfl

theorem regAt_unaligned {off : Nat} (h : off % 8 ≠ 0) : regAt off = none := by
  refine List.find?_eq_none.2 fun r _ hr => h ?_
  rw [← of_decide_eq_true hr]
  exact Reg.offset_mod r

section Target

variable (b : Build)

theorem targetAt_offset (r : Reg) : targetAt b (Reg.offset r) 8 = .ok (.reg r) := by
  simp [targetAt, Reg.offset_lt, regAt_offset]

theorem targetAt_notARegister {off n : Nat} (hoff : off < regEnd) (h : n ≠ 8 ∨ off % 8 ≠ 0) :
    targetAt b off n = .error .notARegisterAccess := by
  rw [targetAt, if_pos hoff]
  split
  · next hn => rw [regAt_unaligned (h.resolve_left (not_not_intro hn))]
  · rfl

theorem targetAt_reserved {off n : Nat} (hoff : regEnd ≤ off) (hend : off + n ≤ ibufBase) (h1 : 1 ≤ n) (h8 : n ≤ 8) :
    targetAt b off n = .ok .reserved := by
  rw [targetAt, if_neg (Nat.not_lt.2 hoff), if_pos ⟨hend, h1, h8⟩]

/-- From the reserved range's end on, an access of a byte or more is to one of the buffers or outside. -/
theorem targetAt_of_ibufBase_le {off n : Nat} (hoff : ibufBase ≤ off) (h1 : 1 ≤ n) : targetAt b off n =
    if off < ibufBase + b.ibufCap.toNat then
      if n = 1 then .ok (.ibuf (off - ibufBase)) else .error .notAByteAccess
    else if obufBase b ≤ off ∧ off < obufBase b + b.obufCap.toNat then
      if n = 1 then .ok (.obuf (off - obufBase b)) else .error .notAByteAccess
    else .error .outsideWindow := by
  have hreg : ¬ off < regEnd := Nat.not_lt.2 (le_trans (by decide) hoff)
  have hreserved : ¬ (off + n ≤ ibufBase ∧ 1 ≤ n ∧ n ≤ 8) := by omega
  simp only [targetAt, hreg, hreserved, hoff, if_false, true_and]

theorem targetAt_ibuf {i : Nat} (hi : i < b.ibufCap.toNat) : targetAt b (ibufBase + i) 1 = .ok (.ibuf i) := by
  rw [targetAt_of_ibufBase_le b (Nat.le_add_right _ _) le_rfl, if_pos (Nat.add_lt_add_left hi ibufBase), if_pos rfl,
    Nat.add_sub_cancel_left]

theorem targetAt_obuf {i : Nat} (hi : i < b.obufCap.toNat) : targetAt b (obufBase b + i) 1 = .ok (.obuf i) := by
  have hend := ibufEnd_le_obufBase b
  rw [targetAt_of_ibufBase_le b (by omega) le_rfl, if_neg (by omega), if_pos (by omega), if_pos rfl,
    Nat.add_sub_cancel_left]

theorem targetAt_outside {off n : Nat} (h1 : 1 ≤ n)
    (h : (ibufBase + b.ibufCap.toNat ≤ off ∧ off < obufBase b) ∨ obufBase b + b.obufCap.toNat ≤ off) :
    targetAt b off n = .error .outsideWindow := by
  have hend := ibufEnd_le_obufBase b
  rw [targetAt_of_ibufBase_le b (by omega) h1, if_neg (by omega), if_neg (by omega)]

/-- The window starts at `BLOCK_BASE`. -/
theorem busTarget_add (off n : Nat) : busTarget b (b.blockBase + off) n = targetAt b off n := by
  rw [busTarget, if_neg (by omega), Nat.add_sub_cancel_left]

theorem busTarget_below {addr : Nat} (h : addr < b.blockBase) (n : Nat) :
    busTarget b addr n = .error .outsideWindow := if_pos h

end Target

/-! ### What an access does, by what it reaches -/

section Access

variable {s : State} {addr n : Nat}

theorem hostMove_bus_reg {r : Reg} (h : busTarget s.build addr n = .ok (.reg r)) :
    hostMove (.bus (.read addr n)) s = hostMove (.regRead r) s ∧
      ∀ v, hostMove (.bus (.write addr n v)) s = hostMove (.regWrite r v) s := by
  simp [hostMove, idleMove, busMove, h]

theorem hostMove_bus_ibuf {i : Nat} (h : busTarget s.build addr n = .ok (.ibuf i)) (v : Word) :
    hostMove (.bus (.read addr n)) s = hostMove (.ibufRead i) s ∧
      hostMove (.bus (.write addr n v)) s = hostMove (.ibufWrite i (v.setWidth 8)) s := by
  simp [hostMove, idleMove, busMove, h]

theorem hostMove_bus_obuf {i : Nat} (h : busTarget s.build addr n = .ok (.obuf i)) (v : Word) :
    hostMove (.bus (.read addr n)) s = hostMove (.obufRead i) s ∧
      hostMove (.bus (.write addr n v)) s = hostMove (.obufWrite i (v.setWidth 8)) s := by
  simp [hostMove, idleMove, busMove, h]

theorem hostMove_bus_reserved (hidle : s.latch.busy = false) (h : busTarget s.build addr n = .ok .reserved)
    (v : Word) : hostMove (.bus (.read addr n)) s = .next { s with reply := some 0 } ∧
      hostMove (.bus (.write addr n v)) s = .next s := by
  simp [hostMove, idleMove, busMove, h, hidle, State.replyWith]

theorem hostMove_bus_refused {e : Refusal} (hidle : s.latch.busy = false)
    (h : busTarget s.build addr n = .error e) (v : Word) :
    hostMove (.bus (.read addr n)) s = .refused e ∧ hostMove (.bus (.write addr n v)) s = .refused e := by
  simp [hostMove, idleMove, busMove, h, hidle]

end Access

/-- Settles O12: what each offset reaches, and what an access to it then does. -/
theorem windowFollowsAddressMap : Obligations.WindowFollowsAddressMap := by
  intro s
  refine ⟨fun r => ?_, fun i v hi => ?_, fun i v hi => ?_, obufBase_of_small, fun hlarge => ?_, fun hidle =>
    ⟨fun off n v hoff hend h1 h8 => ?_, fun off n v hoff h => ?_, fun off n v h1 h => ?_, fun addr n v h => ?_⟩⟩
  · exact hostMove_bus_reg ((busTarget_add _ _ _).trans (targetAt_offset _ r))
  · rw [Nat.add_assoc]
    exact hostMove_bus_ibuf ((busTarget_add _ _ _).trans (targetAt_ibuf _ hi)) v
  · rw [Nat.add_assoc]
    exact hostMove_bus_obuf ((busTarget_add _ _ _).trans (targetAt_obuf _ hi)) v
  · refine ⟨?_, ibufEnd_le_obufBase _, fun m hm hle => ?_⟩ <;> rw [obufBase_of_large hlarge]
    · exact Nat.mul_mod_left _ _
    · exact cdiv_mul_le hm hle
  · exact hostMove_bus_reserved hidle ((busTarget_add _ _ _).trans (targetAt_reserved _ hoff hend h1 h8)) v
  · exact hostMove_bus_refused hidle ((busTarget_add _ _ _).trans (targetAt_notARegister _ hoff h)) v
  · exact hostMove_bus_refused hidle ((busTarget_add _ _ _).trans (targetAt_outside _ h1 h)) v
  · exact hostMove_bus_refused hidle (busTarget_below _ h n) v

end Sys2Proof.Machine

/-! ## No code of a tree begins with another -/

namespace Sys2Proof.Machine

/-- The entry that direction bits lead to from entry `n` on: 0 to the left child, 1 to the right one
(30_encoding.md R100); none where bits are left at an entry without children. -/
def Tree.descend (t : Tree) : Nat → List Bool → Option Nat
  | n, [] => some n
  | n, b :: bits =>
    match t.body n with
    | some (.int l r) => t.descend (if b then r else l) bits
    | _ => none

/-- Entry `n` has no children. -/
def Tree.Childless (t : Tree) (n : Nat) : Prop := ∀ l r, t.body n ≠ some (.int l r)

@[simp] theorem Tree.descend_nil (t : Tree) (n : Nat) : t.descend n [] = some n := rfl

theorem Tree.descend_int {t : Tree} {n l r : Nat} (hb : t.body n = some (.int l r)) (b : Bool) (bits : List Bool) :
    t.descend n (b :: bits) = t.descend (if b then r else l) bits := by rw [descend, hb]

theorem Tree.Childless.descend_cons {t : Tree} {n : Nat} (hn : t.Childless n) (b : Bool) (bits : List Bool) :
    t.descend n (b :: bits) = none := by
  rw [Tree.descend]
  split
  · next l r hb => exact absurd hb (hn l r)
  · rfl

theorem Tree.descend_append (t : Tree) (n : Nat) (xs ys : List Bool) :
    t.descend n (xs ++ ys) = (t.descend n xs).bind fun m => t.descend m ys := by
  induction xs generalizing n with
  | nil => rfl
  | cons b xs ih =>
    rw [List.cons_append, descend, descend]
    split
    · exact ih _
    · rfl

/-! ### Paths lead where they should -/

section Descend

variable {t : Tree} (h : t.Shape)
include h

/-- The direction bit of a child leads from its parent to it. -/
theorem Tree.Shape.descend_dirBit {p n : Nat} (hp : t.parent n = some p) (bits : List Bool) :
    t.descend p (t.dirBit p n :: bits) = t.descend n bits := by
  obtain ⟨l, r, hb, hn⟩ := (h.child n p).1 hp
  obtain ⟨hr, -⟩ := h.pair p l r hb
  rw [Tree.descend_int hb, Tree.dirBit, hb]
  rcases hn with rfl | rfl
  · simp
  · simp [show l ≠ n by omega]

theorem Tree.Shape.descend_pathFrom {k n : Nat} (hk : 512 ≤ n + k) (hlo : t.nytn ≤ n) (hhi : n ≤ 512)
    (bits : List Bool) : t.descend 512 (t.pathFrom k n bits) = t.descend n bits := by
  induction k generalizing n bits with
  | zero => rw [show n = 512 by omega, Tree.pathFrom]
  | succ k ih =>
    unfold Tree.pathFrom
    split
    · next hroot => rw [hroot]; rfl
    · next hroot =>
      obtain ⟨p, hp⟩ := h.hangs n hlo (lt_of_le_of_ne hhi hroot)
      obtain ⟨-, hlt, hple⟩ := h.parent_bounds hp
      rw [hp]
      exact (ih (by omega) (by omega) hple _).trans (h.descend_dirBit hp bits)

/-- The path of an entry leads from the root to it. -/
theorem Tree.Shape.descend_path {n : Nat} {b : Body} (hb : t.body n = some b) :
    t.descend 512 (t.path n) = some n := by
  obtain ⟨hlo, hhi⟩ := h.body_bounds hb
  exact h.descend_pathFrom (by rw [nodeSlots]; omega) hlo hhi []

/-- An entry without children is on no other entry's path. -/
theorem Tree.Shape.eq_of_path_prefix {m n : Nat} {a b : Body} (ha : t.body m = some a) (hb : t.body n = some b)
    (hm : t.Childless m) (hpre : t.path m <+: t.path n) : m = n := by
  obtain ⟨rest, hrest⟩ := hpre
  have hn : t.descend m rest = some n := by
    have hpath := h.descend_path hb
    rwa [← hrest, Tree.descend_append, h.descend_path ha] at hpath
  cases rest with
  | nil => simpa using hn
  | cons b bits => simp [hm.descend_cons] at hn

/-! ### Seen symbols and the NYT entry -/

theorem Tree.Shape.body_leaf {v : Byte} {n : Nat} (hv : t.leafNum v = some n) : t.body n = some (.leaf v) :=
  (h.leaf n v).2 hv

theorem Tree.Shape.childless_leaf {v : Byte} {n : Nat} (hv : t.leafNum v = some n) : t.Childless n := by
  simp [Tree.Childless, h.body_leaf hv]

theorem Tree.Shape.childless_nyt : t.Childless t.nytn := by
  simp [Tree.Childless, (h.nyt t.nytn).2 rfl]

theorem Tree.Shape.leaf_ne_nyt {v : Byte} {n : Nat} (hv : t.leafNum v = some n) : n ≠ t.nytn := by
  rintro rfl
  simpa [h.body_leaf hv] using (h.nyt t.nytn).2 rfl

/-- Neither a seen symbol's path nor the NYT path begins with the other. -/
theorem Tree.Shape.leaf_nyt_prefixFree {v : Byte} {n : Nat} (hv : t.leafNum v = some n) :
    ¬ t.path n <+: t.path t.nytn ∧ ¬ t.path t.nytn <+: t.path n := by
  have hleaf := h.body_leaf hv
  have hnyt := (h.nyt t.nytn).2 rfl
  exact ⟨fun hpre => h.leaf_ne_nyt hv (h.eq_of_path_prefix hleaf hnyt (h.childless_leaf hv) hpre),
    fun hpre => h.leaf_ne_nyt hv (h.eq_of_path_prefix hnyt hleaf h.childless_nyt hpre).symm⟩

/-- The path of a seen symbol begins with no other seen symbol's path. -/
theorem Tree.Shape.eq_of_leaf_prefix {v w : Byte} {m n : Nat} (hv : t.leafNum v = some m) (hw : t.leafNum w = some n)
    (hpre : t.path m <+: t.path n) : v = w := by
  obtain rfl := h.eq_of_path_prefix (h.body_leaf hv) (h.body_leaf hw) (h.childless_leaf hv) hpre
  simpa [h.body_leaf hw, eq_comm] using h.body_leaf hv

end Descend

/-! ### Codes -/

theorem msbFirst_injective {v w : Byte} (hvw : msbFirst 8 v = msbFirst 8 w) : v = w := by
  refine BitVec.eq_of_getLsbD_eq fun i hi => ?_
  have hbit := List.map_inj_left.1 hvw (7 - i) (List.mem_range.2 (by omega))
  simpa only [show 8 - 1 - (7 - i) = i by omega] using hbit

theorem Tree.code_seen {t : Tree} {v : Byte} {n : Nat} (hv : t.leafNum v = some n) : t.code v = t.path n := by
  rw [Tree.code, hv]

theorem Tree.code_unseen {t : Tree} {v : Byte} (hv : t.leafNum v = none) :
    t.code v = t.path t.nytn ++ msbFirst 8 v := by rw [Tree.code, hv]

/-- Only equal symbols have codes of which one begins with the other. -/
theorem Tree.Shape.eq_of_code_prefix {t : Tree} (h : t.Shape) {v w : Byte} (hpre : t.code v <+: t.code w) : v = w := by
  cases hv : t.leafNum v with
  | some m =>
    rw [Tree.code_seen hv] at hpre
    cases hw : t.leafNum w with
    | some n =>
      rw [Tree.code_seen hw] at hpre
      exact h.eq_of_leaf_prefix hv hw hpre
    | none =>
      obtain ⟨hleaf, hnyt⟩ := h.leaf_nyt_prefixFree hv
      rw [Tree.code_unseen hw] at hpre
      rcases List.prefix_or_prefix_of_prefix hpre (List.prefix_append _ _) with hpre | hpre
      · exact absurd hpre hleaf
      · exact absurd hpre hnyt
  | none =>
    rw [Tree.code_unseen hv] at hpre
    cases hw : t.leafNum w with
    | some n =>
      rw [Tree.code_seen hw] at hpre
      exact absurd ((List.prefix_append _ _).trans hpre) (h.leaf_nyt_prefixFree hw).2
    | none =>
      rw [Tree.code_unseen hw, List.prefix_append_right_inj] at hpre
      exact msbFirst_injective (hpre.eq_of_length (by simp))

/-- Settles O31: a path leads from the root to its entry, so an entry without children lies on no other entry's path; the
leaves and the NYT entry have none. -/
theorem codesArePrefixFree : Obligations.CodesArePrefixFree := by
  intro t hinv
  have h := hinv.shape
  refine ⟨fun a b hab hpre => hab (h.eq_of_code_prefix hpre), fun a ha => ?_⟩
  obtain ⟨n, hn⟩ := Option.isSome_iff_exists.1 ha
  rw [Tree.code_seen hn]
  exact h.leaf_nyt_prefixFree hn

end Sys2Proof.Machine

/-! ## The decoder and the encoder -/

namespace Sys2Proof

/-! ### Words and their fields as numbers -/

theorem toNat_append_eq {m n : Nat} (x : BitVec m) (y : BitVec n) : (x ++ y).toNat = x.toNat * 2 ^ n + y.toNat := by
  rw [BitVec.toNat_append, ← Nat.shiftLeft_add_eq_or_of_lt y.isLt, Nat.shiftLeft_eq]

theorem toNat_field (w : CmdWord) (lo len : Nat) : (w.extractLsb' lo len).toNat = w.toNat / 2 ^ lo % 2 ^ len := by
  rw [BitVec.extractLsb'_toNat, Nat.shiftRight_eq_div_pow]

theorem toNat_wordZ (op : Byte) : (wordZ op).toNat = op.toNat * 2 ^ 24 :=
  (toNat_append_eq op 0#24).trans (by simp)

theorem toNat_wordS (op sym : Byte) : (wordS op sym).toNat = op.toNat * 2 ^ 24 + sym.toNat :=
  (toNat_append_eq (op ++ 0#16) sym).trans (by rw [toNat_append_eq]; simp; omega)

theorem toNat_wordB (op : Byte) (n : BitVec 4) (val : Byte) :
    (wordB op n val).toNat = op.toNat * 2 ^ 24 + n.toNat * 2 ^ 8 + val.toNat :=
  (toNat_append_eq (op ++ 0#12 ++ n) val).trans (by rw [toNat_append_eq, toNat_append_eq]; simp; omega)

/-! ### A word is known by the fields of its format (30_encoding.md R90) -/

theorem wordZ_eq_iff (op : Byte) (w : CmdWord) : wordZ op = w ↔ opField w = op ∧ w.extractLsb' 0 24 = 0#24 := by
  have := w.isLt
  simp only [← BitVec.toNat_inj, toNat_wordZ, opField, toNat_field, BitVec.toNat_ofNat, Nat.pow_zero, Nat.div_one]
  omega

theorem wordS_eq_iff (op sym : Byte) (w : CmdWord) :
    wordS op sym = w ↔ opField w = op ∧ w.extractLsb' 8 16 = 0#16 ∧ lowField w = sym := by
  have := w.isLt
  simp only [← BitVec.toNat_inj, toNat_wordS, opField, lowField, toNat_field, BitVec.toNat_ofNat]
  omega

theorem wordB_eq_iff (op : Byte) (n : BitVec 4) (val : Byte) (w : CmdWord) :
    wordB op n val = w ↔ opField w = op ∧ w.extractLsb' 12 12 = 0#12 ∧ countField w = n ∧ lowField w = val := by
  have := w.isLt
  simp only [← BitVec.toNat_inj, toNat_wordB, opField, countField, lowField, toNat_field, BitVec.toNat_ofNat]
  omega

@[simp] theorem opField_wordS (op sym : Byte) : opField (wordS op sym) = op :=
  ((wordS_eq_iff op sym _).1 rfl).1

@[simp] theorem lowField_wordS (op sym : Byte) : lowField (wordS op sym) = sym :=
  ((wordS_eq_iff op sym _).1 rfl).2.2

@[simp] theorem opField_wordB (op : Byte) (n : BitVec 4) (val : Byte) : opField (wordB op n val) = op :=
  ((wordB_eq_iff op n val _).1 rfl).1

@[simp] theorem countField_wordB (op : Byte) (n : BitVec 4) (val : Byte) : countField (wordB op n val) = n :=
  ((wordB_eq_iff op n val _).1 rfl).2.2.1

@[simp] theorem lowField_wordB (op : Byte) (n : BitVec 4) (val : Byte) : lowField (wordB op n val) = val :=
  ((wordB_eq_iff op n val _).1 rfl).2.2.2

/-! ### What each format accepts -/

theorem formatZ_eq_ok (w : CmdWord) (i j : Instr) : formatZ w i = .ok j ↔ wordZ (opField w) = w ∧ i = j := by
  rw [wordZ_eq_iff, formatZ]
  split_ifs <;> simp_all

theorem formatS_eq_ok (w : CmdWord) (mk : Byte → Instr) (j : Instr) :
    formatS w mk = .ok j ↔ wordS (opField w) (lowField w) = w ∧ mk (lowField w) = j := by
  rw [wordS_eq_iff, formatS]
  split_ifs <;> simp_all

theorem formatB_eq_ok (w : CmdWord) (mk : BitVec 4 → Byte → Instr) (j : Instr) :
    formatB w mk = .ok j ↔ wordB (opField w) (countField w) (lowField w) = w ∧
      (countOk (countField w) && valueOk (countField w) (lowField w)) = true ∧
      mk (countField w) (lowField w) = j := by
  rw [wordB_eq_iff, formatB]
  split_ifs <;> simp_all

theorem formatN_eq_ok (w : CmdWord) (mk : BitVec 4 → Instr) (j : Instr) :
    formatN w mk = .ok j ↔ wordB (opField w) (countField w) 0 = w ∧ countOk (countField w) = true ∧
      mk (countField w) = j := by
  rw [wordB_eq_iff, formatN]
  split_ifs <;> simp_all

/-! ### Decoding is the inverse of encoding -/

theorem encode_of_formatZ {w : CmdWord} {op : Byte} {i j : Instr} (henc : encode i = wordZ op)
    (hwf : i.wellFormed = true) (hop : (opField w).toNat = op.toNat) (h : formatZ w i = .ok j) :
    encode j = w ∧ j.wellFormed = true := by
  obtain ⟨hw, rfl⟩ := (formatZ_eq_ok w i j).1 h
  exact ⟨by rw [henc, ← BitVec.eq_of_toNat_eq hop, hw], hwf⟩

theorem encode_of_formatS {w : CmdWord} (op : Byte) {mk : Byte → Instr} {j : Instr}
    (henc : ∀ sym, encode (mk sym) = wordS op sym) (hwf : ∀ sym, (mk sym).wellFormed = true)
    (hop : (opField w).toNat = op.toNat) (h : formatS w mk = .ok j) : encode j = w ∧ j.wellFormed = true := by
  obtain ⟨hw, rfl⟩ := (formatS_eq_ok w mk j).1 h
  exact ⟨by rw [henc, ← BitVec.eq_of_toNat_eq hop, hw], hwf _⟩

/-- The decoder answers only the command whose encoding the word is, and only where its operands are legal. The cases are
the rows of the opcode map: formats S, B and N, no row, and format Z for the rest. -/
theorem encode_of_decode {w : CmdWord} {i : Instr} (h : decode w = .ok i) : encode i = w ∧ i.wellFormed = true := by
  unfold decode at h
  split at h
  case h_4 hop => exact encode_of_formatS 0x11 (fun _ => rfl) (fun _ => rfl) hop h
  case h_5 hop => exact encode_of_formatS 0x12 (fun _ => rfl) (fun _ => rfl) hop h
  case h_10 hop =>
    obtain ⟨hw, hok, rfl⟩ := (formatB_eq_ok w _ i).1 h
    rw [show opField w = 0x21 from BitVec.eq_of_toNat_eq hop] at hw
    exact ⟨hw, hok⟩
  case h_13 hop =>
    obtain ⟨hw, hok, rfl⟩ := (formatN_eq_ok w _ i).1 h
    rw [show opField w = 0x25 from BitVec.eq_of_toNat_eq hop] at hw
    exact ⟨hw, hok⟩
  case h_19 => cases h
  all_goals exact encode_of_formatZ rfl rfl ‹_› h

theorem decode_encode {i : Instr} (h : i.wellFormed = true) : decode (encode i) = .ok i := by
  cases i
  case htEnc sym => simp [decode, encode, formatS_eq_ok]
  case htUpd sym => simp [decode, encode, formatS_eq_ok]
  case bpPut n val => simpa [decode, encode, formatB_eq_ok, Instr.wellFormed] using h
  case buGet n => simpa [decode, encode, formatN_eq_ok, Instr.wellFormed] using h
  all_goals rfl

theorem decode_eq_ok_iff (w : CmdWord) (i : Instr) : decode w = .ok i ↔ encode i = w ∧ i.wellFormed = true := by
  constructor
  · exact encode_of_decode
  · rintro ⟨rfl, h⟩
    exact decode_encode h

/-- Settles O2: the fields that a format's decoder reads, with zeros elsewhere, make up the whole word. -/
theorem decodeInvertsEncode : Obligations.DecodeInvertsEncode :=
  ⟨fun _ => decode_encode, fun _ _ h => (encode_of_decode h).1⟩

/-! ### The rows of the opcode map -/

theorem eq_append_fields (w : CmdWord) : w = w.extractLsb' 12 20 ++ w.extractLsb' 8 4 ++ w.extractLsb' 0 8 := by
  rw [← BitVec.toNat_inj, toNat_append_eq, toNat_append_eq, toNat_field, toNat_field, toNat_field]
  omega

theorem toNat_append_and_append (x a : BitVec 20) (y b : BitVec 4) (z c : BitVec 8) :
    ((x ++ y ++ z) &&& (a ++ b ++ c)).toNat =
      (x &&& a).toNat * 2 ^ 12 + (y &&& b).toNat * 2 ^ 8 + (z &&& c).toNat := by
  rw [BitVec.and_append, BitVec.and_append, toNat_append_eq, toNat_append_eq]
  omega

/-- A mask acts on bits 31:12, 11:8 and 7:0 of a word each by itself. -/
theorem toNat_and_mask (w : CmdWord) (a : BitVec 20) (b : BitVec 4) (c : BitVec 8) :
    (w &&& (a ++ b ++ c)).toNat = (w.extractLsb' 12 20 &&& a).toNat * 2 ^ 12 +
      (w.extractLsb' 8 4 &&& b).toNat * 2 ^ 8 + (w.extractLsb' 0 8 &&& c).toNat :=
  (congrArg (fun v => (v &&& (a ++ b ++ c)).toNat) (eq_append_fields w)).trans (toNat_append_and_append _ a _ b _ c)

theorem rowZ_iff (m w : CmdWord) : w &&& 0xFFFFFFFF = m ↔ m = w := by
  rw [show w &&& 0xFFFFFFFF = w from BitVec.and_allOnes, eq_comm]

theorem rowS_iff (op sym : Byte) (w : CmdWord) :
    w &&& 0xFFFFFF00 = wordZ op ∧ sym = lowField w ↔ wordS op sym = w := by
  rw [show (0xFFFFFF00 : CmdWord) = BitVec.allOnes 20 ++ BitVec.allOnes 4 ++ 0#8 from rfl]
  simp only [← BitVec.toNat_inj, toNat_and_mask, BitVec.and_allOnes, BitVec.and_zero, toNat_wordZ, toNat_wordS,
    lowField, toNat_field, BitVec.toNat_ofNat]
  omega

theorem rowB_iff (op : Byte) (n : BitVec 4) (val : Byte) (w : CmdWord) :
    w &&& 0xFFFFF000 = wordZ op ∧ n = countField w ∧ val = lowField w ↔ wordB op n val = w := by
  rw [show (0xFFFFF000 : CmdWord) = BitVec.allOnes 20 ++ 0#4 ++ 0#8 from rfl]
  simp only [← BitVec.toNat_inj, toNat_and_mask, BitVec.and_allOnes, BitVec.and_zero, toNat_wordZ, toNat_wordB,
    countField, lowField, toNat_field, BitVec.toNat_ofNat]
  omega

theorem rowN_iff (op : Byte) (n : BitVec 4) (w : CmdWord) :
    w &&& 0xFFFFF0FF = wordZ op ∧ n = countField w ↔ wordB op n 0#8 = w := by
  rw [show (0xFFFFF0FF : CmdWord) = BitVec.allOnes 20 ++ 0#4 ++ BitVec.allOnes 8 from rfl]
  simp only [← BitVec.toNat_inj, toNat_and_mask, BitVec.and_allOnes, BitVec.and_zero, toNat_wordZ, toNat_wordB,
    countField, toNat_field, BitVec.toNat_ofNat]
  omega

/-- A word selects the row of `i` and holds its operands exactly when it is the encoding of `i`. -/
theorem row_iff_encode (w : CmdWord) (i : Instr) :
    w &&& i.rowMask = i.rowMatch ∧ i.operandsIn w = true ↔ encode i = w := by
  cases i
  case htEnc sym => rw [Instr.operandsIn, decide_eq_true_iff]; exact rowS_iff 0x11 sym w
  case htUpd sym => rw [Instr.operandsIn, decide_eq_true_iff]; exact rowS_iff 0x12 sym w
  case bpPut n val => rw [Instr.operandsIn, decide_eq_true_iff]; exact rowB_iff 0x21 n val w
  case buGet n => rw [Instr.operandsIn, decide_eq_true_iff]; exact rowN_iff 0x25 n w
  all_goals exact (and_iff_left rfl).trans (rowZ_iff _ w)

/-- Settles O1: row and operand fields pin a word down to the command's encoding, which is what the decoder answers to. -/
theorem decoderFollowsOpcodeMap : Obligations.DecoderFollowsOpcodeMap := by
  intro w i
  rw [decode_eq_ok_iff, ← row_iff_encode, and_assoc, and_comm (a := i.operandsIn w = true)]

/-- Settles O3: the legal words are encodings of well-formed commands, the others are refused by evaluation. -/
theorem specWordsDecode : Obligations.SpecWordsDecode :=
  ⟨decode_encode (i := .htEnc 0x61) rfl, decode_encode (i := .htUpd 0x61) rfl, decode_encode (i := .bpPut 3 5) rfl,
    decode_encode (i := .buGet 8) rfl, decode_encode (i := .abrEnc) rfl, decode_encode (i := .srst) rfl,
    decode_encode (i := .rleEnc) rfl, by decide⟩

end Sys2Proof

/-! ## The bit source -/

namespace Sys2Proof.Machine

/-! ### Bytes as bits -/

theorem bytesBits_append (x y : List Byte) : bytesBits (x ++ y) = bytesBits x ++ bytesBits y :=
  List.flatMap_append

/-- Bit number `i` of a run of bytes is bit `7 - i mod 8` of byte `i div 8` (30_encoding.md R102). -/
theorem bytesBits_map_range (f : Nat → Byte) (n : Nat) :
    bytesBits ((List.range n).map f) = (List.range (8 * n)).map fun i => (f (i / 8)).getLsbD (7 - i % 8) := by
  induction n with
  | zero => rfl
  | succ n ih =>
    have hlast : msbFirst 8 (f n) =
        (List.range 8).map fun i => (f ((8 * n + i) / 8)).getLsbD (7 - (8 * n + i) % 8) := by
      refine List.map_inj_left.2 fun i hi => ?_
      have := List.mem_range.1 hi
      rw [show (8 * n + i) / 8 = n by omega, show (8 * n + i) % 8 = i by omega]
    rw [List.range_succ, List.map_append, bytesBits_append, ih, Nat.mul_succ, List.range_add, List.map_append,
      List.map_map]
    exact congrArg _ ((List.append_nil _).trans hlast)

/-- The literal of a symbol stands for it (40_aht.md R135, R136). -/
theorem bitsValue_msbFirst (v : Byte) : bitsValue (msbFirst 8 v) = v.toNat := by
  revert v
  decide

/-! ### The unread bits -/

theorem State.inputBits_eq (s : State) : s.inputBits =
    (List.range (8 * s.inputEnd)).map fun i => (s.readIbuf (i / 8)).getLsbD (7 - i % 8) := by
  rw [inputBits, memRead, bytesBits_map_range]
  simp only [Nat.zero_add]

@[simp] theorem State.length_inputBits (s : State) : s.inputBits.length = 8 * s.inputEnd := by
  simp [inputBits_eq]

theorem State.length_unreadBits (s : State) : s.unreadBits.length = s.bitsLeft := by
  have := s.unpacker.ibit.isLt
  rw [unreadBits, List.length_drop, length_inputBits, bitsLeft, Unpacker.bitIndex]
  omega

theorem State.unreadBits_eq_nil_iff (s : State) : s.unreadBits = [] ↔ s.inputEnd ≤ s.unpacker.ipos.toNat := by
  have := s.unpacker.ibit.isLt
  rw [← List.length_eq_zero_iff, length_unreadBits, bitsLeft]
  omega

/-- While an input byte is left, the next unread bit is the one at the cursor. -/
theorem State.unreadBits_eq_cons {s : State} (h : s.unpacker.ipos.toNat < s.inputEnd) :
    s.unreadBits = (s.readIbuf s.unpacker.ipos.toNat).getLsbD (7 - s.unpacker.ibit.toNat) ::
      s.inputBits.drop (s.unpacker.bitIndex + 1) := by
  have := s.unpacker.ibit.isLt
  have hlt : s.unpacker.bitIndex < s.inputBits.length := by rw [length_inputBits, Unpacker.bitIndex]; omega
  rw [unreadBits, List.drop_eq_getElem_cons hlt]
  simp only [inputBits_eq, List.getElem_map, List.getElem_range, Unpacker.bitIndex]
  rw [show (8 * s.unpacker.ipos.toNat + s.unpacker.ibit.toNat) / 8 = s.unpacker.ipos.toNat by omega,
    show (8 * s.unpacker.ipos.toNat + s.unpacker.ibit.toNat) % 8 = s.unpacker.ibit.toNat by omega]

theorem State.inputEnd_lt (s : State) : s.inputEnd < 2 ^ 64 :=
  (Nat.min_le_left _ _).trans_lt s.operands.ilen.isLt

/-- The cursor moves by one bit. -/
theorem Unpacker.bitIndex_next {u : Unpacker} (h : u.ipos.toNat < 2 ^ 64 - 1) : u.next.bitIndex = u.bitIndex + 1 := by
  have hi := u.ibit.isLt
  unfold Unpacker.next Unpacker.bitIndex
  split
  · next h7 =>
    have hpos : (u.ipos + 1).toNat = u.ipos.toNat + 1 := by
      rw [BitVec.toNat_add, show (1 : Word).toNat = 1 from rfl]
      omega
    simp only [hpos, h7, show (0 : BitVec 3).toNat = 0 from rfl, show (7 : BitVec 3).toNat = 7 from rfl]
    omega
  · next h7 =>
    have : u.ibit.toNat ≠ 7 := fun h => h7 (BitVec.eq_of_toNat_eq h)
    have hbit : (u.ibit + 1).toNat = u.ibit.toNat + 1 := by
      rw [BitVec.toNat_add, show (1 : BitVec 3).toNat = 1 from rfl]
      omega
    simp only [hbit]
    omega

/-! ### Reading ahead -/

/-- The state with the cursor `n` bits on. -/
def State.skip (s : State) (n : Nat) : State := { s with unpacker := Unpacker.next^[n] s.unpacker }

theorem State.skip_skip (s : State) (m n : Nat) : (s.skip m).skip n = s.skip (m + n) := by
  simp only [skip, Nat.add_comm m n, Function.iterate_add_apply]

theorem getBit_of_nil {s : State} (h : s.unreadBits = []) : getBit s = (none, s) :=
  if_pos (s.unreadBits_eq_nil_iff.1 h)

theorem State.cursor_lt_of_cons {s : State} {b : Bool} {rest : List Bool} (h : s.unreadBits = b :: rest) :
    s.unpacker.ipos.toNat < s.inputEnd := by
  refine Nat.lt_of_not_le fun hle => ?_
  rw [s.unreadBits_eq_nil_iff.2 hle] at h
  cases h

theorem getBit_of_cons {s : State} {b : Bool} {rest : List Bool} (h : s.unreadBits = b :: rest) :
    getBit s = (some b, s.skip 1) := by
  have hlt := State.cursor_lt_of_cons h
  rw [State.unreadBits_eq_cons hlt, List.cons.injEq] at h
  rw [getBit, if_neg (Nat.not_le.2 hlt), h.1]
  rfl

theorem State.bitIndex_skip_one {s : State} {b : Bool} {rest : List Bool} (h : s.unreadBits = b :: rest) :
    (s.skip 1).unpacker.bitIndex = s.unpacker.bitIndex + 1 := by
  have := State.cursor_lt_of_cons h
  have := s.inputEnd_lt
  exact Unpacker.bitIndex_next (by omega)

theorem State.unreadBits_skip_one {s : State} {b : Bool} {rest : List Bool} (h : s.unreadBits = b :: rest) :
    (s.skip 1).unreadBits = rest := by
  have hidx := State.bitIndex_skip_one h
  rw [State.unreadBits_eq_cons (State.cursor_lt_of_cons h), List.cons.injEq] at h
  rw [unreadBits, hidx]
  exact h.2

/-- Reading a run of unread bits leaves the bits after it, and moves the cursor by its length. -/
theorem State.skip_append {s : State} {bits rest : List Bool} (h : s.unreadBits = bits ++ rest) :
    (s.skip bits.length).unreadBits = rest ∧
      (s.skip bits.length).unpacker.bitIndex = s.unpacker.bitIndex + bits.length := by
  induction bits generalizing s with
  | nil => exact ⟨h, rfl⟩
  | cons b bits ih =>
    obtain ⟨h1, h2⟩ := ih (State.unreadBits_skip_one h)
    rw [State.bitIndex_skip_one h] at h2
    rw [List.length_cons, Nat.add_comm, ← State.skip_skip]
    exact ⟨h1, by rw [h2]; omega⟩

theorem State.unreadBits_skip_all (s : State) : (s.skip s.unreadBits.length).unreadBits = [] :=
  (State.skip_append (List.append_nil _).symm).1

/-! ### Several bits, and the literal -/

theorem getBits_cons {s : State} {b : Bool} {rest : List Bool} (h : s.unreadBits = b :: rest) (n v : Nat) :
    getBits (n + 1) v s = getBits n (2 * v + b.toNat) (s.skip 1) := by
  rw [getBits, getBit_of_cons h]

theorem getBits_append {s : State} {bits rest : List Bool} (h : s.unreadBits = bits ++ rest) (v : Nat) :
    getBits bits.length v s =
      (some (bits.foldl (fun v b => 2 * v + b.toNat) v), s.skip bits.length) := by
  induction bits generalizing s v with
  | nil => rfl
  | cons b bits ih =>
    rw [List.length_cons, getBits_cons h, ih (State.unreadBits_skip_one h), State.skip_skip, Nat.add_comm 1]
    rfl

/-- Where fewer bits are left than asked for, all of them are consumed. -/
theorem getBits_cut {n : Nat} {s : State} (h : s.unreadBits.length < n) (v : Nat) :
    getBits n v s = (none, s.skip s.unreadBits.length) := by
  induction n generalizing s v with
  | zero => omega
  | succ n ih =>
    cases hu : s.unreadBits with
    | nil => rw [getBits, getBit_of_nil hu]; rfl
    | cons b rest =>
      have hrest := State.unreadBits_skip_one hu
      rw [hu, List.length_cons] at h
      rw [getBits_cons hu, ih (by rw [hrest]; omega), hrest, State.skip_skip, List.length_cons, Nat.add_comm 1]

theorem decodeLiteral_append {s : State} {v : Byte} {rest : List Bool} (h : s.unreadBits = msbFirst 8 v ++ rest) :
    decodeLiteral s = (some v, s.skip 8) := by
  have hbits := getBits_append h 0
  rw [msbFirst_length] at hbits
  have hv : BitVec.ofNat 8 (bitsValue (msbFirst 8 v)) = v := by
    rw [bitsValue_msbFirst, BitVec.ofNat_toNat, BitVec.setWidth_eq]
  rw [decodeLiteral, hbits]
  exact congrArg (fun w => (some w, s.skip 8)) hv

theorem decodeLiteral_cut {s : State} (h : s.unreadBits.length < 8) :
    decodeLiteral s = (none, s.skip s.unreadBits.length) := by
  rw [decodeLiteral, getBits_cut h]

/-! ## Decoding a symbol -/

/-! ### The walk of `decode_symbol` -/

theorem Tree.descend_eq_some_cons {t : Tree} {n m : Nat} {b : Bool} {bits : List Bool}
    (h : t.descend n (b :: bits) = some m) :
    ∃ l r, t.body n = some (.int l r) ∧ t.descend (if b then r else l) bits = some m := by
  rw [Tree.descend] at h
  split at h
  · next l r hb => exact ⟨l, r, hb, h⟩
  · cases h

theorem decodeFrom_int_nil {s : State} {n l r : Nat} (hb : s.tree.body n = some (.int l r)) (h : s.unreadBits = [])
    (k : Nat) : decodeFrom (k + 1) n s = (none, s) := by
  simp only [decodeFrom, hb, getBit_of_nil h]

theorem decodeFrom_int_cons {s : State} {n l r : Nat} (hb : s.tree.body n = some (.int l r)) {b : Bool}
    {rest : List Bool} (h : s.unreadBits = b :: rest) (k : Nat) :
    decodeFrom (k + 1) n s = decodeFrom k (if b then r else l) (s.skip 1) := by
  simp only [decodeFrom, hb, getBit_of_cons h]

theorem decodeFrom_leaf {s : State} {n : Nat} {v : Byte} (hb : s.tree.body n = some (.leaf v)) {k : Nat} (hk : 0 < k) :
    decodeFrom k n s = (some v, s) := by
  obtain ⟨k, rfl⟩ := Nat.exists_eq_add_of_lt hk
  rw [Nat.zero_add, decodeFrom, hb]

theorem decodeFrom_nyt {s : State} {n : Nat} (hb : s.tree.body n = some .nyt) {k : Nat} (hk : 0 < k) :
    decodeFrom k n s = decodeLiteral s := by
  obtain ⟨k, rfl⟩ := Nat.exists_eq_add_of_lt hk
  rw [Nat.zero_add, decodeFrom, hb]

/-- The walk follows direction bits as `descend` does, a round for each. -/
theorem decodeFrom_descend {s : State} {bits rest : List Bool} (h : s.unreadBits = bits ++ rest) {n m k : Nat}
    (hd : s.tree.descend n bits = some m) (hk : bits.length < k) :
    decodeFrom k n s = decodeFrom (k - bits.length) m (s.skip bits.length) := by
  induction bits generalizing s n k with
  | nil => rw [← Option.some.inj hd]; rfl
  | cons b bits ih =>
    obtain ⟨l, r, hb, hd⟩ := Tree.descend_eq_some_cons hd
    rw [List.length_cons] at hk ⊢
    obtain ⟨k, rfl⟩ := Nat.exists_eq_add_of_lt (Nat.zero_lt_of_lt hk)
    rw [Nat.zero_add] at hk ⊢
    rw [decodeFrom_int_cons hb h, ih (State.unreadBits_skip_one h) hd (by omega), State.skip_skip, Nat.add_comm 1,
      Nat.add_sub_add_right]

/-- Direction bits that end before they have led to a childless entry are consumed. -/
theorem decodeFrom_cut {s : State} {more : List Bool} (hmore : more ≠ []) {n m k : Nat}
    (hd : s.tree.descend n (s.unreadBits ++ more) = some m) (hk : s.unreadBits.length < k) :
    decodeFrom k n s = (none, s.skip s.unreadBits.length) := by
  generalize hu : s.unreadBits = bits at hd hk
  obtain ⟨k, rfl⟩ := Nat.exists_eq_add_of_lt (Nat.zero_lt_of_lt hk)
  rw [Nat.zero_add] at hk ⊢
  induction bits generalizing s n k with
  | nil =>
    obtain ⟨b, more, rfl⟩ := List.exists_cons_of_ne_nil hmore
    obtain ⟨l, r, hb, -⟩ := Tree.descend_eq_some_cons hd
    exact decodeFrom_int_nil hb hu k
  | cons b bits ih =>
    obtain ⟨l, r, hb, hd⟩ := Tree.descend_eq_some_cons hd
    rw [List.length_cons] at hk
    obtain ⟨k, rfl⟩ := Nat.exists_eq_add_of_lt (show 0 < k by omega)
    rw [Nat.zero_add] at hk ⊢
    rw [decodeFrom_int_cons hb hu, ih (State.unreadBits_skip_one hu) hd k (by omega), State.skip_skip,
      List.length_cons, Nat.add_comm 1]

theorem getBits_none {n v : Nat} {s t : State} (h : getBits n v s = (none, t)) : t.unreadBits = [] := by
  rcases Nat.lt_or_ge s.unreadBits.length n with hlt | hge
  · rw [getBits_cut hlt] at h
    cases h
    exact s.unreadBits_skip_all
  · have hbits := getBits_append (List.take_append_drop n s.unreadBits).symm v
    rw [List.length_take_of_le hge, h] at hbits
    cases hbits

theorem decodeLiteral_none {s t : State} (h : decodeLiteral s = (none, t)) : t.unreadBits = [] := by
  unfold decodeLiteral at h
  split at h
  · next heq => cases h; exact getBits_none heq
  · cases h

/-- On any table, the walk reports the end only where no bit is left. -/
theorem decodeFrom_none {k n : Nat} {s t : State} (hk : s.unreadBits.length < k) (h : decodeFrom k n s = (none, t)) :
    t.unreadBits = [] := by
  induction k generalizing n s with
  | zero => omega
  | succ k ih =>
    unfold decodeFrom at h
    split at h
    · cases hu : s.unreadBits with
      | nil =>
        rw [getBit_of_nil hu] at h
        cases h
        exact hu
      | cons b rest =>
        have hrest := State.unreadBits_skip_one hu
        rw [getBit_of_cons hu] at h
        rw [hu, List.length_cons] at hk
        exact ih (by rw [hrest]; omega) h
    · cases h
    · exact decodeLiteral_none h
    · exact decodeLiteral_none h

theorem decodeSymbol_none {s t : State} (h : decodeSymbol s = (none, t)) : t.unreadBits = [] :=
  decodeFrom_none (by rw [s.length_unreadBits]; exact Nat.lt_succ_self _) h

/-! ### Codes and literals -/

/-- The bits that stand for a symbol where a decoder has this tree: its code, and its literal after the NYT path whether
or not it has a leaf (40_aht.md R136, 93_implementation_defined.md U6). -/
def Tree.Spells (t : Tree) (v : Byte) (bits : List Bool) : Prop :=
  bits = t.code v ∨ bits = t.path t.nytn ++ msbFirst 8 v

theorem Tree.Spells.cases {t : Tree} {v : Byte} {bits : List Bool} (h : t.Spells v bits) :
    (∃ n, t.leafNum v = some n ∧ bits = t.path n) ∨ bits = t.path t.nytn ++ msbFirst 8 v := by
  rcases h with rfl | h
  · cases hv : t.leafNum v with
    | some n => exact .inl ⟨n, rfl, Tree.code_seen hv⟩
    | none => exact .inr (Tree.code_unseen hv)
  · exact .inr h

section Decode

variable {s : State} (hs : s.tree.Inv) {v : Byte} {bits : List Bool} (hbits : s.tree.Spells v bits)
include hs hbits

/-- `decode_symbol` inverts `code` (40_aht.md R150). -/
theorem decodeSymbol_spells {rest : List Bool} (h : s.unreadBits = bits ++ rest) :
    decodeSymbol s = (some v, s.skip bits.length) := by
  have hfuel : bits.length < s.bitsLeft + 1 := by
    rw [← s.length_unreadBits, h, List.length_append]
    omega
  rcases hbits.cases with ⟨n, hv, rfl⟩ | rfl
  · have hb := hs.shape.body_leaf hv
    rw [decodeSymbol, rootNum, decodeFrom_descend h (hs.shape.descend_path hb) hfuel,
      decodeFrom_leaf (s := s.skip _) hb (by omega)]
  · have hb := (hs.shape.nyt s.tree.nytn).2 rfl
    rw [List.append_assoc] at h
    rw [List.length_append] at hfuel ⊢
    rw [decodeSymbol, rootNum, decodeFrom_descend h (hs.shape.descend_path hb) (by omega),
      decodeFrom_nyt (s := s.skip _) hb (by omega), decodeLiteral_append (State.skip_append h).1, State.skip_skip,
      msbFirst_length]

/-- Where the bits run out before the symbol is complete, they are consumed and the end is reported. -/
theorem decodeSymbol_cut {more : List Bool} (hmore : more ≠ []) (h : s.unreadBits ++ more = bits) :
    decodeSymbol s = (none, s.skip s.unreadBits.length) := by
  have hfuel : s.unreadBits.length < s.bitsLeft + 1 := by rw [s.length_unreadBits]; exact Nat.lt_succ_self _
  rcases hbits.cases with ⟨n, hv, hp⟩ | hp
  · have hd := hs.shape.descend_path (hs.shape.body_leaf hv)
    rw [← hp, ← h] at hd
    exact decodeFrom_cut hmore hd hfuel
  · have hb := (hs.shape.nyt s.tree.nytn).2 rfl
    have hd := hs.shape.descend_path hb
    have hu : s.unreadBits <+: bits := ⟨more, h⟩
    have hpath : s.tree.path s.tree.nytn <+: bits := ⟨_, hp.symm⟩
    rcases Nat.lt_or_ge s.unreadBits.length (s.tree.path s.tree.nytn).length with hlt | hge
    · obtain ⟨rest, hrest⟩ := List.prefix_of_prefix_length_le hu hpath hlt.le
      have hne : rest ≠ [] := fun hnil => by rw [← hrest, hnil, List.append_nil] at hlt; exact lt_irrefl _ hlt
      rw [← hrest] at hd
      exact decodeFrom_cut hne hd hfuel
    · obtain ⟨lit, hlit⟩ := List.prefix_of_prefix_length_le hpath hu hge
      obtain ⟨hskip, -⟩ := State.skip_append hlit.symm
      have hlen : lit.length < 8 := by
        have hsum := congrArg List.length (h.trans hp)
        have := List.length_pos_of_ne_nil hmore
        simp only [← hlit, List.length_append, msbFirst_length] at hsum
        omega
      rw [decodeSymbol, rootNum, decodeFrom_descend hlit.symm hd (by omega),
        decodeFrom_nyt (s := s.skip _) hb (by omega), decodeLiteral_cut (by rw [hskip]; exact hlen), hskip,
        State.skip_skip, ← List.length_append, hlit]

end Decode

/-- The end of the stream as the host reads it (40_aht.md R147). -/
theorem State.readReg_result_none (s : State) : (s.setResult none).readReg .result = 0x100 :=
  show (BitVec.ofBool true ++ 0#8).setWidth 64 = 0x100#64 by decide

/-- Settles O24: the code leads from the root to the leaf, or to the NYT entry, after which the literal follows. -/
theorem htDecInvertsCode : Obligations.HtDecInvertsCode := by
  intro s v rest hs h
  obtain ⟨bits, hbits, hu⟩ : ∃ bits, s.tree.Spells v bits ∧ s.unreadBits = bits ++ rest :=
    h.elim (fun h => ⟨_, .inl rfl, h⟩) fun h => ⟨_, .inr rfl, h⟩
  refine ⟨_, rfl, ?_⟩
  rw [decodeSymbol_spells hs hbits hu]
  exact ⟨(State.skip_append hu).1, rfl⟩

/-- Settles O25: a walk or a literal that lacks bits reports the end and leaves none. -/
theorem htDecReportsEnd : Obligations.HtDecReportsEnd := by
  intro s v more hs hmore h
  refine ⟨_, rfl, ?_⟩
  rw [decodeSymbol_cut hs h hmore rfl]
  exact ⟨s.unreadBits_skip_all, State.readReg_result_none _, rfl⟩

/-- Settles O26: the walk changes the cursor only, and reports the end only where no bit is left. -/
theorem htDecFrame : Obligations.HtDecFrame := by
  intro s
  obtain ⟨u, hu⟩ := decodeSymbol_frame s
  refine ⟨_, rfl, by rw [hu]; rfl, fun heos => ?_⟩
  have hnone : (decodeSymbol s).1 = none := Option.isNone_iff_eq_none.1 heos
  refine ⟨congrArg (Option.getD · 0) hnone, ?_⟩
  have hnil : (decodeSymbol s).2.unreadBits = [] := decodeSymbol_none (Prod.ext hnone rfl)
  rw [State.unreadBits_eq_nil_iff, hu] at hnil
  rw [hu]
  exact hnil

end Sys2Proof.Machine

/-! ## Split, leader and swap, as the spec words them -/

namespace Sys2Proof.Machine

/-- Settles O17: the split writes three different entries, and an unseen symbol leaves room for two more. -/
theorem splitNumbersChildren : Obligations.SplitNumbersChildren := by
  refine ⟨fun t s h hs => h.shape.two_le_nytn hs, fun t s e h2 he => ?_⟩
  have hget : ∀ n, Table.get (t.split s).node n =
      if n = t.nytn - 1 then some ⟨some t.nytn, 0, .leaf s⟩
      else if n = t.nytn - 2 then some ⟨some t.nytn, 0, .nyt⟩
      else if n = t.nytn then some { e with body := .int (t.nytn - 2) (t.nytn - 1) }
      else Table.get t.node n := fun n => by simp only [Tree.split, he, Table.get_set]
  have hleaf : ∀ v, (t.split s).leafNum v = if v = s then some (t.nytn - 1) else t.leafNum v := fun v => by
    simp only [Tree.split, he, Tree.leafNum, Table.get_set, BitVec.toNat_inj]
  refine ⟨by rw [Tree.split, he], ?_, ?_, ?_, fun n h0 h1 h2 => ?_, ?_, fun v hv => ?_⟩
  · rw [hget, if_neg (by omega), if_neg (by omega), if_pos rfl]
  · rw [hget, if_neg (by omega), if_pos rfl]
  · rw [hget, if_pos rfl]
  · rw [hget, if_neg h1, if_neg h2, if_neg h0]
  · rw [hleaf, if_pos rfl]
  · rw [hleaf, if_neg hv]

/-- Settles O18: the downward scan stops at the highest number that qualifies, and the highest is only one. -/
theorem leaderIsHighestEqual : Obligations.LeaderIsHighestEqual := by
  intro t cur e he
  have hscan : t.leader cur = t.leaderScan cur e.freq e.parent 512 := by rw [Tree.leader, he]; rfl
  rw [hscan]
  cases hl : t.leaderScan cur e.freq e.parent 512 with
  | none =>
    have hno := Tree.leaderScan_none hl
    exact ⟨fun m => ⟨nofun, fun ⟨h1, h2, h3, h4, _⟩ => absurd h4 (hno m h1 h2 h3)⟩, iff_of_true rfl hno⟩
  | some l =>
    obtain ⟨h1, h2, h3, h4, h5⟩ := Tree.leaderScan_some hl
    refine ⟨fun m => ⟨?_, fun ⟨g1, g2, g3, g4, g5⟩ => ?_⟩,
      iff_of_false nofun fun hno => hno l h1 h2 h3 h4⟩
    · rintro ⟨⟩
      exact ⟨h1, h2, h3, h4, h5⟩
    · rcases Nat.lt_trichotomy l m with hlt | rfl | hgt
      · exact absurd g4 (h5 m hlt g2 g3)
      · rfl
      · exact absurd h4 (g5 l hgt h2 h3)

theorem Tree.get_eq_some {t : Tree} {n : Nat} {b : Body} (hb : t.body n = some b) :
    Table.get t.node n = some ⟨t.parent n, t.count n, b⟩ := by
  obtain ⟨e, he, rfl⟩ := Tree.get_of_body hb
  rw [Tree.parent_of_get he, Tree.count_of_get he, he]

theorem Tree.isChild_of_get {t : Tree} {n c : Nat} {e : Entry} (he : Table.get t.node n = some e) :
    t.IsChild c n ↔ ∃ l r, e.body = .int l r ∧ (c = l ∨ c = r) := by
  simp only [Tree.IsChild, Tree.body_of_get he, Option.some.injEq]

/-- Settles O19: of the two entries neither is a child of the other, so `swap` leaves both their parents. -/
theorem swapExchangesContents : Obligations.SwapExchangesContents := by
  intro t p q a b hinv hpq ha hb hap hbp hac hbc
  have h := hinv.shape
  have hp : (Table.get t.node p).isSome = true := by rw [ha]; rfl
  have hq : (Table.get t.node q).isSome = true := by rw [hb]; rfl
  have hbody := Tree.swap_body hp hq
  have hcount := Tree.swap_count hp hq
  have noSelf : ∀ n, ¬ t.IsChild n n := fun n hn => by have := h.isChild_bounds hn; omega
  have hpc : ¬ t.IsChild p q := fun hc => hap (by rw [← Tree.parent_of_get ha, (h.child p q).2 hc])
  have hqc : ¬ t.IsChild q p := fun hc => hbp (by rw [← Tree.parent_of_get hb, (h.child q p).2 hc])
  have right : ∀ l r, b.body = .int l r → ∀ c, c = l ∨ c = r → (t.swap p q).parent c = some p := by
    intro l r hlr c hc
    have hchild : t.IsChild c q := (Tree.isChild_of_get hb).2 ⟨l, r, hlr, hc⟩
    exact Tree.swap_parent_right hp hq hpq (fun hn => hpq (h.isChild_unique hn hchild)) hchild (h.isChild_alloc hchild)
  have left : ∀ l r, a.body = .int l r → ∀ c, c = l ∨ c = r → (t.swap p q).parent c = some q := by
    intro l r hlr c hc
    have hchild : t.IsChild c p := (Tree.isChild_of_get ha).2 ⟨l, r, hlr, hc⟩
    exact Tree.swap_parent_left hp hq hchild (h.isChild_alloc hchild)
  refine ⟨?_, ?_, fun l r e => ⟨left l r e l (.inl rfl), left l r e r (.inr rfl)⟩,
    fun l r e => ⟨right l r e l (.inl rfl), right l r e r (.inr rfl)⟩, fun v => ?_, t.swap_nytn p q⟩
  · rw [Tree.get_eq_some (b := b.body) (by rw [hbody, if_neg hpq, if_pos rfl, Tree.body_of_get hb]),
      Tree.swap_parent_other hp hq hpq (noSelf p) hpc, Tree.parent_of_get ha, hcount, if_neg hpq, if_pos rfl,
      Tree.count_of_get hb]
  · rw [Tree.get_eq_some (b := a.body) (by rw [hbody, if_pos rfl, Tree.body_of_get ha]),
      Tree.swap_parent_other hp hq hpq hqc (noSelf q), Tree.parent_of_get hb, hcount, if_pos rfl,
      Tree.count_of_get ha]
  · rw [Tree.swap_leafNum hp hq hpq]
    simp only [h.leaf]

end Sys2Proof.Machine

/-! ## Lengths of paths and codes -/

namespace Sys2Proof.Machine

theorem Tree.pathFrom_eq_append (t : Tree) (k n : Nat) (bits : List Bool) :
    t.pathFrom k n bits = t.pathFrom k n [] ++ bits := by
  induction k generalizing n bits with
  | zero => rfl
  | succ k ih =>
    unfold Tree.pathFrom
    split
    · rfl
    · split
      · rfl
      · next p _ => rw [ih, ih p [_], List.append_assoc, List.singleton_append]

section Path

variable {t : Tree} (h : t.Shape)
include h

/-- One round more than the rounds that reach the root changes nothing. -/
theorem Tree.Shape.pathFrom_succ {k n : Nat} (hk : 512 ≤ n + k) (hhi : n ≤ 512) (bits : List Bool) :
    t.pathFrom (k + 1) n bits = t.pathFrom k n bits := by
  induction k generalizing n bits with
  | zero => exact if_pos (show n = rootNum from hhi.antisymm hk)
  | succ k ih =>
    rw [Tree.pathFrom, Tree.pathFrom.eq_def t (k + 1)]
    dsimp only
    split
    · rfl
    · split
      · rfl
      · next p hp =>
        have := h.parent_bounds hp
        exact ih (by omega) (by omega) _

theorem Tree.Shape.path_child {n p : Nat} (hp : t.parent n = some p) : t.path n = t.path p ++ [t.dirBit p n] := by
  have hb := h.parent_bounds hp
  calc t.path n = t.pathFrom 512 p [t.dirBit p n] := by
        rw [Tree.path, nodeSlots, Tree.pathFrom, if_neg (by rw [rootNum]; omega), hp]
    _ = t.path p ++ [t.dirBit p n] := by
        rw [Tree.pathFrom_eq_append, Tree.path, nodeSlots, ← h.pathFrom_succ (k := 512) (by omega) hb.2.2]

/-- Each step up the tree passes a pair of numbers. -/
theorem Tree.Shape.parent_pair {n p : Nat} (hp : t.parent n = some p) : n / 2 + 1 ≤ p / 2 := by
  obtain ⟨l, r, hb, hn⟩ := (h.child n p).1 hp
  obtain ⟨rfl, hl⟩ := h.pair p l r hb
  have := h.parent_bounds (h.int_parents hb).2
  omega

theorem Tree.Shape.length_path_le {n : Nat} (hlo : t.nytn ≤ n) (hhi : n ≤ 512) :
    (t.path n).length ≤ 256 - n / 2 := by
  induction hm : 512 - n using Nat.strong_induction_on generalizing n with | _ m ih
  rcases Nat.eq_or_lt_of_le hhi with rfl | hlt
  · exact Nat.zero_le _
  · obtain ⟨p, hp⟩ := h.hangs n hlo hlt
    have hb := h.parent_bounds hp
    have hpair := h.parent_pair hp
    have := ih (512 - p) (by omega) (n := p) (by omega) hb.2.2 rfl
    rw [h.path_child hp, List.length_append, List.length_singleton]
    omega

/-- A leaf is created as a child, so it is not the root. -/
theorem Tree.Shape.leaf_parent {v : Byte} {n : Nat} (hv : t.leafNum v = some n) : ∃ p, t.parent n = some p := by
  have hbody := h.body_leaf hv
  have hbound := h.body_bounds hbody
  refine h.hangs n hbound.1 (lt_of_le_of_ne hbound.2 ?_)
  rintro rfl
  have hne := h.leaf_ne_nyt hv
  have := h.nytn_even
  obtain ⟨p, hp⟩ := h.hangs 511 (by omega) (by omega)
  have := h.parent_bounds hp
  obtain rfl : p = 512 := by omega
  obtain ⟨l, r, hint, -⟩ := (h.child 511 512).1 hp
  exact h.childless_leaf hv l r hint

end Path

/-- Settles O32: a path of `256 - n / 2` bits at most, because the two children of an entry are a pair of numbers below
it; a leaf hangs somewhere, and a literal adds 8 bits. -/
theorem codeLengthBounds : Obligations.CodeLengthBounds := by
  intro t v hinv
  have h := hinv.shape
  have hpath : ∀ n, (Table.get t.node n).isSome = true → (t.path n).length ≤ 256 := fun n hn => by
    obtain ⟨h1, h2⟩ := (h.alloc n).1 hn
    have := h.length_path_le h1 h2
    omega
  refine ⟨hpath, fun hv => ?_, fun hv => ?_⟩
  · obtain ⟨n, hn⟩ := Option.isSome_iff_exists.1 hv
    obtain ⟨p, hp⟩ := h.leaf_parent hn
    rw [Tree.code_seen hn]
    refine ⟨?_, hpath n (Tree.isSome_of_body (h.body_leaf hn))⟩
    rw [h.path_child hp, List.length_append]
    exact Nat.le_add_left 1 _
  · have := hpath t.nytn (Tree.isSome_of_body ((h.nyt _).2 rfl))
    rw [Tree.code_unseen hv, List.length_append, msbFirst_length]
    omega

end Sys2Proof.Machine

/-! ## What `update` counts -/

namespace Sys2Proof.Machine

/-! ### Occurrences -/

theorem Tree.occurrences_seen {t : Tree} {v : Byte} {n : Nat} (h : t.leafNum v = some n) :
    t.occurrences v = t.count n := by
  simp [Tree.occurrences, Tree.count, h]

theorem Tree.occurrences_unseen {t : Tree} {v : Byte} (h : t.leafNum v = none) : t.occurrences v = 0 := by
  simp [Tree.occurrences, h]

@[simp] theorem Tree.bump_leafNum (t : Tree) (n : Nat) (v : Byte) : (t.bump n).leafNum v = t.leafNum v := by
  simp [Tree.leafNum]

theorem Tree.bump_occurrences {t : Tree} {n : Nat} (h : (Table.get t.node n).isSome = true) (v : Byte) :
    (t.bump n).occurrences v = t.occurrences v + if t.leafNum v = some n then 1 else 0 := by
  cases hv : t.leafNum v with
  | none => rw [Tree.occurrences_unseen hv, Tree.occurrences_unseen (by simpa using hv), if_neg nofun]
  | some m =>
    rw [Tree.occurrences_seen hv, Tree.occurrences_seen (n := m) (by simpa using hv), Tree.bump_count h]
    simp only [Option.some.injEq]

/-! ### The walk -/

theorem Tree.Walking.alloc {t : Tree} {cur : Nat} (w : t.Walking cur) : (Table.get t.node cur).isSome = true :=
  (w.shape.alloc cur).2 ⟨w.above.le, w.top⟩

/-- What each visit of a walk below the root hands on to the entry it goes on to, holds at the root. -/
theorem Tree.Walking.walk_induction {P : Tree → Nat → Prop}
    (hv : ∀ {t cur p}, t.Walking cur → cur ≠ 512 → cur < p → (t.visit cur).1.Walking p →
      (t.visit cur).1.parent (t.visit cur).2 = some p → P t cur → P (t.visit cur).1 p)
    {k cur : Nat} {t : Tree} (w : t.Walking cur) (hk : 512 < cur + k) (h : P t cur) : P (Tree.walk k cur t) 512 := by
  induction k generalizing cur t with
  | zero => have := w.top; omega
  | succ k ih =>
    unfold Tree.walk
    split
    · next hroot => exact (show cur = 512 from hroot) ▸ h
    · next hroot =>
      obtain ⟨p, hp, hlt, w'⟩ := w.visit hroot
      rw [hp]
      exact ih w' (by omega) (hv w hroot hlt w' hp h)

section Visit

variable {t : Tree} {cur : Nat} (w : t.Walking cur)
include w

/-- A visit below the root leaves the root's frequency. -/
theorem Tree.Walking.visit_count_root (hc : cur ≠ 512) : (t.visit cur).1.count 512 = t.count 512 := by
  rcases t.visit_cases cur with ⟨l, hl, hv⟩ | ⟨-, hv⟩ <;> rw [hv]
  · rw [w.swap_bump_count hl, if_neg (w.leader_ne_root hl).symm, Nat.add_zero]
  · rw [Tree.bump_count w.alloc, if_neg hc.symm, Nat.add_zero]

/-- A visit registers the same symbols. -/
theorem Tree.Walking.visit_seen (v : Byte) :
    ((t.visit cur).1.leafNum v).isSome = (t.leafNum v).isSome := by
  rcases t.visit_cases cur with ⟨l, hl, hv⟩ | ⟨-, hv⟩ <;> rw [hv, Tree.bump_leafNum]
  have hs := w.swappable hl
  rw [Tree.swap_leafNum (hs.allocLeft w.shape) (hs.allocRight w.shape) hs.ne]
  simp only [w.shape.leaf]
  split_ifs with h1 h2
  · rw [h1]; rfl
  · rw [h2]; rfl
  · rfl

/-- A visit counts what the increment in place would count: the swap before it moves leaves with their counts. -/
theorem Tree.Walking.visit_occurrences (v : Byte) :
    (t.visit cur).1.occurrences v = (t.bump cur).occurrences v := by
  rcases t.visit_cases cur with ⟨l, hl, hv⟩ | ⟨-, hv⟩ <;> rw [hv]
  have hs := w.swappable hl
  have hcount := w.swap_bump_count hl
  obtain ⟨hlt, -, -, heq, -⟩ := w.leader_some hl
  have hleaf : ((t.swap cur l).bump l).leafNum v =
      if t.leafNum v = some cur then some l else if t.leafNum v = some l then some cur else t.leafNum v := by
    rw [Tree.bump_leafNum, Tree.swap_leafNum (hs.allocLeft w.shape) (hs.allocRight w.shape) hs.ne]
    simp only [w.shape.leaf]
  rw [Tree.bump_occurrences w.alloc]
  split_ifs at hleaf ⊢ with h1 h2
  · rw [Tree.occurrences_seen hleaf, Tree.occurrences_seen h1, hcount, if_pos rfl, heq]
  · rw [Tree.occurrences_seen hleaf, Tree.occurrences_seen h2, hcount, if_neg hs.ne, heq]
  · cases hn : t.leafNum v with
    | none => rw [Tree.occurrences_unseen (hleaf.trans hn), Tree.occurrences_unseen hn]
    | some n =>
      rw [Tree.occurrences_seen (hleaf.trans hn), Tree.occurrences_seen hn, hcount,
        if_neg fun e => h2 (hn.trans (congrArg some e))]

end Visit

/-- An entry that something hangs at is no leaf, so its increment counts no symbol. -/
theorem Tree.Walking.bump_occurrences_parent {t : Tree} {c p : Nat} (w : t.Walking p) (hp : t.parent c = some p)
    (v : Byte) : (t.bump p).occurrences v = t.occurrences v := by
  obtain ⟨l, r, hb, -⟩ := (w.shape.child c p).1 hp
  rw [Tree.bump_occurrences w.alloc, if_neg fun hv => w.shape.childless_leaf hv l r hb, Nat.add_zero]

section Walk

variable {t : Tree} {n k : Nat} (w : t.Walking n) (hk : 512 < n + k)
include w hk

theorem Tree.Walking.walk_count_root : (Tree.walk k n t).count 512 = t.count 512 :=
  w.walk_induction (P := fun u _ => u.count 512 = t.count 512) (k := k)
    (fun w' hc _ _ _ h => (w'.visit_count_root hc).trans h) hk rfl

theorem Tree.Walking.walk_seen (v : Byte) : ((Tree.walk k n t).leafNum v).isSome = (t.leafNum v).isSome :=
  w.walk_induction (P := fun u _ => (u.leafNum v).isSome = (t.leafNum v).isSome) (k := k)
    (fun w' _ _ _ _ h => (w'.visit_seen v).trans h) hk rfl

/-- The walk from an entry to the root counts what the increment of that entry alone would count. -/
theorem Tree.Walking.walk_occurrences (v : Byte) :
    ((Tree.walk k n t).bump 512).occurrences v = (t.bump n).occurrences v :=
  w.walk_induction (P := fun u cur => (u.bump cur).occurrences v = (t.bump n).occurrences v) (k := k)
    (fun w' _ _ w'' hp h => ((w''.bump_occurrences_parent hp v).trans (w'.visit_occurrences v)).trans h) hk rfl

end Walk

/-! ### The start of the walk -/

section Start

variable {t : Tree} (h : t.Inv) (hroom : t.count 512 < freqMax) (s : Byte)
include h

theorem Tree.Inv.withLeaf_count (m : Nat) : (t.withLeaf s).count m = t.count m := by
  unfold Tree.withLeaf
  split
  · next hs => exact h.shape.split_count (h.shape.two_le_nytn hs) s m
  · rfl

theorem Tree.Inv.withLeaf_leafNum_other {v : Byte} (hv : v ≠ s) : (t.withLeaf s).leafNum v = t.leafNum v := by
  unfold Tree.withLeaf
  split
  · rw [h.shape.split_leafNum, if_neg hv]
  · rfl

theorem Tree.Inv.withLeaf_occurrences (v : Byte) : (t.withLeaf s).occurrences v = t.occurrences v := by
  by_cases hv : v = s
  · subst hv
    cases hs : t.leafNum v with
    | some n => rw [Tree.withLeaf, hs]
    | none =>
      have h2 := h.shape.two_le_nytn hs
      have hfree : t.count (t.nytn - 1) = 0 := by
        rw [Tree.count, Tree.freq, h.shape.not_alloc (by omega)]
        rfl
      rw [Tree.withLeaf, hs, Tree.occurrences_unseen hs]
      dsimp only
      rw [Tree.occurrences_seen (n := t.nytn - 1) (by rw [h.shape.split_leafNum, if_pos rfl]),
        h.shape.split_count h2, hfree]
  · cases hn : t.leafNum v with
    | none => rw [Tree.occurrences_unseen hn, Tree.occurrences_unseen ((h.withLeaf_leafNum_other s hv).trans hn)]
    | some n =>
      rw [Tree.occurrences_seen hn, Tree.occurrences_seen ((h.withLeaf_leafNum_other s hv).trans hn), h.withLeaf_count]

include hroom

/-- The tree the walk starts on has the symbol's leaf. -/
theorem Tree.Inv.walking_withLeaf : ∃ n, (t.withLeaf s).leafNum s = some n ∧ (t.withLeaf s).Walking n := by
  unfold Tree.withLeaf
  split
  · next hn => exact ⟨_, by rw [h.shape.split_leafNum, if_pos rfl], h.walking_split hroom hn⟩
  · next n hn => exact ⟨n, hn, h.walking_leaf hroom hn⟩

theorem Tree.Inv.update_eq : t.update s = some ((t.withLeaf s).promote s) := by
  refine if_neg fun hfull => ?_
  rw [rootNum, h.shape.freq_eq_some h.shape.nytn_le (le_refl _)] at hfull
  omega

/-- What `update` does to the counts and the registered symbols (40_aht.md R140). -/
theorem Tree.Inv.update_counts : ∃ u, t.update s = some u ∧ u.Inv ∧ u.count 512 = t.count 512 + 1 ∧
    (∀ v, u.occurrences v = t.occurrences v + if v = s then 1 else 0) ∧
    (∀ v, (u.leafNum v).isSome = ((t.withLeaf s).leafNum v).isSome) ∧ u.nytn = (t.withLeaf s).nytn := by
  obtain ⟨n, hn, w⟩ := h.walking_withLeaf hroom s
  have hk : 512 < n + nodeSlots := by have := w.above; rw [nodeSlots]; omega
  have hupd := h.update_eq hroom s
  have hu : (t.withLeaf s).promote s = (Tree.walk nodeSlots n (t.withLeaf s)).bump 512 := by rw [Tree.promote, hn]; rfl
  rw [hu] at hupd
  refine ⟨_, hupd, h.update hupd, ?_, fun v => ?_, fun v => ?_, by simp⟩
  · rw [Tree.bump_count (w.walk hk).alloc, if_pos rfl, w.walk_count_root hk, h.withLeaf_count]
  · have hsym : (t.withLeaf s).leafNum v = some n ↔ v = s := by
      rw [← w.shape.leaf, w.shape.body_leaf hn, Option.some.injEq, Body.leaf.injEq]
      exact eq_comm
    rw [w.walk_occurrences hk, Tree.bump_occurrences w.alloc, h.withLeaf_occurrences]
    simp only [hsym]
  · rw [Tree.bump_leafNum, w.walk_seen hk]

end Start

/-! ### The command -/

theorem updateTree_of_some {s : State} {v : Byte} {u : Tree} (h : s.tree.update v = some u) :
    updateTree v s = .going { s with tree := u } := by rw [updateTree, h]

/-- Settles O20: the swaps of the walk move counts with their leaves, and of the entries it increments only the first is
a leaf. -/
theorem htUpdCountsSymbol : Obligations.HtUpdCountsSymbol := by
  intro s sym f hinv hf hroom
  have hcount : s.tree.count 512 = f := (hinv.shape.freq_eq_some hinv.shape.nytn_le (le_refl _) f).1 hf
  obtain ⟨u, hupd, hu, hroot, hocc, hseen, hnytn⟩ := hinv.update_counts (hcount ▸ hroom) sym
  have hexec : exec (.htUpd sym) s = .next { s with tree := u } := congrArg Run.outcome (updateTree_of_some hupd)
  have hfreq := (hu.shape.freq_eq_some hu.shape.nytn_le (le_refl _) (f + 1)).2 (by rw [hroot, hcount])
  refine ⟨u, hexec, hfreq, ?_, ?_, ?_, ?_, ?_, ?_⟩
  · rw [hocc, if_pos rfl]
  · exact fun v hv => by rw [hocc, if_neg hv, Nat.add_zero]
  · obtain ⟨n, hn, -⟩ := hinv.walking_withLeaf (hcount ▸ hroom) sym
    rw [hseen, hn]
    rfl
  · exact fun v hv => by rw [hseen, hinv.withLeaf_leafNum_other sym hv]
  · intro h
    obtain ⟨n, hn⟩ := Option.isSome_iff_exists.1 h
    rw [hnytn, Tree.withLeaf, hn]
  · intro h
    have := hinv.shape.two_le_nytn h
    have : u.nytn = s.tree.nytn - 2 := by rw [hnytn, Tree.withLeaf, h]; exact hinv.shape.split_nytn sym
    omega

/-- Settles O22: the full counter is looked at before anything has changed. -/
theorem htUpdCounterFull : Obligations.HtUpdCounterFull := by
  intro s sym hfull
  have hnone : s.tree.update sym = none := (s.tree.update_eq_none sym).2 hfull
  show (updateTree sym s).outcome = _
  rw [updateTree, hnone]
  rfl

/-- Settles O21: the update of the fresh tree, evaluated for each symbol. -/
theorem htUpdFirstSymbol : Obligations.HtUpdFirstSymbol := by
  have first : ∀ v : Byte, (⟨[(512, ⟨none, 0, .nyt⟩)], 512, []⟩ : Tree).update v =
      some ⟨[(510, ⟨some 512, 0, .nyt⟩), (511, ⟨some 512, 1, .leaf v⟩), (512, ⟨none, 1, .int 510 511⟩)],
        510, [(v.toNat, 511)]⟩ := by decide
  exact fun s sym hs => congrArg Run.outcome (updateTree_of_some (hs ▸ first sym))

/-! ### A fresh symbol -/

/-- The new leaf stays where the split put it: it has no leader, and what the walk swaps after it lies above. -/
theorem Tree.Walking.walk_keeps_new_leaf {t : Tree} {k : Nat} {b : Body} (w : t.Walking (t.nytn + 1))
    (hk : 512 < t.nytn + 1 + k) (hzero : t.count (t.nytn + 1) = 0) (hb : t.body (t.nytn + 1) = some b) :
    (Tree.walk k (t.nytn + 1) t).body (t.nytn + 1) = some b := by
  refine (w.walk_induction (k := k) (P := fun u cur => u.nytn = t.nytn ∧ u.body (t.nytn + 1) = some b ∧
    (cur = t.nytn + 1 → u.count cur = 0)) ?_ hk ⟨rfl, hb, fun _ => hzero⟩).2.1
  rintro u cur p w' - hlt w'' - ⟨hnytn, hbody, hcur⟩
  have ha := w'.above
  refine ⟨by rw [Tree.visit_nytn, hnytn], ?_, fun e => by omega⟩
  rcases u.visit_cases cur with ⟨l, hl, hv⟩ | ⟨-, hv⟩ <;> rw [hv, Tree.bump_body]
  · obtain ⟨hcl, -⟩ := w'.leader_some hl
    have hs := w'.swappable hl
    have hne : cur ≠ t.nytn + 1 := fun e => by
      have := w'.leader_pos hl
      have := hcur e
      omega
    rw [Tree.swap_body (hs.allocLeft w'.shape) (hs.allocRight w'.shape), if_neg (by omega), if_neg (by omega), hbody]
  · exact hbody

theorem Tree.Inv.room_of_update {t u : Tree} (h : t.Inv) {s : Byte} (hu : t.update s = some u) :
    t.count 512 < freqMax := by
  refine lt_of_le_of_ne (h.weighted.width 512) fun hfull => ?_
  rw [(t.update_eq_none s).2 ((h.shape.freq_eq_some h.shape.nytn_le (le_refl _) _).2 hfull)] at hu
  cases hu

theorem Tree.Inv.update_fresh_body {t u : Tree} (h : t.Inv) {s : Byte} (hs : t.leafNum s = none)
    (hu : t.update s = some u) : u.nytn + 2 = t.nytn ∧ u.body (u.nytn + 1) = some (.leaf s) := by
  have h2 := h.shape.two_le_nytn hs
  have hsplit := h.shape.split_nytn s
  have hleaf : (t.split s).leafNum s = some (t.nytn - 1) := by rw [h.shape.split_leafNum, if_pos rfl]
  have w := h.walking_split (h.room_of_update hu) hs
  rw [show t.nytn - 1 = (t.split s).nytn + 1 by omega] at w hleaf
  have hzero : (t.split s).count ((t.split s).nytn + 1) = 0 := by
    rw [h.shape.split_count h2, Tree.count, Tree.freq, h.shape.not_alloc (by omega)]
    rfl
  have hkeep := w.walk_keeps_new_leaf (k := nodeSlots) (by rw [nodeSlots]; omega) hzero (w.shape.body_leaf hleaf)
  have hpromote : u = (Tree.walk nodeSlots ((t.split s).nytn + 1) (t.split s)).bump rootNum := by
    rw [Tree.update_eq_some hu, Tree.withLeaf, hs, Tree.promote]
    dsimp only
    rw [hleaf]
  have hnytn : u.nytn = (t.split s).nytn := by rw [hpromote, Tree.bump_nytn, Tree.walk_nytn]
  exact ⟨by omega, by rw [hnytn, hpromote, Tree.bump_body, hkeep]⟩

/-- Settles O33: the walk leaves the new leaf beside the NYT entry, and an entry's two children are equally deep. -/
theorem freshSymbolCodeShortens : Obligations.FreshSymbolCodeShortens := by
  intro t u s hinv hs hupd
  have hu := (hinv.update hupd).shape
  obtain ⟨hnytn, hbody⟩ := hinv.update_fresh_body hs hupd
  have hle := hinv.shape.nytn_le
  obtain ⟨p, hp⟩ := hu.hangs u.nytn (le_refl _) (by omega)
  obtain ⟨rfl, hint⟩ := hu.nyt_sibling hp
  have hleaf := (hu.leaf _ s).1 hbody
  have hlen : (u.code s).length = (u.path u.nytn).length := by
    rw [Tree.code_seen hleaf, hu.path_child hp, hu.path_child (hu.int_parents hint).2, List.length_append,
      List.length_append]
    rfl
  refine ⟨hleaf, hint, hlen, fun v hv => ?_⟩
  rw [Tree.code_unseen hv, List.length_append, msbFirst_length, hlen]

end Sys2Proof.Machine

/-! ## The packed stream -/

namespace Sys2Proof.Machine

/-! ### The byte under construction -/

/-- The bits of `BPACC` below the pending ones are 0 (10_state.md R26). -/
theorem Packer.Clean.getLsbD {p : Packer} (h : p.Clean) {i : Nat} (hi : i < 8 - p.bpcnt.toNat) :
    p.bpacc.getLsbD i = false := by
  have hbit := Nat.testBit_mod_two_pow p.bpacc.toNat (8 - p.bpcnt.toNat) i
  rw [show p.bpacc.toNat % 2 ^ (8 - p.bpcnt.toNat) = 0 from h, Nat.zero_testBit, decide_eq_true hi,
    Bool.true_and] at hbit
  exact hbit.symm

theorem Packer.Clean.bpacc_eq_zero {p : Packer} (h : p.Clean) (h0 : p.bpcnt = 0) : p.bpacc = 0 := by
  refine BitVec.eq_of_getLsbD_eq fun i hi => ?_
  rw [h.getLsbD (by rw [h0]; exact hi)]
  exact BitVec.getLsbD_zero.symm

theorem take_msbFirst (v : Byte) {n : Nat} (h : n ≤ 8) :
    (msbFirst 8 v).take n = (List.range n).map fun i => v.getLsbD (7 - i) := by
  rw [msbFirst, ← List.map_take, List.take_range, Nat.min_eq_left h]

theorem getLsbD_ofNat_toNat (b : Bool) (k : Nat) : (BitVec.ofNat 8 b.toNat).getLsbD k = (decide (k = 0) && b) := by
  cases b
  · simp
  · cases k with
    | zero => rfl
    | succ k => simp [BitVec.getLsbD_ofNat, Nat.testBit_succ]

/-- `putbit` sets the bit at position `7 - BPCNT` (41_bitpacker.md R170). -/
theorem Packer.getLsbD_accWith (p : Packer) (b : Bool) {j : Nat} (hj : j < 8) :
    (p.accWith b).getLsbD j = (p.bpacc.getLsbD j || (decide (j = 7 - p.bpcnt.toNat) && b)) := by
  rw [Packer.accWith, BitVec.getLsbD_or, BitVec.getLsbD_shiftLeft, getLsbD_ofNat_toNat, decide_eq_true hj,
    Bool.true_and, ← Bool.and_assoc]
  congr 2
  rw [← decide_not, ← Bool.decide_and]
  exact decide_eq_decide.2 (by omega)

/-- The bit put is the next of the pending bits, and those before it stay. -/
theorem Packer.Clean.take_accWith {p : Packer} (h : p.Clean) (b : Bool) :
    (msbFirst 8 (p.accWith b)).take (p.bpcnt.toNat + 1) = (msbFirst 8 p.bpacc).take p.bpcnt.toNat ++ [b] := by
  have hlt := p.bpcnt.isLt
  rw [take_msbFirst _ (by omega), take_msbFirst _ (by omega), List.range_succ, List.map_append]
  congr 1
  · refine List.map_inj_left.2 fun i hi => ?_
    have := List.mem_range.1 hi
    rw [p.getLsbD_accWith b (by omega), decide_eq_false (by omega), Bool.false_and, Bool.or_false]
  · rw [List.map_singleton, p.getLsbD_accWith b (by omega), h.getLsbD (by omega), decide_eq_true rfl, Bool.true_and,
      Bool.false_or]

/-- The padding of a byte under construction is 0 (41_bitpacker.md R174). -/
theorem Packer.Clean.msbFirst_bpacc {p : Packer} (h : p.Clean) :
    msbFirst 8 p.bpacc = (msbFirst 8 p.bpacc).take p.bpcnt.toNat ++ List.replicate (8 - p.bpcnt.toNat) false := by
  have hlt := p.bpcnt.isLt
  refine List.ext_getElem (by simp; omega) fun i h1 h2 => ?_
  rw [msbFirst_length] at h1
  by_cases hi : i < p.bpcnt.toNat
  · rw [List.getElem_append_left (by simpa using ⟨hi, h1⟩), List.getElem_take]
  · rw [List.getElem_append_right (by simp; omega), List.getElem_replicate]
    simp only [msbFirst, List.getElem_map, List.getElem_range]
    exact h.getLsbD (by omega)

theorem bytesBits_singleton (v : Byte) : bytesBits [v] = msbFirst 8 v := List.append_nil _

theorem State.packedBits_of_aligned {s : State} (h : s.packer.bpcnt = 0) : s.packedBits = bytesBits s.output := by
  rw [State.packedBits, h]
  exact List.append_nil _

/-! ### Appending -/

/-- What appending bits to the output stream does: the packed stream grows by them, the packer stays in order, `OLEN` and
`BPCNT` count them, and only the bytes completed are stored (41_bitpacker.md R170). -/
structure State.Appends (s t : State) (bits : List Bool) : Prop where
  packed : t.packedBits = s.packedBits ++ bits
  ok     : t.PackerOk
  count  : 8 * t.packer.olen.toNat + t.packer.bpcnt.toNat =
    8 * s.packer.olen.toNat + s.packer.bpcnt.toNat + bits.length
  kept   : ∀ a, a < s.packer.olen.toNat ∨ t.packer.olen.toNat ≤ a → Table.get t.obuf a = Table.get s.obuf a

theorem State.Appends.refl {s : State} (h : s.PackerOk) : s.Appends s [] :=
  ⟨(List.append_nil _).symm, h, rfl, fun _ _ => rfl⟩

theorem State.Appends.trans {s t u : State} {xs ys : List Bool} (h : s.Appends t xs) (h' : t.Appends u ys) :
    s.Appends u (xs ++ ys) := by
  have hc := h.count
  have hc' := h'.count
  have := s.packer.bpcnt.isLt
  have := t.packer.bpcnt.isLt
  have := u.packer.bpcnt.isLt
  refine ⟨by rw [h'.packed, h.packed, List.append_assoc], h'.ok, by rw [List.length_append]; omega, fun a ha => ?_⟩
  rw [h'.kept a (by omega), h.kept a (by omega)]

/-- The packed stream does not depend on the tree. -/
theorem State.Appends.withTree {s t : State} {bits : List Bool} (h : s.Appends t bits) (u : Tree) :
    s.Appends { t with tree := u } bits :=
  ⟨h.packed, ⟨h.ok.clean, h.ok.fits, h.ok.written⟩, h.count, h.kept⟩

theorem State.Appends.olenAfter {s t : State} {bits : List Bool} (h : s.Appends t bits) (n : Nat) :
    t.olenAfter n = s.olenAfter (bits.length + n) := by
  have := h.count
  have := s.packer.bpcnt.isLt
  have := t.packer.bpcnt.isLt
  unfold State.olenAfter
  omega

theorem State.Appends.olen {s t : State} {bits : List Bool} (h : s.Appends t bits) :
    t.packer.olen.toNat = s.olenAfter bits.length := by
  have := h.olenAfter 0
  have := t.packer.bpcnt.isLt
  unfold State.olenAfter at *
  omega

/-! ### Storing a byte -/

theorem State.readObuf_store (s : State) (v : Byte) (p : Packer) {i : Nat} (hi : i < s.packer.olen.toNat)
    (hp : i < p.olen.toNat) :
    State.readObuf { s with obuf := Table.set s.obuf s.packer.olen.toNat v, packer := p } i = s.readObuf i := by
  unfold State.readObuf
  rw [if_pos hi, if_pos hp, Table.get_set_other _ _ hi.ne]

section Store

variable {s : State} (hlt : s.packer.olen.toNat < s.build.obufCap.toNat) (v : Byte)
include hlt

/-- A byte stored at `OLEN` extends the output by it. -/
theorem State.output_store : State.output { s with
    obuf := Table.set s.obuf s.packer.olen.toNat v, packer := ⟨s.packer.olen + 1, 0, 0⟩ } = s.output ++ [v] := by
  have hsucc := olen_succ hlt
  have hlast : State.readObuf { s with
      obuf := Table.set s.obuf s.packer.olen.toNat v, packer := ⟨s.packer.olen + 1, 0, 0⟩ } s.packer.olen.toNat = v := by
    unfold State.readObuf
    rw [if_pos (by simp only [hsucc]; omega), Table.get_set_same]
    rfl
  unfold State.output
  simp only [hsucc, List.range_succ, List.map_append, List.map_singleton, hlast]
  congr 1
  refine List.map_inj_left.2 fun i hi => ?_
  have hi := List.mem_range.1 hi
  exact s.readObuf_store v _ hi (by simp only [hsucc]; omega)

/-- A whole byte stored at `OLEN` appends its bits after the pending ones that it holds. -/
theorem State.PackerOk.store_byte (h : s.PackerOk) {bits : List Bool}
    (hv : msbFirst 8 v = (msbFirst 8 s.packer.bpacc).take s.packer.bpcnt.toNat ++ bits) :
    s.Appends { s with
      obuf := Table.set s.obuf s.packer.olen.toNat v, packer := ⟨s.packer.olen + 1, 0, 0⟩ } bits := by
  have hsucc := olen_succ hlt
  have hbpcnt := s.packer.bpcnt.isLt
  refine ⟨?_, ⟨Packer.clean_zero _, ?_, fun i hi => ?_⟩, ?_, fun a ha => ?_⟩
  · rw [State.packedBits_of_aligned rfl, State.output_store hlt, bytesBits_append, bytesBits_singleton, hv,
      ← List.append_assoc]
    rfl
  · show (s.packer.olen + 1).toNat ≤ _
    rw [hsucc]
    exact hlt
  · refine Memory.isSome_set v ?_
    rcases Nat.lt_or_ge i s.packer.olen.toNat with hi' | hi'
    · exact .inr (h.written i hi')
    · have hi : i < (s.packer.olen + 1).toNat := hi
      exact .inl (by omega)
  · have hlen := congrArg List.length hv
    simp only [List.length_append, List.length_take, msbFirst_length] at hlen
    show 8 * (s.packer.olen + 1).toNat + 0 = _
    omega
  · have ha : a < s.packer.olen.toNat ∨ (s.packer.olen + 1).toNat ≤ a := ha
    exact Table.get_set_other _ _ (by omega)

end Store

/-! ### One bit, and several -/

theorem putBit_appends {s : State} (h : s.PackerOk) (b : Bool) (hfit : s.olenAfter 1 ≤ s.build.obufCap.toNat) :
    ∃ p o, putBit b s = .going { s with packer := p, obuf := o } ∧
      s.Appends { s with packer := p, obuf := o } [b] := by
  have hput := h.clean.take_accWith b
  rcases putBit_cases b s with ⟨h7, he⟩ | ⟨h7, hlt, he⟩ | ⟨h7, hge, -⟩
  · have hlt : s.packer.bpcnt.toNat < 7 := by
      have := s.packer.bpcnt.isLt
      have : s.packer.bpcnt.toNat ≠ 7 := fun e => h7 (BitVec.eq_of_toNat_eq e)
      omega
    have hsucc : (s.packer.bpcnt + 1).toNat = s.packer.bpcnt.toNat + 1 := by
      rw [BitVec.toNat_add, show (1 : BitVec 3).toNat = 1 from rfl]
      omega
    refine ⟨_, _, he, ?_, ⟨Packer.clean_accWith h.clean h7 b, h.fits, h.written⟩, ?_, fun _ _ => rfl⟩
    · show bytesBits s.output ++ (msbFirst 8 (s.packer.accWith b)).take (s.packer.bpcnt + 1).toNat = _
      rw [hsucc, hput, State.packedBits, List.append_assoc]
    · show 8 * s.packer.olen.toNat + (s.packer.bpcnt + 1).toNat = _
      rw [hsucc]
      rfl
  · refine ⟨_, _, he, h.store_byte hlt _ ?_⟩
    rw [← hput, h7]
    exact (List.take_of_length_le (by rw [msbFirst_length]; decide)).symm
  · rw [State.olenAfter, h7, show (7 : BitVec 3).toNat = 7 from rfl] at hfit
    omega

theorem putBit_overflow {s : State} (h : s.PackerOk) (b : Bool) (hfull : s.build.obufCap.toNat < s.olenAfter 1) :
    ∃ p, putBit b s = .ended (s.packerFull p) := by
  have hfits := h.fits
  rw [State.olenAfter] at hfull
  rcases putBit_cases b s with ⟨h7, -⟩ | ⟨h7, hlt, -⟩ | ⟨h7, hge, he⟩
  · have := s.packer.bpcnt.isLt
    have : s.packer.bpcnt.toNat ≠ 7 := fun e => h7 (BitVec.eq_of_toNat_eq e)
    omega
  · have := s.packer.bpcnt.isLt
    omega
  · exact ⟨⟨0, s.packer.accWith b, Config.freePackerCount s.obufEpoch⟩, he⟩

theorem State.olenAfter_mono (s : State) {m n : Nat} (h : m ≤ n) : s.olenAfter m ≤ s.olenAfter n := by
  unfold State.olenAfter
  omega

theorem State.PackerOk.olenAfter_zero {s : State} (h : s.PackerOk) : s.olenAfter 0 ≤ s.build.obufCap.toNat := by
  have := h.fits
  have := s.packer.bpcnt.isLt
  unfold State.olenAfter
  omega

/-- `putBits` appends its bits wherever the bytes they complete fit. -/
theorem putBits_appends {s : State} (h : s.PackerOk) (bits : List Bool)
    (hfit : s.olenAfter bits.length ≤ s.build.obufCap.toNat) :
    ∃ p o, putBits bits s = .going { s with packer := p, obuf := o } ∧
      s.Appends { s with packer := p, obuf := o } bits := by
  induction bits generalizing s with
  | nil => exact ⟨_, _, rfl, .refl h⟩
  | cons b bits ih =>
    obtain ⟨p, o, hb, ha⟩ := putBit_appends h b ((s.olenAfter_mono (by simp)).trans hfit)
    rw [List.length_cons, Nat.add_comm] at hfit
    obtain ⟨p', o', hb', ha'⟩ := ih ha.ok ((ha.olenAfter _).le.trans hfit)
    exact ⟨p', o', by rw [putBits, hb, Run.andThen_going, hb'], ha.trans ha'⟩

/-- Where the bytes its bits complete do not fit, `putBits` ends with `Capacity(0)`. -/
theorem putBits_overflow {s : State} (h : s.PackerOk) (bits : List Bool)
    (hfull : s.build.obufCap.toNat < s.olenAfter bits.length) :
    ∃ p, putBits bits s = .ended (s.packerFull p) := by
  induction bits generalizing s with
  | nil => exact absurd h.olenAfter_zero (Nat.not_le.2 hfull)
  | cons b bits ih =>
    rw [putBits]
    rcases Nat.lt_or_ge s.build.obufCap.toNat (s.olenAfter 1) with h1 | h1
    · obtain ⟨p, hb⟩ := putBit_overflow h b h1
      exact ⟨p, by rw [hb, Run.andThen_ended]⟩
    · obtain ⟨p, o, hb, ha⟩ := putBit_appends h b h1
      rw [List.length_cons, Nat.add_comm] at hfull
      obtain ⟨p', hb'⟩ := ih ha.ok (hfull.trans_eq (ha.olenAfter _).symm)
      exact ⟨p', by rw [hb, Run.andThen_going, hb']; rfl⟩

/-- Settles O23: `HT.ENC` puts the bits of the code one after the other. -/
theorem htEncAppendsCode : Obligations.HtEncAppendsCode := by
  intro s v h hfit
  obtain ⟨p, o, hput, ha⟩ := putBits_appends h (s.tree.code v) hfit
  exact ⟨_, congrArg Run.outcome hput, ha.packed, rfl, ha.ok, ha.olen, ha.kept⟩

/-! ### Padding -/

/-- `flush` completes the last byte with zero bits, where there is room for it. -/
theorem flush_appends {s : State} (h : s.PackerOk)
    (hfit : 8 * s.packer.olen.toNat + s.packer.bpcnt.toNat ≤ 8 * s.build.obufCap.toNat) :
    ∃ olen o k, flush s = .going { s with packer := ⟨olen, 0, 0⟩, obuf := o } ∧ k < 8 ∧
      s.Appends { s with packer := ⟨olen, 0, 0⟩, obuf := o } (List.replicate k false) := by
  have hpos : s.packer.bpcnt ≠ 0 → 0 < s.packer.bpcnt.toNat := fun h0 =>
    Nat.pos_of_ne_zero fun e => h0 (BitVec.eq_of_toNat_eq e)
  rcases flush_cases s with ⟨h0, he⟩ | ⟨h0, hlt, he⟩ | ⟨h0, hge, -⟩
  · have hs : s = { s with packer := ⟨s.packer.olen, 0, 0⟩, obuf := s.obuf } := by
      conv_lhs => rw [show s = { s with packer := ⟨s.packer.olen, s.packer.bpacc, s.packer.bpcnt⟩ } from rfl,
        h.clean.bpacc_eq_zero h0, h0]
    exact ⟨s.packer.olen, s.obuf, 0, by rw [he, ← hs], by decide, by rw [← hs]; exact .refl h⟩
  · have := hpos h0
    exact ⟨_, _, 8 - s.packer.bpcnt.toNat, he, by omega, h.store_byte hlt _ h.clean.msbFirst_bpacc⟩
  · have := hpos h0
    omega

/-- Where there is no room for the last byte, `flush` raises `Capacity(0)`. -/
theorem flush_overflow {s : State} (h : s.PackerOk)
    (hfull : 8 * s.build.obufCap.toNat < 8 * s.packer.olen.toNat + s.packer.bpcnt.toNat) :
    flush s = .ended (s.raise .capacity 0) := by
  have := h.fits
  have := s.packer.bpcnt.isLt
  rcases flush_cases s with ⟨h0, -⟩ | ⟨-, hlt, -⟩ | ⟨-, -, he⟩
  · rw [h0, show (0 : BitVec 3).toNat = 0 from rfl] at hfull
    omega
  · omega
  · exact he

end Sys2Proof.Machine

/-! ## Sessions -/

namespace Sys2Proof.Machine

/-! ### The trees and the bits of a session -/

theorem Tree.updates_cons {t u : Tree} {v : Byte} {x : List Byte} (h : t.updates (v :: x) = some u) :
    ∃ w, t.update v = some w ∧ w.updates x = some u := by
  rw [Tree.updates] at h
  split at h
  · cases h
  · next w hw => exact ⟨w, hw, h⟩

theorem Tree.updates_cons_of {t w : Tree} {v : Byte} (h : t.update v = some w) (x : List Byte) :
    t.updates (v :: x) = w.updates x := by rw [Tree.updates, h]

theorem Tree.Inv.updates {t u : Tree} (h : t.Inv) {x : List Byte} (hu : t.updates x = some u) : u.Inv := by
  induction x generalizing t with
  | nil => cases hu; exact h
  | cons v x ih =>
    obtain ⟨w, hw, hu⟩ := Tree.updates_cons hu
    exact ih (h.update hw) hu

/-- A session runs to its end where the root's counter has room for its symbols. -/
theorem Tree.Inv.updates_exist {t : Tree} (h : t.Inv) {x : List Byte} (hroom : t.count 512 + x.length ≤ freqMax) :
    ∃ u, t.updates x = some u := by
  induction x generalizing t with
  | nil => exact ⟨t, rfl⟩
  | cons v x ih =>
    rw [List.length_cons] at hroom
    obtain ⟨w, hw, hinv, hcount, -⟩ := h.update_counts (by omega) v
    rw [Tree.updates_cons_of hw]
    exact ih hinv (by omega)

theorem Tree.fresh_updates {x : List Byte} (h : x.length < 2 ^ 64) : ∃ u, Tree.fresh.updates x = some u :=
  Tree.fresh_inv.updates_exist (by rw [show Tree.fresh.count 512 = 0 from rfl, freqMax]; omega)

theorem sessionBits_cons {t w : Tree} {v : Byte} (h : t.update v = some w) (x : List Byte) :
    sessionBits t (v :: x) = t.code v ++ sessionBits w x := by rw [sessionBits, h]

theorem sessionBits_singleton (t : Tree) (v : Byte) : sessionBits t [v] = t.code v := by
  rw [sessionBits]
  split
  · exact List.append_nil _
  · exact List.append_nil _

theorem sessionBits_append {t u : Tree} {x : List Byte} (h : t.updates x = some u) (y : List Byte) :
    sessionBits t (x ++ y) = sessionBits t x ++ sessionBits u y := by
  induction x generalizing t with
  | nil => cases h; rfl
  | cons v x ih =>
    obtain ⟨w, hw, h⟩ := Tree.updates_cons h
    rw [List.cons_append, sessionBits_cons hw, sessionBits_cons hw, ih h, List.append_assoc]

/-! ## Encoding a buffer -/

theorem State.memRead_succ (s : State) (i k : Nat) :
    s.memRead i (k + 1) = s.readIbuf i :: s.memRead (i + 1) k := by
  simp only [State.memRead, List.range_succ_eq_map, List.map_cons, List.map_map, Nat.add_zero, List.cons.injEq,
    true_and]
  exact List.map_inj_left.2 fun j _ => congrArg s.readIbuf (by simp only [Nat.succ_eq_add_one]; omega)

/-- One round of the loop of `HT.ENCBUF` where the code fits. -/
theorem encodeLoop_succ {s : State} {i : Nat} {p : Packer} {o : Memory} {w : Tree}
    (hput : putCode (s.readIbuf i) s = .going { s with packer := p, obuf := o })
    (hw : s.tree.update (s.readIbuf i) = some w) (k : Nat) :
    encodeLoop (k + 1) i s = encodeLoop k (i + 1) { s with packer := p, obuf := o, tree := w } := by
  rw [encodeLoop, hput, Run.andThen_going, updateTree_of_some (s := { s with packer := p, obuf := o }) hw,
    Run.andThen_going]

/-- The loop of `HT.ENCBUF` appends the bits of the session where they fit. -/
theorem encodeLoop_appends {k i : Nat} {s : State} {u : Tree} (h : s.PackerOk)
    (hu : s.tree.updates (s.memRead i k) = some u)
    (hfit : s.olenAfter (sessionBits s.tree (s.memRead i k)).length ≤ s.build.obufCap.toNat) :
    ∃ p o, encodeLoop k i s = .going { s with packer := p, obuf := o, tree := u } ∧
      s.Appends { s with packer := p, obuf := o, tree := u } (sessionBits s.tree (s.memRead i k)) := by
  induction k generalizing i s with
  | zero => cases hu; exact ⟨s.packer, s.obuf, rfl, .refl h⟩
  | succ k ih =>
    rw [State.memRead_succ] at hu hfit ⊢
    obtain ⟨w, hw, hu⟩ := Tree.updates_cons hu
    rw [sessionBits_cons hw] at hfit ⊢
    rw [List.length_append] at hfit
    obtain ⟨p, o, hput, ha⟩ := putBits_appends h (s.tree.code (s.readIbuf i))
      ((s.olenAfter_mono (Nat.le_add_right _ _)).trans hfit)
    have ha := ha.withTree w
    obtain ⟨p', o', hloop, ha'⟩ := ih ha.ok hu ((ha.olenAfter _).le.trans hfit)
    exact ⟨p', o', (encodeLoop_succ hput hw k).trans hloop, ha.trans ha'⟩

/-- Where the bits of the session do not fit, the loop raises `Capacity(0)` at the first symbol whose code does not. -/
theorem encodeLoop_overflow {k i : Nat} {s : State} {u : Tree} (h : s.PackerOk)
    (hu : s.tree.updates (s.memRead i k) = some u)
    (hfull : s.build.obufCap.toNat < s.olenAfter (sessionBits s.tree (s.memRead i k)).length) :
    ∃ j w p, j < k ∧ encodeLoop k i s = .ended ({ s with tree := w }.packerFull p) ∧
      s.tree.updates ((s.memRead i k).take j) = some w ∧
      s.olenAfter (sessionBits s.tree ((s.memRead i k).take j)).length ≤ s.build.obufCap.toNat ∧
      s.build.obufCap.toNat < s.olenAfter (sessionBits s.tree ((s.memRead i k).take (j + 1))).length := by
  induction k generalizing i s with
  | zero => exact absurd h.olenAfter_zero (Nat.not_le.2 hfull)
  | succ k ih =>
    rw [State.memRead_succ] at hu hfull ⊢
    obtain ⟨w, hw, hu⟩ := Tree.updates_cons hu
    rw [sessionBits_cons hw, List.length_append] at hfull
    rcases Nat.lt_or_ge s.build.obufCap.toNat (s.olenAfter (s.tree.code (s.readIbuf i)).length) with hcode | hcode
    · obtain ⟨p, hput⟩ := putBits_overflow h _ hcode
      refine ⟨0, s.tree, p, Nat.zero_lt_succ k, ?_, rfl, h.olenAfter_zero, ?_⟩
      · rw [encodeLoop, putCode, hput, Run.andThen_ended]
      · rw [Nat.zero_add, List.take_succ_cons, List.take_zero, sessionBits_singleton]
        exact hcode
    · obtain ⟨p, o, hput, ha⟩ := putBits_appends h _ hcode
      have ha := ha.withTree w
      obtain ⟨j, w', p', hj, hloop, hupd, hlow, hhigh⟩ := ih ha.ok hu (hfull.trans_eq (ha.olenAfter _).symm)
      refine ⟨j + 1, w', p', by omega, ?_, ?_, ?_, ?_⟩
      · exact (encodeLoop_succ hput hw k).trans hloop
      · rw [List.take_succ_cons, Tree.updates_cons_of hw]
        exact hupd
      · rw [List.take_succ_cons, sessionBits_cons hw, List.length_append]
        exact (ha.olenAfter _).symm.le.trans hlow
      · rw [List.take_succ_cons, sessionBits_cons hw, List.length_append]
        exact hhigh.trans_eq (ha.olenAfter _)

theorem State.restartOutput_packerOk (s : State) : s.restartOutput.freshTree.PackerOk :=
  ⟨Packer.clean_zero 0, Nat.zero_le _, fun _ hi => absurd hi (Nat.not_lt_zero _)⟩

theorem State.length_input (s : State) : s.input.length = s.operands.ilen.toNat := by
  simp [State.input, State.memRead]

theorem exec_htEncbuf {s : State} (hlen : s.operands.ilen.toNat ≤ s.build.ibufCap.toNat) :
    exec .htEncbuf s =
      ((encodeLoop s.operands.ilen.toNat 0 s.restartOutput.freshTree).andThen flush).outcome := by
  rcases withInput_cases s (fun t => (encodeLoop t.operands.ilen.toNat 0 t.freshTree).andThen flush) with
    ⟨hlt, -⟩ | ⟨-, he⟩
  · omega
  · exact congrArg Run.outcome he

theorem State.olenAfter_restart (s : State) (n : Nat) : s.restartOutput.freshTree.olenAfter n = n / 8 := by
  show 0 + (0 + n) / 8 = n / 8
  omega

/-- The loop of `HT.ENCBUF` over the whole input, where the whole bytes of the session fit. -/
theorem encodeLoop_session {s : State} {u : Tree} (hu : Tree.fresh.updates s.input = some u)
    (hfit : (sessionBits Tree.fresh s.input).length / 8 ≤ s.build.obufCap.toNat) :
    ∃ p o, encodeLoop s.operands.ilen.toNat 0 s.restartOutput.freshTree =
        .going { s with packer := p, obuf := o, tree := u } ∧
      s.restartOutput.freshTree.Appends { s with packer := p, obuf := o, tree := u } (sessionBits Tree.fresh s.input) ∧
      8 * p.olen.toNat + p.bpcnt.toNat = (sessionBits Tree.fresh s.input).length := by
  obtain ⟨p, o, hgo, ha⟩ :=
    encodeLoop_appends s.restartOutput_packerOk hu ((s.olenAfter_restart _).le.trans hfit)
  exact ⟨p, o, hgo, ha, ha.count.trans (Nat.zero_add _)⟩

/-- Settles O27: the loop appends the codes and `flush` the padding; where the bits do not fit, one of them overflows. -/
theorem htEncbufWritesSession : Obligations.HtEncbufWritesSession := by
  intro s hlen
  obtain ⟨u, hu⟩ := Tree.fresh_updates (x := s.input) (by rw [s.length_input]; exact s.operands.ilen.isLt)
  rw [exec_htEncbuf hlen]
  refine ⟨fun hfit => ?_, fun hfull => ?_⟩
  · obtain ⟨p, o, hgo, ha, hcount⟩ := encodeLoop_session hu (by omega)
    obtain ⟨olen, o', k, hflush, hk, ha'⟩ := flush_appends ha.ok (by dsimp only; omega)
    have hall := ha.trans ha'
    have hpacked := hall.packed
    rw [State.packedBits_of_aligned rfl] at hpacked
    rw [hgo, Run.andThen_going, hflush]
    exact ⟨_, u, k, rfl, hk, hpacked, hu, rfl, fun a h => hall.kept a (.inr h)⟩
  · rcases Nat.lt_or_ge s.build.obufCap.toNat ((sessionBits Tree.fresh s.input).length / 8) with hbytes | hbytes
    · obtain ⟨j, w, p, hj, hloop, hw, hlow, hhigh⟩ :=
        encodeLoop_overflow s.restartOutput_packerOk hu (hbytes.trans_eq (s.olenAfter_restart _).symm)
      rw [hloop, Run.andThen_ended]
      exact ⟨_, w, j, rfl, hj.le, (s.olenAfter_restart _).symm.le.trans hlow,
        fun _ => hhigh.trans_eq (s.olenAfter_restart _), hw, rfl, rfl⟩
    · obtain ⟨p, o, hgo, ha, hcount⟩ := encodeLoop_session hu hbytes
      rw [hgo, Run.andThen_going, flush_overflow ha.ok (by dsimp only; omega)]
      rw [← List.take_of_length_le s.length_input.le] at hu hbytes
      exact ⟨_, u, _, rfl, le_refl _, hbytes, fun h => absurd h (lt_irrefl _), hu, rfl, rfl⟩

end Sys2Proof.Machine

/-! ## Decoding a buffer -/

namespace Sys2Proof.Machine

/-- The state after `HT.DECBUF` has delivered the symbols of `x` from the next `n` bits, the tree being `u` then. -/
def State.delivered (s : State) (x : List Byte) (n : Nat) (u : Tree) : State :=
  { s.skip n with
    obuf := Memory.store s.obuf s.packer.olen.toNat x
    packer := { s.packer with olen := s.packer.olen + BitVec.ofNat 64 x.length }, tree := u }

theorem State.delivered_nil (s : State) : s.delivered [] 0 s.tree = s := by
  have holen : s.packer.olen + BitVec.ofNat 64 0 = s.packer.olen := BitVec.add_zero _
  unfold State.delivered
  rw [List.length_nil, holen]
  rfl

theorem State.delivered_cons {s : State} (hlt : s.packer.olen.toNat < s.build.obufCap.toNat) (v : Byte) (x : List Byte)
    (m n : Nat) (w u : Tree) :
    (s.delivered [v] m w).delivered x n u = s.delivered (v :: x) (m + n) u := by
  have holen : s.packer.olen + 1 + BitVec.ofNat 64 x.length = s.packer.olen + BitVec.ofNat 64 (x.length + 1) := by
    rw [BitVec.add_assoc, BitVec.add_comm 1, BitVec.ofNat_add x.length 1]
    rfl
  have hstore : Memory.store (Memory.store s.obuf s.packer.olen.toNat [v]) (s.packer.olen + 1).toNat x =
      Memory.store s.obuf s.packer.olen.toNat (v :: x) := by rw [olen_succ hlt]; rfl
  have hskip := congrArg State.unpacker (s.skip_skip m n)
  simp only [State.delivered, State.skip, List.length_cons, List.length_nil, State.mk.injEq, Packer.mk.injEq, and_true,
    true_and]
  exact ⟨holen, hskip, hstore⟩

/-- One round of the loop of `HT.DECBUF` where a symbol is decoded and fits. -/
theorem decodeLoop_succ {s : State} {v : Byte} {n : Nat} {w : Tree} (hdec : decodeSymbol s = (some v, s.skip n))
    (hlt : s.packer.olen.toNat < s.build.obufCap.toNat) (hw : s.tree.update v = some w) (k i : Nat) :
    decodeLoop (k + 1) i s = decodeLoop k (i + 1) (s.delivered [v] n w) := by
  rcases emit_cases v (s.skip n) with ⟨-, he⟩ | ⟨hge, -⟩
  · simp only [decodeLoop, hdec]
    rw [he, Run.andThen_going, updateTree_of_some (by exact hw), Run.andThen_going]
    rfl
  · exact absurd hlt (Nat.not_lt.2 hge)

/-- The loop of `HT.DECBUF` delivers the symbols of a session that the unread bits start with (40_aht.md R150). -/
theorem decodeLoop_session {s : State} {x : List Byte} {rest : List Bool} {u : Tree} (hs : s.tree.Inv)
    (hu : s.tree.updates x = some u) (h : s.unreadBits = sessionBits s.tree x ++ rest)
    (hfit : s.packer.olen.toNat + x.length ≤ s.build.obufCap.toNat) (k i : Nat) :
    decodeLoop (x.length + k) i s =
      decodeLoop k (i + x.length) (s.delivered x (sessionBits s.tree x).length u) := by
  induction x generalizing s i with
  | nil =>
    cases hu
    rw [List.length_nil, Nat.zero_add, Nat.add_zero]
    exact congrArg _ s.delivered_nil.symm
  | cons v x ih =>
    obtain ⟨w, hw, hu⟩ := Tree.updates_cons hu
    rw [List.length_cons] at hfit
    have hlt : s.packer.olen.toNat < s.build.obufCap.toNat := by omega
    rw [sessionBits_cons hw, List.append_assoc] at h
    have hstep := decodeLoop_succ (decodeSymbol_spells hs (.inl rfl) h) hlt hw (x.length + k) i
    have hrest := ih (s := s.delivered [v] (s.tree.code v).length w) (hs.update hw) hu (State.skip_append h).1
      (by show (s.packer.olen + 1).toNat + _ ≤ s.build.obufCap.toNat; rw [olen_succ hlt]; omega) (i + 1)
    rw [List.length_cons, Nat.add_right_comm, hstep, hrest, State.delivered_cons hlt, sessionBits_cons hw,
      List.length_append, Nat.add_right_comm i 1, Nat.add_assoc]
    rfl

/-- Where a symbol is decoded and does not fit, the loop raises `Capacity(0)`. -/
theorem decodeLoop_full {s : State} {v : Byte} {n : Nat} (hdec : decodeSymbol s = (some v, s.skip n))
    (hge : s.build.obufCap.toNat ≤ s.packer.olen.toNat) (k i : Nat) :
    decodeLoop (k + 1) i s = .ended ((s.skip n).raise .capacity 0) := by
  rcases emit_cases v (s.skip n) with ⟨hlt, -⟩ | ⟨-, he⟩
  · exact absurd hlt (Nat.not_lt.2 hge)
  · simp only [decodeLoop, hdec]
    rw [he, Run.andThen_ended]

/-- Where the next symbol's bits run out, the loop raises `CorruptBitstream` with the number of symbols before it. -/
theorem decodeLoop_cut {s t : State} (hdec : decodeSymbol s = (none, t)) (k i : Nat) :
    decodeLoop (k + 1) i s = .ended (t.raise .corruptBitstream (BitVec.ofNat 64 i)) := by
  simp only [decodeLoop, hdec]

/-! ### The command -/

/-- The state that the loop of `HT.DECBUF` starts from. -/
def State.decodeStart (s : State) : State := s.restartOutput.freshTree.rewindInput

theorem State.decodeStart_unreadBits (s : State) : s.decodeStart.unreadBits = s.inputBits := rfl

theorem exec_htDecbuf {s : State} (hlen : s.operands.ilen.toNat ≤ s.build.ibufCap.toNat) :
    exec .htDecbuf s =
      ((decodeLoop s.operands.symcnt.toNat 0 s.decodeStart).andThen checkAllUsed).outcome := by
  rcases withInput_cases s
    (fun t => (decodeLoop t.operands.symcnt.toNat 0 t.freshTree.rewindInput).andThen checkAllUsed) with
    ⟨hlt, -⟩ | ⟨-, he⟩
  · omega
  · exact congrArg Run.outcome he

/-- The command after it has delivered the symbols of a session that the input starts with. -/
theorem exec_htDecbuf_session {s : State} {x : List Byte} {rest : List Bool} {u : Tree}
    (hlen : s.operands.ilen.toNat ≤ s.build.ibufCap.toNat) (hu : Tree.fresh.updates x = some u)
    (h : s.inputBits = sessionBits Tree.fresh x ++ rest) (hfit : x.length ≤ s.build.obufCap.toNat)
    {k : Nat} (hk : s.operands.symcnt.toNat = x.length + k) :
    exec .htDecbuf s = ((decodeLoop k x.length
      (s.decodeStart.delivered x (sessionBits Tree.fresh x).length u)).andThen checkAllUsed).outcome := by
  rw [exec_htDecbuf hlen, hk, decodeLoop_session (s := s.decodeStart) Tree.fresh_inv hu h
    ((Nat.zero_add _).le.trans hfit) k 0, Nat.zero_add]
  rfl

section Delivered

variable {s : State} {x : List Byte} {u : Tree} {n : Nat} (hfit : x.length ≤ s.build.obufCap.toNat)
include hfit

theorem State.delivered_olen : (s.decodeStart.delivered x n u).packer.olen.toNat = x.length := by
  have := s.build.obufCap.isLt
  show (0#64 + BitVec.ofNat 64 x.length).toNat = x.length
  rw [BitVec.zero_add, BitVec.toNat_ofNat, Nat.mod_eq_of_lt (by omega)]

theorem State.delivered_output : (s.decodeStart.delivered x n u).output = x := by
  have holen := State.delivered_olen (u := u) (n := n) hfit
  rw [State.output, holen]
  refine List.ext_getElem (by simp) fun i h1 h2 => ?_
  rw [List.getElem_map, List.getElem_range, State.readObuf, holen, if_pos h2]
  show (Table.get (Memory.store [] 0 x) i).getD _ = _
  rw [Memory.get_store, if_pos (by omega), Nat.sub_zero, List.getElem?_eq_getElem h2]
  rfl

theorem State.delivered_free {a : Nat} (ha : (s.decodeStart.delivered x n u).packer.olen.toNat ≤ a) :
    Table.get (s.decodeStart.delivered x n u).obuf a = none := by
  rw [State.delivered_olen hfit] at ha
  show Table.get (Memory.store [] 0 x) a = none
  rw [Memory.get_store, if_neg (by omega), Table.get_nil]

end Delivered

theorem Unpacker.bytesUsed_eq (u : Unpacker) : u.bytesUsed = cdiv u.bitIndex 8 := by
  have := u.ibit.isLt
  have hzero : u.ibit = 0 ↔ u.ibit.toNat = 0 := BitVec.toNat_inj.symm
  unfold Unpacker.bytesUsed Unpacker.bitIndex cdiv
  rw [show (8 * u.ipos.toNat + u.ibit.toNat) / 8 = u.ipos.toNat by omega,
    show (8 * u.ipos.toNat + u.ibit.toNat) % 8 = u.ibit.toNat by omega]
  simp only [hzero, ne_eq, ite_not]

/-- Of `n` bytes, those that a run of bits reaches are all exactly if less than a byte follows it. -/
theorem cdiv_lt_iff {n a b : Nat} (h : 8 * n = a + b) : cdiv a 8 < n ↔ 8 ≤ b := by
  unfold cdiv
  split <;> omega

section Session

variable {s : State} (hlen : s.operands.ilen.toNat ≤ s.build.ibufCap.toNat) {x : List Byte} {u : Tree}
  (hu : Tree.fresh.updates x = some u) {pad : List Bool} (hbits : s.inputBits = sessionBits Tree.fresh x ++ pad)
include hbits

/-- After the symbols of a session the cursor stands behind its bits. -/
theorem State.delivered_bitIndex :
    (s.decodeStart.delivered x (sessionBits Tree.fresh x).length u).unpacker.bitIndex =
      (sessionBits Tree.fresh x).length :=
  (State.skip_append (s := s.decodeStart) hbits).2.trans (Nat.zero_add _)

include hlen

/-- Whole bytes of padding are trailing data (40_aht.md R149). -/
theorem checkAllUsed_delivered :
    checkAllUsed (s.decodeStart.delivered x (sessionBits Tree.fresh x).length u) =
      if 8 ≤ pad.length then
        .ended ((s.decodeStart.delivered x (sessionBits Tree.fresh x).length u).raise .trailingData
          (BitVec.ofNat 64 (cdiv (sessionBits Tree.fresh x).length 8)))
      else .going (s.decodeStart.delivered x (sessionBits Tree.fresh x).length u) := by
  have hcount : 8 * s.operands.ilen.toNat = (sessionBits Tree.fresh x).length + pad.length := by
    rw [← List.length_append, ← hbits, State.length_inputBits, State.inputEnd, Nat.min_eq_left hlen]
  rw [checkAllUsed, Unpacker.bytesUsed_eq, State.delivered_bitIndex hbits]
  exact if_congr (cdiv_lt_iff hcount) rfl rfl

include hu

/-- A session of as many symbols as asked for leaves the check for trailing data. -/
theorem exec_htDecbuf_complete (hcount : s.operands.symcnt.toNat = x.length) (hfit : x.length ≤ s.build.obufCap.toNat) :
    exec .htDecbuf s =
      (checkAllUsed (s.decodeStart.delivered x (sessionBits Tree.fresh x).length u)).outcome :=
  exec_htDecbuf_session hlen hu hbits hfit (k := 0) hcount

end Session

/-- A symbol more than fits `OBUF` is decoded, and then `Capacity(0)` raised. -/
theorem exec_htDecbuf_full {s : State} (hlen : s.operands.ilen.toNat ≤ s.build.ibufCap.toNat) {x : List Byte} {u : Tree}
    (hu : Tree.fresh.updates x = some u) {v : Byte} {rest : List Bool}
    (hbits : s.inputBits = sessionBits Tree.fresh x ++ (u.code v ++ rest)) (hx : x.length = s.build.obufCap.toNat)
    (hcount : x.length < s.operands.symcnt.toNat) :
    ∃ t, exec .htDecbuf s = .next (t.raise .capacity 0) ∧
      t = (s.decodeStart.delivered x (sessionBits Tree.fresh x).length u).skip (u.code v).length ∧
      t.unpacker.bitIndex = (sessionBits Tree.fresh (x ++ [v])).length := by
  obtain ⟨k, hk⟩ := Nat.exists_eq_add_of_lt hcount
  have hunread : (s.decodeStart.delivered x (sessionBits Tree.fresh x).length u).unreadBits = u.code v ++ rest :=
    (State.skip_append (s := s.decodeStart) hbits).1
  have hfull := decodeLoop_full (decodeSymbol_spells (Tree.fresh_inv.updates hu) (.inl rfl) hunread)
    (by rw [State.delivered_olen hx.le, hx]; rfl) k x.length
  refine ⟨_, ?_, rfl, ?_⟩
  · rw [exec_htDecbuf_session hlen hu hbits hx.le (k := k + 1) hk, hfull]
    rfl
  · rw [(State.skip_append hunread).2, State.delivered_bitIndex hbits, sessionBits_append hu, sessionBits_singleton,
      List.length_append]

/-- Settles O28: a code stands for its symbol in the tree that has counted those before it, so the loop delivers the
session; then the padding is looked at, or the next symbol does not fit. -/
theorem htDecbufInvertsSession : Obligations.HtDecbufInvertsSession := by
  intro s x pad hlen hbits
  refine ⟨fun hcount hfit hpad => ?_, fun hcount hfit hpad => ?_, fun hcount hfull => ?_⟩
  · obtain ⟨u, hu⟩ := Tree.fresh_updates (hcount ▸ s.operands.symcnt.isLt)
    rw [exec_htDecbuf_complete hlen hu hbits hcount hfit, checkAllUsed_delivered hlen hbits,
      if_neg (Nat.not_le.2 hpad)]
    exact ⟨_, u, rfl, State.delivered_output hfit, hu, State.delivered_bitIndex hbits, rfl,
      fun a ha => State.delivered_free hfit ha⟩
  · obtain ⟨u, hu⟩ := Tree.fresh_updates (hcount ▸ s.operands.symcnt.isLt)
    rw [exec_htDecbuf_complete hlen hu hbits hcount hfit, checkAllUsed_delivered hlen hbits, if_pos hpad]
    exact ⟨_, u, rfl, hu, State.delivered_bitIndex (u := u) hbits, rfl⟩
  · obtain ⟨pre, v, post, rfl, hpre⟩ : ∃ pre v post, x = pre ++ v :: post ∧ pre.length = s.build.obufCap.toNat :=
      ⟨_, _, _, by rw [← List.drop_eq_getElem_cons hfull, List.take_append_drop], List.length_take_of_le hfull.le⟩
    have hcount' : pre.length < s.operands.symcnt.toNat := by omega
    obtain ⟨u, hu⟩ := Tree.fresh_updates (hcount'.trans s.operands.symcnt.isLt)
    have htake : (pre ++ v :: post).take (s.build.obufCap.toNat + 1) = pre ++ [v] := by
      rw [List.append_cons]
      exact List.take_left' (by rw [List.length_append, hpre]; rfl)
    rw [sessionBits_append hu, List.append_assoc, sessionBits, List.append_assoc] at hbits
    obtain ⟨t, hexec, rfl, hidx⟩ := exec_htDecbuf_full hlen hu hbits hpre hcount'
    rw [hexec, htake, List.take_left' hpre]
    exact ⟨_, u, rfl, hu, hidx, rfl⟩

/-- Settles O29: after the symbols decoded, the bits left do not make up the next one. -/
theorem htDecbufReportsFailingSymbol : Obligations.HtDecbufReportsFailingSymbol := by
  intro s x v rest more u hlen hcount hfit hu hbits hmore hv
  obtain ⟨k, hk⟩ := Nat.exists_eq_add_of_lt hcount
  have hunread : (s.decodeStart.delivered x (sessionBits Tree.fresh x).length u).unreadBits = rest :=
    (State.skip_append (s := s.decodeStart) hbits).1
  have hcut := decodeSymbol_cut (s := s.decodeStart.delivered x (sessionBits Tree.fresh x).length u)
    (Tree.fresh_inv.updates hu) (v := v) (bits := rest ++ more) hv hmore (by rw [hunread])
  rw [exec_htDecbuf_session hlen hu hbits hfit (k := k + 1) hk, decodeLoop_cut hcut]
  exact ⟨_, rfl, State.unreadBits_skip_all _, rfl⟩

/-- Settles O30: the empty session leaves all of the input, and no input makes up no symbol. -/
theorem htDecbufCornerCases : Obligations.HtDecbufCornerCases := by
  intro s hlen
  refine ⟨fun hcount hin => ?_, fun hcount hin => ?_⟩
  · have hpos : s.operands.ilen.toNat ≠ 0 := fun h => hin (BitVec.eq_of_toNat_eq h)
    have hpad : 8 ≤ s.inputBits.length := by
      rw [s.length_inputBits, State.inputEnd, Nat.min_eq_left hlen]
      omega
    rw [exec_htDecbuf_complete (x := []) (pad := s.inputBits) hlen rfl rfl (by rw [hcount]; rfl) (Nat.zero_le _),
      checkAllUsed_delivered (x := []) (pad := s.inputBits) hlen rfl, if_pos hpad]
    rfl
  · have hnil : s.decodeStart.unreadBits = [] := by
      rw [s.decodeStart_unreadBits, ← List.length_eq_zero_iff, s.length_inputBits, State.inputEnd, hin]
      rfl
    have hcut := decodeSymbol_cut (s := s.decodeStart) Tree.fresh_inv (v := 0) (.inl rfl)
      (show Tree.fresh.code 0 ≠ [] by decide) (by rw [hnil]; rfl)
    obtain ⟨k, hk⟩ := Nat.exists_eq_succ_of_ne_zero fun h => hcount (BitVec.eq_of_toNat_eq h)
    rw [exec_htDecbuf hlen, hk, decodeLoop_cut hcut, hnil]
    rfl

end Sys2Proof.Machine

/-! ## The packer's and the unpacker's own commands -/

namespace Sys2Proof.Machine

/-! ### BP.PUT -/

theorem State.Appends.bpcnt {s t : State} {bits : List Bool} (h : s.Appends t bits) :
    t.packer.bpcnt.toNat = (s.packer.bpcnt.toNat + bits.length) % 8 := by
  have := h.count
  have := t.packer.bpcnt.isLt
  omega

/-- Settles O34: `BP.PUT` puts its `n` bits one after the other. -/
theorem bpPutAppendsBits : Obligations.BpPutAppendsBits := by
  intro s n val _ h hfit
  have hlen := msbFirst_length n.toNat val
  obtain ⟨p, o, hput, ha⟩ := putBits_appends h (msbFirst n.toNat val) (by rw [hlen]; exact hfit)
  have holen := ha.olen
  have hbpcnt := ha.bpcnt
  rw [hlen] at holen hbpcnt
  exact ⟨_, congrArg Run.outcome hput, ha.packed, rfl, ha.ok, holen, hbpcnt, ha.kept⟩

/-! ### BP.FLUSH -/

theorem flush_of_aligned {s : State} (h : s.packer.bpcnt = 0) : flush s = .going s := if_pos h

/-- Settles O35: `flush` appends the zero bits that make up a whole number of bytes, fewer than eight of them, so it stores
at most the byte at `OLEN`. -/
theorem bpFlushPadsWithZeros : Obligations.BpFlushPadsWithZeros := by
  intro s h hroom
  have hfits := h.fits
  have hbpcnt := s.packer.bpcnt.isLt
  have hroom : s.packer.bpcnt.toNat = 0 ∨ s.packer.olen.toNat < s.build.obufCap.toNat :=
    hroom.imp_left (congrArg BitVec.toNat)
  obtain ⟨olen, o, k, hflush, hk, ha⟩ := flush_appends h (by omega)
  have hcount : 8 * olen.toNat + 0 = 8 * s.packer.olen.toNat + s.packer.bpcnt.toNat + k := by
    rw [← List.length_replicate (n := k) (a := false)]
    exact ha.count
  have hpad : k = (8 - s.packer.bpcnt.toNat) % 8 := by omega
  have hsame : s.packer.bpcnt = 0 → { s with packer := ⟨olen, 0, 0⟩, obuf := o } = s := fun h0 =>
    (Run.going.inj ((flush_of_aligned h0).symm.trans hflush)).symm
  refine ⟨_, congrArg Run.outcome hflush, hpad ▸ ha.packed, rfl, ha.ok, hsame, fun a hother => ?_,
    congrArg Run.outcome (flush_of_aligned rfl)⟩
  rcases hother with h0 | hne
  · exact congrArg (fun t : State => Table.get t.obuf a) (hsame h0)
  · refine ha.kept a ?_
    show a < s.packer.olen.toNat ∨ olen.toNat ≤ a
    omega

/-! ### The full output buffer -/

/-- Below the last bit of a byte, `BPCNT` counts up without wrapping. -/
theorem Packer.bpcnt_succ {p : Packer} (h7 : p.bpcnt ≠ 7) : (p.bpcnt + 1).toNat = p.bpcnt.toNat + 1 := by
  have := p.bpcnt.isLt
  have : p.bpcnt.toNat ≠ 7 := fun e => h7 (BitVec.eq_of_toNat_eq e)
  rw [BitVec.toNat_add, show (1 : BitVec 3).toNat = 1 from rfl]
  omega

/-- On every state, in order or not: where some byte is completed and not all of them fit, `putBits` ends with
`Capacity(0)`, at the first one that does not fit. -/
theorem putBits_full {s : State} {bits : List Bool} (hbyte : 0 < (s.packer.bpcnt.toNat + bits.length) / 8)
    (hfull : s.build.obufCap.toNat < s.olenAfter bits.length) : ∃ p, putBits bits s = .ended (s.packerFull p) := by
  unfold State.olenAfter at hfull
  induction bits generalizing s with
  | nil =>
    have := s.packer.bpcnt.isLt
    rw [List.length_nil] at hbyte
    omega
  | cons b bits ih =>
    rw [List.length_cons] at hbyte hfull
    rw [putBits]
    rcases putBit_cases b s with ⟨h7, he⟩ | ⟨h7, hlt, he⟩ | ⟨-, -, he⟩ <;> rw [he]
    · have hsucc := Packer.bpcnt_succ h7
      refine ih ?_ ?_ <;> dsimp only <;> omega
    · have hsucc := olen_succ hlt
      rw [h7, show (7 : BitVec 3).toNat = 7 from rfl] at hfull
      refine ih ?_ ?_ <;> dsimp only <;> rw [show (0 : BitVec 3).toNat = 0 from rfl] <;> omega
    · exact ⟨⟨0, s.packer.accWith b, Config.freePackerCount s.obufEpoch⟩, rfl⟩

/-- Settles O36: the bytes are completed one at a time, so the first one that finds no room raises. -/
theorem packerFullRaises : Obligations.PackerFullRaises := by
  intro s
  refine ⟨fun sym hbyte hfull => ?_, fun n val hbyte hfull => ?_, fun h0 hfull => ?_⟩
  · obtain ⟨p, he⟩ := putBits_full hbyte hfull
    exact ⟨_, congrArg Run.outcome he, rfl, rfl⟩
  · rw [← msbFirst_length n.toNat val] at hbyte hfull
    obtain ⟨p, he⟩ := putBits_full hbyte hfull
    exact ⟨_, congrArg Run.outcome he, rfl, rfl⟩
  · rcases flush_cases s with ⟨h, -⟩ | ⟨-, hlt, -⟩ | ⟨-, -, he⟩
    · exact absurd h h0
    · omega
    · exact congrArg Run.outcome he

/-! ### BU.GET -/

theorem exec_buGet (n : BitVec 4) (s : State) :
    exec (.buGet n) s =
      .next ((getBits n.toNat 0 s).2.setResult ((getBits n.toNat 0 s).1.map (BitVec.ofNat 8))) := by
  show execBuGet n s = _
  unfold execBuGet
  split <;> next heq => rw [heq]; rfl

/-- Settles O37: either `n` bits are left and are read off the unread ones, or all that are left are consumed. -/
theorem buGetReadsBits : Obligations.BuGetReadsBits := by
  intro s n _
  refine ⟨_, exec_buGet n s, fun hle => ?_, fun hlt => ?_⟩
  · have hsplit := (List.take_append_drop n.toNat s.unreadBits).symm
    have hbits := getBits_append hsplit 0
    have hrest := (State.skip_append hsplit).1
    rw [List.length_take_of_le hle] at hbits hrest
    rw [hbits]
    exact ⟨hrest, rfl⟩
  · rw [getBits_cut hlt]
    exact ⟨s.unreadBits_skip_all, State.readReg_result_none _, rfl⟩

/-! ### Who moves the cursor -/

/-- The parts that move the cursor belong to `HT.DEC`, `HT.DECBUF`, `BU.GET` and `BU.INIT`. -/
theorem keeps_unpacker {i : Instr} (hdec : i ≠ .htDec) (hdecbuf : i ≠ .htDecbuf) (hinit : i ≠ .buInit)
    (hget : ∀ n, i ≠ .buGet n) (s : State) :
    Keeps i (fun u => u.unpacker = s.unpacker) (fun u => u.unpacker = s.unpacker) where
  raise _ _ _ _ h := h
  full _ _ _ h := h
  store _ _ _ h _ := h
  byte _ _ _ h _ := h
  bit _ _ _ h _ := h
  restart _ _ h := h
  fresh _ _ h := h
  update _ _ _ _ h _ := h
  rewind _ hi := absurd hi (not_or.2 ⟨hinit, hdecbuf⟩)
  cursor _ hi := absurd hi (not_or.2 ⟨hdec, not_or.2 ⟨hdecbuf, not_exists.2 hget⟩⟩)
  result _ _ _ h := h
  forward _ _ _ _ h := h
  reverse _ _ _ _ h _ _ _ := h

/-- Settles O52: no part of any other command moves the cursor. -/
theorem cursorMovedOnlyByReaders : Obligations.CursorMovedOnlyByReaders := by
  intro i s t ht hsrst hdec hdecbuf hinit hget
  exact ((keeps_unpacker hdec hdecbuf hinit hget s).exec hsrst rfl ht).elim id id

end Sys2Proof.Machine

/-! ## The run-length transforms -/

namespace Sys2Proof.Machine

/-! ### The tokens of the transform -/

/-- How many bytes of `x` a match of `b` could take: the bytes equal to `b` that `x` starts with, its last byte left out
(42_rle.md R191). -/
def copiesAhead (b : Byte) : List Byte → Nat
  | [] => 0
  | [_] => 0
  | c :: d :: x => if c = b then copiesAhead b (d :: x) + 1 else 0

theorem copiesAhead_cons (b c : Byte) {x : List Byte} (hx : x ≠ []) :
    copiesAhead b (c :: x) = if c = b then copiesAhead b x + 1 else 0 := by
  cases x with
  | nil => exact absurd rfl hx
  | cons d x => rfl

/-- A match stops at its limit or where no byte is left for it to take. -/
theorem matchMore_eq_min (b : Byte) (k : Nat) (x : List Byte) : matchMore b k x = min k (copiesAhead b x) := by
  fun_induction matchMore b k x with
  | case1 => exact (Nat.zero_min _).symm
  | case2 => rfl
  | case3 => rfl
  | case4 k d x ih => rw [copiesAhead, if_pos rfl, ih, Nat.succ_min_succ]
  | case5 k c d x hne => rw [copiesAhead, if_neg hne, Nat.min_zero]

/-- What a match takes are copies of its byte, and it leaves some byte (42_rle.md R191). -/
theorem split_copies {b : Byte} {m : Nat} {x : List Byte} (h : m ≤ copiesAhead b x) (hx : x ≠ []) :
    ∃ z, z ≠ [] ∧ x = List.replicate m b ++ z := by
  induction m generalizing x with
  | zero => exact ⟨x, hx, rfl⟩
  | succ m ih =>
    match x, h with
    | c :: d :: x, h =>
      rw [copiesAhead] at h
      split at h
      · next heq =>
        obtain ⟨z, hz, hsplit⟩ := ih (Nat.le_of_succ_le_succ h) (List.cons_ne_nil d x)
        exact ⟨z, hz, by rw [heq, hsplit, List.replicate_succ, List.cons_append]⟩
      · omega

/-- `Tokens x y`: the transform spells `x` as `y`. A literal stands where too few copies of it follow for a match; a run
is its first three bytes and the number of the others, and some byte follows it (42_rle.md R190, R191). -/
inductive Tokens : List Byte → List Byte → Prop
  | nil : Tokens [] []
  | literal {b : Byte} {x y : List Byte} (hfew : copiesAhead b x ≤ 1) (h : Tokens x y) : Tokens (b :: x) (b :: y)
  | run {b : Byte} {n : Nat} {x y : List Byte} (hn : n ≤ 255) (hx : x ≠ []) (h : Tokens x y) :
    Tokens (b :: b :: b :: (List.replicate n b ++ x)) (b :: b :: b :: BitVec.ofNat 8 n :: y)

theorem rleFwdLoop_tokens {k : Nat} {x : List Byte} (hk : x.length ≤ k) : Tokens x (rleFwdLoop k x) := by
  induction k generalizing x with
  | zero =>
    rw [List.length_eq_zero_iff.1 (Nat.le_zero.1 hk)]
    exact .nil
  | succ k ih =>
    cases x with
    | nil => exact .nil
    | cons b x =>
      have hlen : matchLen b x = 1 + min 257 (copiesAhead b x) := congrArg (1 + ·) (matchMore_eq_min b 257 x)
      rw [List.length_cons] at hk
      rw [rleFwdLoop, rleTrigger]
      split
      · next hmatch =>
        obtain ⟨n, hn⟩ := Nat.exists_eq_add_of_le' hmatch
        have hx : x ≠ [] := by
          rintro rfl
          rw [copiesAhead] at hlen
          omega
        obtain ⟨z, hz, rfl⟩ := split_copies (b := b) (m := n + 2) (by omega) hx
        rw [List.length_append, List.length_replicate] at hk
        rw [hn, show n + 3 - 1 = n + 2 from rfl, List.drop_left' List.length_replicate]
        exact .run (by omega) hz (ih (by omega))
      · exact .literal (by omega) (ih (by omega))

/-- The transform writes tokens (42_rle.md R190). -/
theorem rleFwd_tokens (x : List Byte) : Tokens x (rleFwd x) := rleFwdLoop_tokens le_rfl

/-! ### The inverse, and where a block decoder stops -/

@[simp] theorem rleInvFrom_nil (st : RunState) : rleInvFrom st [] = [] := by rw [rleInvFrom]

@[simp] theorem rleInvFrom_cons (st : RunState) (v : Byte) (d : List Byte) :
    rleInvFrom st (v :: d) = (rleStep st v).2 ++ rleInvFrom (rleStep st v).1 d := rfl

/-- `FillsExactly` from a run state on: a block decoder that still has `need` bytes to produce stops after `d`
(42_rle.md R196). -/
def FillsFrom (st : RunState) (d : List Byte) (need : Nat) : Prop :=
  (rleInvFrom st d).length = need ∧ ∀ m, m < d.length → (rleInvFrom st (d.take m)).length < need

theorem fillsExactly_iff (d : List Byte) (need : Nat) : FillsExactly d need ↔ FillsFrom RunState.start d need := Iff.rfl

theorem FillsFrom.nil (st : RunState) : FillsFrom st [] 0 := ⟨by simp, fun _ h => absurd h (Nat.not_lt_zero _)⟩

theorem fillsFrom_cons (st : RunState) (v : Byte) (d : List Byte) (need : Nat) :
    FillsFrom st (v :: d) need ↔
      0 < need ∧ (rleStep st v).2.length ≤ need ∧
        FillsFrom (rleStep st v).1 d (need - (rleStep st v).2.length) := by
  constructor
  · rintro ⟨htotal, hshort⟩
    have hzero := hshort 0 (Nat.zero_lt_succ _)
    simp only [rleInvFrom_cons, List.length_append] at htotal
    refine ⟨by omega, by omega, by omega, fun m hm => ?_⟩
    have hm := hshort (m + 1) (Nat.succ_lt_succ hm)
    simp only [List.take_succ_cons, rleInvFrom_cons, List.length_append] at hm
    omega
  · rintro ⟨hpos, hle, htotal, hshort⟩
    refine ⟨by simp only [rleInvFrom_cons, List.length_append]; omega, fun m hm => ?_⟩
    cases m with
    | zero => simpa using hpos
    | succ m =>
      have hm := hshort m (Nat.lt_of_succ_lt_succ hm)
      simp only [List.take_succ_cons, rleInvFrom_cons, List.length_append]
      omega

/-- A block decoder that reads data which fill its block stops after them, whatever follows (42_rle.md R196). -/
theorem rleBlockLoop_of_fills {s : State} {left pos need : Nat} {st : RunState} {d : List Byte}
    (h : FillsFrom st d need) (hleft : d.length ≤ left) (hd : s.memRead pos d.length = d) :
    rleBlockLoop s left pos need st = .ok (rleInvFrom st d, pos + d.length) := by
  induction d generalizing left pos need st with
  | nil =>
    obtain rfl : 0 = need := by simpa using h.1
    unfold rleBlockLoop
    rfl
  | cons v d ih =>
    obtain ⟨hpos, hle, h⟩ := (fillsFrom_cons st v d need).1 h
    rw [List.length_cons, State.memRead_succ, List.cons.injEq] at hd
    obtain ⟨hv, hd⟩ := hd
    obtain ⟨left, rfl⟩ := Nat.exists_eq_add_of_le' (Nat.le_of_add_left_le hleft)
    rw [List.length_cons] at hleft
    unfold rleBlockLoop
    dsimp only
    rw [hv, if_neg (by omega), if_neg (by omega), ih h (by omega) hd, rleInvFrom_cons, List.length_cons]
    simp only [Nat.add_assoc, Nat.add_comm 1]

theorem rleBlock_of_fills {s : State} {pos need : Nat} {d : List Byte} (h : FillsExactly d need)
    (hend : pos + d.length ≤ s.operands.ilen.toNat) (hd : s.memRead pos d.length = d) :
    rleBlock s pos need = .ok (rleInv d, pos + d.length) :=
  rleBlockLoop_of_fills ((fillsExactly_iff d need).1 h) (by omega) hd

/-! ### The inverse reads the tokens -/

/-- `y` decodes to `x` from a run state on, and no shorter part of `y` yields as many bytes. -/
def Decodes (st : RunState) (y x : List Byte) : Prop := rleInvFrom st y = x ∧ FillsFrom st y x.length

theorem Decodes.nil (st : RunState) : Decodes st [] [] := ⟨rleInvFrom_nil st, .nil st⟩

theorem Decodes.cons {st st' : RunState} {v : Byte} {out x y : List Byte} (hstep : rleStep st v = (st', out))
    (hne : out ++ x ≠ []) (h : Decodes st' y x) : Decodes st (v :: y) (out ++ x) := by
  obtain ⟨hinv, hfills⟩ := h
  refine ⟨by rw [rleInvFrom_cons, hstep, hinv], ?_⟩
  rw [fillsFrom_cons, hstep, List.length_append, Nat.add_sub_cancel_left]
  exact ⟨by rw [← List.length_append]; exact List.length_pos_iff.2 hne, Nat.le_add_right _ _, hfills⟩

/-- The run state may stand before `x`: it expects no count, and the copies of its byte at the head of `x` do not make a
run with those it has counted. -/
def RunState.Ready (st : RunState) (x : List Byte) : Prop :=
  x ≠ [] → st.cnt < rleTrigger ∧ ∀ b, st.last = some b → st.cnt + copiesAhead b x < rleTrigger

theorem RunState.start_ready (x : List Byte) : RunState.start.Ready x := fun _ => ⟨by decide, fun _ h => nomatch h⟩

theorem rleStep_other {st : RunState} {b : Byte} (hcnt : st.cnt < rleTrigger) (hb : st.last ≠ some b) :
    rleStep st b = (⟨some b, 1⟩, [b]) := by
  rw [rleStep, if_neg hcnt.ne, if_neg hb]

theorem rleStep_same {b : Byte} {n : Nat} (hn : n < rleTrigger) :
    rleStep ⟨some b, n⟩ b = (⟨some b, n + 1⟩, [b]) := by
  rw [rleStep, if_neg hn.ne, if_pos rfl]

theorem rleStep_count (b : Byte) {n : Nat} (hn : n ≤ 255) :
    rleStep ⟨some b, rleTrigger⟩ (BitVec.ofNat 8 n) = (RunState.start, List.replicate n b) := by
  rw [rleStep, if_pos rfl, BitVec.toNat_ofNat, Nat.mod_eq_of_lt (by omega)]
  rfl

theorem RunState.ready_some {b : Byte} {n : Nat} {x : List Byte} (h : n + copiesAhead b x < rleTrigger) :
    RunState.Ready ⟨some b, n⟩ x :=
  fun _ => ⟨(Nat.le_add_right _ _).trans_lt h, fun _ hc => Option.some.inj hc ▸ h⟩

/-- A literal leaves a run state that may stand before what follows it. -/
theorem RunState.Ready.literal {st : RunState} {b : Byte} {x : List Byte} (h : st.Ready (b :: x))
    (hfew : copiesAhead b x ≤ 1) : ∃ st', rleStep st b = (st', [b]) ∧ st'.Ready x := by
  obtain ⟨hcnt, hlast⟩ := h (List.cons_ne_nil b x)
  by_cases hb : st.last = some b
  · obtain ⟨last, n⟩ := st
    subst hb
    refine ⟨⟨some b, n + 1⟩, rleStep_same hcnt, fun hx => ?_⟩
    have hcopies : n + copiesAhead b (b :: x) < rleTrigger := hlast b rfl
    rw [copiesAhead_cons b b hx, if_pos rfl] at hcopies
    exact RunState.ready_some (by omega) hx
  · exact ⟨⟨some b, 1⟩, rleStep_other hcnt hb, RunState.ready_some (by rw [rleTrigger]; omega)⟩

/-- Before a run stands a run state of another byte, or of none. -/
theorem RunState.Ready.last_ne {st : RunState} {b : Byte} {x : List Byte} (h : st.Ready (b :: b :: b :: x))
    (hx : x ≠ []) :
    st.cnt < rleTrigger ∧ st.last ≠ some b := by
  obtain ⟨hcnt, hlast⟩ := h (List.cons_ne_nil _ _)
  refine ⟨hcnt, fun hb => ?_⟩
  have hcopies := hlast b hb
  rw [copiesAhead_cons _ _ (List.cons_ne_nil _ _), copiesAhead_cons _ _ (List.cons_ne_nil _ _), copiesAhead_cons _ _ hx,
    if_pos rfl, if_pos rfl, if_pos rfl, rleTrigger] at hcopies
  omega

/-- The inverse undoes the tokens one by one: a literal leaves too few copies to make a run, and a run ends in the
initial run state. -/
theorem Tokens.decodes {x y : List Byte} (h : Tokens x y) {st : RunState} (hst : st.Ready x) : Decodes st y x := by
  induction h generalizing st with
  | nil => exact .nil st
  | @literal b x y hfew _ ih =>
    obtain ⟨st', hstep, hst'⟩ := hst.literal hfew
    exact .cons hstep (List.cons_ne_nil b x) (ih hst')
  | @run b n x y hn hx _ ih =>
    have hrest : List.replicate n b ++ x ≠ [] := List.append_ne_nil_of_right_ne_nil _ hx
    obtain ⟨hcnt, hb⟩ := hst.last_ne hrest
    have hcount : Decodes ⟨some b, rleTrigger⟩ (BitVec.ofNat 8 n :: y) (List.replicate n b ++ x) :=
      .cons (rleStep_count b hn) hrest (ih (RunState.start_ready x))
    exact .cons (rleStep_other hcnt hb) (List.cons_ne_nil _ _) <|
      .cons (rleStep_same (by decide)) (List.cons_ne_nil _ _) <|
      .cons (rleStep_same (by decide)) (List.cons_ne_nil _ _) hcount

theorem decodes_rleFwd (x : List Byte) : Decodes RunState.start (rleFwd x) x :=
  (rleFwd_tokens x).decodes (RunState.start_ready x)

theorem rleInv_rleFwd (x : List Byte) : rleInv (rleFwd x) = x := (decodes_rleFwd x).1

/-- The transform of a block fills it, and no shorter part of it does. -/
theorem fillsExactly_rleFwd (x : List Byte) : FillsExactly (rleFwd x) x.length := (decodes_rleFwd x).2

/-- Settles O40: the inverse undoes the tokens of the transform, and needs all of them. -/
theorem rleRoundTrip : Obligations.RleRoundTrip := by
  refine ⟨rleInv_rleFwd, fun s pos x _ hend hin => ?_⟩
  have hread : s.memRead pos (rleFwd x).length = rleFwd x :=
    List.ext_getElem (by simp [State.memRead]) fun j _ hj => by
      have hj' := hin j hj
      rw [List.getElem?_eq_getElem hj, Option.some.injEq] at hj'
      simp [State.memRead, hj']
  rw [rleBlock_of_fills (fillsExactly_rleFwd x) hend hread, rleInv_rleFwd]

/-! ### The size of the transform -/

/-- A count byte stands for at least three bytes, and the last byte is in no run (42_rle.md R198). -/
theorem Tokens.length_le {x y : List Byte} (h : Tokens x y) : y.length ≤ x.length + (x.length - 1) / 3 := by
  induction h with
  | nil => exact le_rfl
  | literal _ _ ih =>
    simp only [List.length_cons]
    omega
  | run _ hx _ ih =>
    have hpos := List.length_pos_iff.2 hx
    simp only [List.length_cons, List.length_append, List.length_replicate]
    omega

/-- The last byte is a literal (42_rle.md R191). -/
theorem Tokens.getLast?_eq {x y : List Byte} (h : Tokens x y) : y.getLast? = x.getLast? := by
  induction h with
  | nil => rfl
  | literal _ _ ih => rw [List.getLast?_cons, List.getLast?_cons, ih]
  | @run b n x y _ hx _ ih =>
    obtain ⟨c, hc⟩ := Option.ne_none_iff_exists'.1 (mt List.getLast?_eq_none_iff.1 hx)
    simp only [List.getLast?_cons, List.getLast?_append, ih, hc, Option.getD_some, Option.some_or]

/-- Settles O41, token by token. -/
theorem rleSizeBound : Obligations.RleSizeBound := by
  refine ⟨rfl, fun x b => ?_⟩
  have htokens := rleFwd_tokens (x ++ [b])
  have hsize := htokens.length_le
  rw [List.length_append, List.length_singleton, Nat.add_sub_cancel] at hsize
  exact ⟨hsize, by rw [htokens.getLast?_eq, List.getLast?_concat]⟩

/-! ### Commands that emit a transform of their input -/

/-- The state after a command has started its output anew and emitted the bytes of `bs`. -/
def State.emitted (s : State) (bs : List Byte) : State :=
  { s with
    packer := { Packer.reset with olen := Packer.reset.olen + BitVec.ofNat 64 bs.length }
    obuf := Memory.store [] 0 bs }

theorem emitAll_restartOutput {s : State} {bs : List Byte} (hfit : bs.length ≤ s.build.obufCap.toNat) :
    emitAll bs s.restartOutput = .going (s.emitted bs) := by
  rcases emitAll_cases bs s.restartOutput with ⟨-, he⟩ | ⟨-, hlt, -⟩ | ⟨rfl, he⟩
  · exact he
  · exact absurd (hlt.trans_eq (Nat.zero_add _)) (Nat.not_lt.2 hfit)
  · exact he

theorem emitAll_restartOutput_full {s : State} {bs : List Byte} (hfull : s.build.obufCap.toNat < bs.length) :
    emitAll bs s.restartOutput = .ended (s.restartOutput.raise .capacity 0) := by
  rcases emitAll_cases bs s.restartOutput with ⟨hle, -⟩ | ⟨-, -, he⟩ | ⟨rfl, -⟩
  · exact absurd ((Nat.zero_add _).symm.le.trans hle) (Nat.not_le.2 hfull)
  · exact he
  · exact absurd hfull (Nat.not_lt_zero _)

section Emitted

/-! `OBUF` and the packer are as `HT.DECBUF` leaves them where it delivers the same bytes. -/

variable {s : State} {bs : List Byte} (hfit : bs.length ≤ s.build.obufCap.toNat)
include hfit

theorem State.emitted_olen : (s.emitted bs).packer.olen.toNat = bs.length :=
  State.delivered_olen (s := s) (u := s.tree) (n := 0) hfit

theorem State.emitted_output : (s.emitted bs).output = bs := State.delivered_output (s := s) (u := s.tree) (n := 0) hfit

theorem State.emitted_free {a : Nat} (ha : (s.emitted bs).packer.olen.toNat ≤ a) :
    Table.get (s.emitted bs).obuf a = none :=
  State.delivered_free (s := s) (u := s.tree) (n := 0) hfit ha

end Emitted

/-- What a command does that emits the transform `f` of its input: `f` of it fits `OBUF` and is its output, or
`Capacity(0)` is raised (42_rle.md R199, R200). -/
theorem withInput_emitAll (f : List Byte → List Byte) {s : State}
    (hlen : s.operands.ilen.toNat ≤ s.build.ibufCap.toNat) :
    ((f s.input).length ≤ s.build.obufCap.toNat →
      ∃ t, (withInput s fun u => emitAll (f u.input) u).outcome = .next t ∧ t.output = f s.input ∧
        t = { s with packer := ⟨t.packer.olen, 0, 0⟩, obuf := t.obuf } ∧
        ∀ a, t.packer.olen.toNat ≤ a → Table.get t.obuf a = none) ∧
    (s.build.obufCap.toNat < (f s.input).length →
      (withInput s fun u => emitAll (f u.input) u).outcome =
        .next { s with latch := ⟨false, true, 7, 0⟩, packer := ⟨0, 0, 0⟩, obuf := [] }) := by
  have hrun : (withInput s fun u => emitAll (f u.input) u) = emitAll (f s.input) s.restartOutput := by
    rcases withInput_cases s (fun u => emitAll (f u.input) u) with ⟨hlt, -⟩ | ⟨-, he⟩
    · omega
    · exact he
  rw [hrun]
  constructor
  · intro hfit
    exact ⟨_, congrArg Run.outcome (emitAll_restartOutput hfit), State.emitted_output hfit, rfl,
      fun _ ha => State.emitted_free hfit ha⟩
  · intro hfull
    exact congrArg Run.outcome (emitAll_restartOutput_full hfull)

/-- Settles O38: the command emits `rle_fwd` of its input. -/
theorem rleEncWritesTransform : Obligations.RleEncWritesTransform := fun _ hlen => withInput_emitAll rleFwd hlen

/-- Settles O39: the command emits `rle_inv` of its input. -/
theorem rleDecWritesInverse : Obligations.RleDecWritesInverse := fun _ hlen => withInput_emitAll rleInv hlen

end Sys2Proof.Machine

/-! ## The forward commands of the block transform -/

namespace Sys2Proof.Machine

/-- The opening of a command whose input fits `IBUF`. -/
theorem withInput_of_le {s : State} (hlen : s.operands.ilen.toNat ≤ s.build.ibufCap.toNat) (f : State → Run) :
    withInput s f = f s.restartOutput := by
  rcases withInput_cases s f with ⟨hlt, -⟩ | ⟨-, he⟩
  · omega
  · exact he

theorem toNat_eq_zero_iff (v : Word) : v.toNat = 0 ↔ v = 0 := BitVec.toNat_inj (y := (0 : Word))

theorem toNat_ofNat_of_lt {n : Nat} (h : n < 2 ^ 64) : (BitVec.ofNat 64 n).toNat = n := by
  rw [BitVec.toNat_ofNat, Nat.mod_eq_of_lt h]

theorem Latch.ne_latched {l : Latch} (h : l.fault = false) {k : ErrKind} {info : Word} : l ≠ Latch.latched k info :=
  fun heq => Bool.noConfusion (h.symm.trans (congrArg Latch.fault heq))

theorem Latch.latched_ne {k k' : ErrKind} (h : k.code ≠ k'.code) {info info' : Word} :
    Latch.latched k info ≠ Latch.latched k' info' :=
  fun heq => h (congrArg Latch.err heq)

/-! ### Emitting a candidate -/

/-- What the forward commands do once they have a candidate (43_abr.md R222, R223). -/
def emitCandidate (c : Candidate) (h : Nat) (s : State) : Run :=
  (emitAll c.out s).andThen fun t => .going (t.setForward c.bs h)

theorem emitCandidate_full {s : State} {c : Candidate} (hfull : s.build.obufCap.toNat < c.out.length) (h : Nat) :
    emitCandidate c h s.restartOutput = .ended (s.restartOutput.raise .capacity 0) := by
  rw [emitCandidate, emitAll_restartOutput_full hfull, Run.andThen_ended]

theorem emitCandidate_fits {s : State} {c : Candidate} (hfit : c.out.length ≤ s.build.obufCap.toNat) (h : Nat) :
    emitCandidate c h s.restartOutput = .going ((s.emitted c.out).setForward c.bs h) := by
  rw [emitCandidate, emitAll_restartOutput hfit, Run.andThen_going]

/-- What a candidate that fits leaves. -/
theorem emitCandidate_leaves {s : State} {c : Candidate} {h : Nat} (hfit : c.out.length ≤ s.build.obufCap.toNat)
    (hbs : c.bs < 2 ^ 64) (hh : h < 2 ^ 64) :
    ∃ t, (emitCandidate c h s.restartOutput).outcome = .next t ∧ t.output = c.out ∧ t.results.selbs.toNat = c.bs ∧
      t.results.outh.toNat = h ∧
      t = { s with
        packer := ⟨t.packer.olen, 0, 0⟩, obuf := t.obuf
        results := { s.results with selbs := t.results.selbs, outh := t.results.outh } } ∧
      ∀ a, t.packer.olen.toNat ≤ a → Table.get t.obuf a = none := by
  rw [emitCandidate_fits hfit]
  exact ⟨_, rfl, State.emitted_output hfit, toNat_ofNat_of_lt hbs, toNat_ofNat_of_lt hh, rfl,
    fun _ ha => State.emitted_free hfit ha⟩

/-- A candidate raises `Capacity` only. -/
theorem emitCandidate_latch_ne {s t : State} {c : Candidate} {h : Nat} (hfault : s.latch.fault = false)
    (ht : (emitCandidate c h s.restartOutput).outcome = .next t) : t.latch ≠ Latch.latched .invalidDimensions 0 := by
  rcases Nat.lt_or_ge s.build.obufCap.toNat c.out.length with hfull | hfit
  · rw [emitCandidate_full hfull] at ht
    cases ht
    exact Latch.latched_ne (by decide)
  · rw [emitCandidate_fits hfit] at ht
    cases ht
    exact Latch.ne_latched hfault

/-! ### `ABR.ENC1` -/

theorem exec_abrEnc1 {s : State} (hlen : s.operands.ilen.toNat ≤ s.build.ibufCap.toNat) :
    exec .abrEnc1 s = (abrEnc1Body s.restartOutput).outcome := congrArg Run.outcome (withInput_of_le hlen _)

/-- When `ABR.ENC1` raises `InvalidDimensions` (43_abr.md R226). -/
def State.BadDimensions1 (s : State) : Prop :=
  s.operands.width = 0 ∨ s.operands.ilen = 0 ∨ s.operands.ilen.toNat % s.operands.width.toNat ≠ 0 ∨
    s.operands.bsize = 0

theorem abrEnc1Body_bad {s : State} (h : s.BadDimensions1) : abrEnc1Body s = .ended (s.raise .invalidDimensions 0) := by
  simp only [State.BadDimensions1, ← toNat_eq_zero_iff] at h
  exact if_pos h

theorem abrEnc1Body_sound {s : State} (h : ¬ s.BadDimensions1) :
    abrEnc1Body s = emitCandidate
      ⟨abrCand s.input s.operands.width.toNat (s.operands.ilen.toNat / s.operands.width.toNat) s.operands.bsize.toNat,
        s.operands.bsize.toNat⟩ (s.operands.ilen.toNat / s.operands.width.toNat) s := by
  simp only [State.BadDimensions1, ← toNat_eq_zero_iff] at h
  exact if_neg h

theorem div_toNat_lt (a b : Word) : a.toNat / b.toNat < 2 ^ 64 := (Nat.div_le_self _ _).trans_lt a.isLt

/-- Settles O42: with sound dimensions the command emits the candidate of the block size in `BSIZE`. -/
theorem abrEnc1WritesCandidate : Obligations.AbrEnc1WritesCandidate := by
  rintro s y hlen hwidth hilen hmod hbsize rfl
  have hsound : ¬ s.restartOutput.BadDimensions1 := by
    rintro (h | h | h | h)
    · exact hwidth h
    · exact hilen h
    · exact h hmod
    · exact hbsize h
  rw [exec_abrEnc1 hlen, abrEnc1Body_sound hsound]
  constructor
  · intro hfit
    obtain ⟨t, ht, hout, hselbs, houth, hframe, hfree⟩ :=
      emitCandidate_leaves (c := ⟨_, s.operands.bsize.toNat⟩) hfit s.operands.bsize.isLt
        (div_toNat_lt s.operands.ilen s.operands.width)
    rw [BitVec.toNat_inj.1 hselbs] at hframe
    exact ⟨t, ht, hout, houth, hframe, hfree⟩
  · intro hfull
    exact congrArg Run.outcome (emitCandidate_full (c := ⟨_, s.operands.bsize.toNat⟩) hfull _)

/-! ### The search of `ABR.ENC` -/

/-- Candidate `j` is the first smallest of those whose numbers satisfy `P` (43_abr.md R216, R217). -/
def FirstSmallest (c : Nat → Candidate) (P : Nat → Prop) (j : Nat) : Prop :=
  P j ∧ ∀ i, P i → (c j).out.length ≤ (c i).out.length ∧ (i < j → (c j).out.length < (c i).out.length)

/-- Candidate number `j` where `m` is the first block size (43_abr.md R216). -/
def candidateAt (x : List Byte) (W H m j : Nat) : Candidate := ⟨abrCand x W H (m * 2 ^ j), m * 2 ^ j⟩

/-- Of the first `n` candidates the search tries those whose block size exceeds no dimension (43_abr.md R216). -/
def Tried (W H m n i : Nat) : Prop := i < n ∧ m * 2 ^ i ≤ W ∧ m * 2 ^ i ≤ H

/-- A block size that exceeds a dimension ends the search: so do all larger ones. -/
theorem tried_stop {W H m n : Nat} (h : W < m * 2 ^ n ∨ H < m * 2 ^ n) (k i : Nat) :
    Tried W H m (n + k) i ↔ Tried W H m n i := by
  refine ⟨fun ⟨_, hW, hH⟩ => ⟨Nat.lt_of_not_le fun hle => ?_, hW, hH⟩, fun ⟨hi, hdim⟩ => ⟨by omega, hdim⟩⟩
  have := Nat.mul_le_mul_left m (Nat.pow_le_pow_right Nat.two_pos hle)
  omega

/-- The next candidate replaces the best one only where it is strictly smaller (43_abr.md R217). -/
theorem FirstSmallest.better {x : List Byte} {W H m n j : Nat}
    (h : FirstSmallest (candidateAt x W H m) (Tried W H m n) j) (hn : m * 2 ^ n ≤ W ∧ m * 2 ^ n ≤ H) :
    ∃ j', better (some (candidateAt x W H m j)) (candidateAt x W H m n) = candidateAt x W H m j' ∧
      FirstSmallest (candidateAt x W H m) (Tried W H m (n + 1)) j' := by
  obtain ⟨⟨hj, hdim⟩, hmin⟩ := h
  have hcases : ∀ i, Tried W H m (n + 1) i → i = n ∨ Tried W H m n i := fun i ⟨hi, hd⟩ =>
    (Nat.lt_succ_iff_lt_or_eq.1 hi).symm.imp_right fun hi => ⟨hi, hd⟩
  rw [Machine.better]
  split
  · next hlt =>
    refine ⟨n, rfl, ⟨Nat.lt_succ_self n, hn⟩, fun i hi => ?_⟩
    rcases hcases i hi with rfl | hi
    · exact ⟨le_rfl, fun h => absurd h (lt_irrefl _)⟩
    · have hbest := hlt.trans_le (hmin i hi).1
      exact ⟨hbest.le, fun _ => hbest⟩
  · next hge =>
    refine ⟨j, rfl, ⟨by omega, hdim⟩, fun i hi => ?_⟩
    rcases hcases i hi with rfl | hi
    · exact ⟨Nat.le_of_not_lt hge, fun h => by omega⟩
    · exact hmin i hi

/-- The loop keeps the first smallest of the candidates tried (43_abr.md R216). -/
theorem abrSearchFrom_firstSmallest {x : List Byte} {W H m : Nat} (k : Nat) {n j : Nat}
    (h : FirstSmallest (candidateAt x W H m) (Tried W H m n) j) :
    ∃ j', abrSearchFrom x W H k (m * 2 ^ n) (some (candidateAt x W H m j)) = some (candidateAt x W H m j') ∧
      FirstSmallest (candidateAt x W H m) (Tried W H m (n + k)) j' := by
  induction k generalizing n j with
  | zero => exact ⟨j, rfl, h⟩
  | succ k ih =>
    rw [abrSearchFrom]
    split
    · next hstop =>
      exact ⟨j, rfl, (tried_stop hstop _ j).2 h.1, fun i hi => h.2 i ((tried_stop hstop _ i).1 hi)⟩
    · next hgo =>
      obtain ⟨j', hbest, h'⟩ := h.better (by omega)
      have hrest := ih h'
      rwa [← hbest, Nat.add_right_comm, Nat.pow_succ', Nat.mul_left_comm] at hrest

/-- The search finds the first smallest candidate: the one with the smallest block size is always tried
(43_abr.md R216). -/
theorem abrSearch_firstSmallest {b : Build} (x : List Byte) {W H : Nat} (hW : b.bsMin ≤ W) (hH : b.bsMin ≤ H) :
    ∃ j, abrSearch b x W H = some (candidateAt x W H b.bsMin j) ∧
      FirstSmallest (candidateAt x W H b.bsMin) (Tried W H b.bsMin (b.bsMaxDoublings + 1)) j := by
  have hone : b.bsMin * 2 ^ 0 = b.bsMin := Nat.mul_one _
  have hfirst : FirstSmallest (candidateAt x W H b.bsMin) (Tried W H b.bsMin 1) 0 :=
    ⟨⟨Nat.zero_lt_one, by omega, by omega⟩, fun i ⟨hi, _⟩ => by
      rw [Nat.lt_one_iff.1 hi]
      exact ⟨le_rfl, fun h => absurd h (lt_irrefl _)⟩⟩
  have hrest := abrSearchFrom_firstSmallest b.bsMaxDoublings hfirst
  rw [Nat.add_comm 1, Nat.pow_one, Nat.mul_comm, candidateAt, hone] at hrest
  rw [abrSearch, abrSearchFrom, if_neg (by omega)]
  exact hrest

/-! ### `ABR.ENC` -/

theorem exec_abrEnc {s : State} (hlen : s.operands.ilen.toNat ≤ s.build.ibufCap.toNat) :
    exec .abrEnc s = (abrEncBody s.restartOutput).outcome := congrArg Run.outcome (withInput_of_le hlen _)

/-- When `ABR.ENC` raises `InvalidDimensions` (43_abr.md R226). -/
def State.BadDimensions (s : State) : Prop :=
  s.operands.width = 0 ∨ s.operands.ilen.toNat % s.operands.width.toNat ≠ 0 ∨
    s.operands.width.toNat < s.build.bsMin ∨ s.operands.ilen.toNat / s.operands.width.toNat < s.build.bsMin

theorem abrEncBody_bad {s : State} (h : s.BadDimensions) : abrEncBody s = .ended (s.raise .invalidDimensions 0) := by
  rw [State.BadDimensions, ← toNat_eq_zero_iff, ← or_assoc] at h
  unfold abrEncBody
  dsimp only
  split
  · rfl
  · next hmod => rw [if_pos (h.resolve_left hmod)]

theorem abrEncBody_sound {s : State} (h : ¬ s.BadDimensions) {W H : Nat} (hW : s.operands.width.toNat = W)
    (hH : s.operands.ilen.toNat / W = H) :
    ∃ j, abrEncBody s = emitCandidate (candidateAt s.input W H s.build.bsMin j) H s ∧
      FirstSmallest (candidateAt s.input W H s.build.bsMin)
        (Tried W H s.build.bsMin (s.build.bsMaxDoublings + 1)) j := by
  subst hW hH
  rw [State.BadDimensions, ← toNat_eq_zero_iff, ← or_assoc, not_or] at h
  obtain ⟨hmod, hmin⟩ := h
  obtain ⟨j, hsearch, hj⟩ := abrSearch_firstSmallest (b := s.build) s.input (W := s.operands.width.toNat)
    (H := s.operands.ilen.toNat / s.operands.width.toNat) (by omega) (by omega)
  refine ⟨j, ?_, hj⟩
  simp only [abrEncBody, if_neg hmod, if_neg hmin, hsearch]
  rfl

/-- Settles O43: the search finds the first smallest candidate, and the command emits it; where some candidate fits, so
does the smallest one. -/
theorem abrEncSelectsSmallest : Obligations.AbrEncSelectsSmallest := by
  intro s W H candidate ⟨hmin, _⟩ hlen hwidth hilen hW hH hcand
  have hdiv : s.operands.ilen.toNat / W = H := by rw [hilen, Nat.mul_div_cancel_left H (by omega)]
  have hsound : ¬ s.restartOutput.BadDimensions := by
    simp only [State.BadDimensions, State.restartOutput_operands, State.restartOutput_build, ← toNat_eq_zero_iff,
      hwidth, hilen, Nat.mul_mod_right, Nat.mul_div_cancel_left H (by omega : 0 < W)]
    omega
  have htried : ∀ i, candidate i ↔ Tried W H s.build.bsMin (s.build.bsMaxDoublings + 1) i := fun i =>
    (hcand i).trans (and_congr_left' Nat.lt_succ_iff.symm)
  obtain ⟨j, hbody, hj, hsmallest⟩ := abrEncBody_sound hsound hwidth hdiv
  rw [exec_abrEnc hlen, hbody]
  constructor
  · intro k hk hfit
    have hbs : s.build.bsMin * 2 ^ j < 2 ^ 64 := hj.2.1.trans_lt (hwidth ▸ s.operands.width.isLt)
    have hHlt : H < 2 ^ 64 := hdiv ▸ (Nat.div_le_self _ _).trans_lt s.operands.ilen.isLt
    obtain ⟨t, ht, hout, hselbs, houth, hframe⟩ := emitCandidate_leaves
      (((hsmallest k ((htried k).1 hk)).1).trans hfit) hbs hHlt
    exact ⟨t, j, ht, (htried j).2 hj, hout, hselbs, houth, fun i hi => hsmallest i ((htried i).1 hi), hframe⟩
  · intro hfull
    exact congrArg Run.outcome (emitCandidate_full (hfull j ((htried j).2 hj)) H)

/-- Settles O46: bad dimensions are found before anything is emitted, and a candidate raises `Capacity(0)` only. -/
theorem badDimensionsRaise : Obligations.BadDimensionsRaise := by
  intro s badEnc badEnc1 hlen hbad hbad1
  rw [exec_abrEnc hlen, exec_abrEnc1 hlen]
  refine ⟨fun h => ?_, fun h => ?_, fun hfault t => ⟨fun h => ?_, fun h => ?_⟩⟩
  · exact congrArg Run.outcome (abrEncBody_bad (s := s.restartOutput) (hbad.1 h))
  · exact congrArg Run.outcome (abrEnc1Body_bad (s := s.restartOutput) (hbad1.1 h))
  · obtain ⟨j, hbody, -⟩ := abrEncBody_sound (s := s.restartOutput) (mt hbad.2 h) rfl rfl
    rw [hbody]
    exact emitCandidate_latch_ne hfault
  · rw [abrEnc1Body_sound (s := s.restartOutput) (mt hbad1.2 h)]
    exact emitCandidate_latch_ne hfault

end Sys2Proof.Machine

/-! ## The blocks of a matrix do not overlap -/

namespace Sys2Proof.Machine

theorem Tile.index_div_mod (b : Tile) {W c : Nat} (hc : b.x0 + c < W) (r : Nat) :
    b.index W r c / W = b.y0 + r ∧ b.index W r c % W = b.x0 + c := by
  rw [Tile.index, Nat.add_assoc, Nat.add_comm]
  exact ⟨by rw [Nat.add_mul_div_right _ _ (by omega), Nat.div_eq_of_lt hc, Nat.zero_add],
    by rw [Nat.add_mul_mod_self_right, Nat.mod_eq_of_lt hc]⟩

theorem tileOf_column_lt {W H bs k c : Nat} (hc : c < (tileOf W H bs k).w) : (tileOf W H bs k).x0 + c < W := by
  simp only [tileOf] at hc ⊢
  omega

/-- An index lies in one block only: its row and column, divided by the block size, are the block's (43_abr.md R211). -/
theorem tileOf_number {W H bs k i : Nat} {dir : Bool} (hi : i ∈ (tileOf W H bs k).indices W dir) :
    i % W / bs + i / W / bs * cdiv W bs = k := by
  obtain ⟨r, c, hr, hc, rfl⟩ := (Tile.mem_indices _ _ _ _).1 hi
  obtain ⟨hdiv, hmod⟩ := (tileOf W H bs k).index_div_mod (tileOf_column_lt hc) r
  rw [hdiv, hmod]
  simp only [tileOf] at hr hc ⊢
  rw [Nat.add_comm (_ * bs) c, Nat.add_comm (_ * bs) r, Nat.add_mul_div_right _ _ (by omega),
    Nat.add_mul_div_right _ _ (by omega), Nat.div_eq_of_lt (by omega), Nat.div_eq_of_lt (by omega), Nat.zero_add,
    Nat.zero_add, Nat.mod_add_div']

/-- Pairs with different images, listed one coordinate after the other. -/
theorem nodup_flatMap_range {m n : Nat} {f : Nat → Nat → Nat}
    (hf : ∀ a a' b b', a < m → a' < m → b < n → b' < n → f a b = f a' b' → a = a' ∧ b = b') :
    ((List.range m).flatMap fun a => (List.range n).map (f a)).Nodup := by
  refine List.nodup_flatMap.2 ⟨fun a ha => ?_, List.nodup_range.imp_of_mem fun {a a'} ha ha' hne => ?_⟩
  · exact List.nodup_range.map_on fun b hb b' hb' heq => (hf a a b b' (List.mem_range.1 ha) (List.mem_range.1 ha)
      (List.mem_range.1 hb) (List.mem_range.1 hb') heq).2
  · intro i hi hi'
    obtain ⟨b, hb, rfl⟩ := List.mem_map.1 hi
    obtain ⟨b', hb', heq⟩ := List.mem_map.1 hi'
    exact hne (hf a a' b b' (List.mem_range.1 ha) (List.mem_range.1 ha') (List.mem_range.1 hb)
      (List.mem_range.1 hb') heq.symm).1

theorem tileOf_index_inj {W H bs k r r' c c' : Nat} (hc : c < (tileOf W H bs k).w) (hc' : c' < (tileOf W H bs k).w)
    (heq : (tileOf W H bs k).index W r c = (tileOf W H bs k).index W r' c') : r = r' ∧ c = c' := by
  obtain ⟨hdiv, hmod⟩ := (tileOf W H bs k).index_div_mod (tileOf_column_lt hc) r
  obtain ⟨hdiv', hmod'⟩ := (tileOf W H bs k).index_div_mod (tileOf_column_lt hc') r'
  rw [heq] at hdiv hmod
  omega

theorem tileOf_nodup (W H bs k : Nat) (dir : Bool) : ((tileOf W H bs k).indices W dir).Nodup := by
  cases dir
  · exact nodup_flatMap_range fun _ _ _ _ hc hc' _ _ heq => (tileOf_index_inj hc hc' heq).symm
  · exact nodup_flatMap_range fun _ _ _ _ _ _ hc hc' heq => tileOf_index_inj hc hc' heq

theorem tiles_nodup (W H bs n : Nat) (dir : Nat → Bool) :
    ((List.range n).flatMap fun k => (tileOf W H bs k).indices W (dir k)).Nodup := by
  refine List.nodup_flatMap.2 ⟨fun k _ => tileOf_nodup W H bs k (dir k), List.nodup_range.imp fun hne i hi hi' => ?_⟩
  exact hne ((tileOf_number hi).symm.trans (tileOf_number hi'))

/-- Settles O45: the blocks cover the matrix, and no index occurs twice. -/
theorem tilesPartitionMatrix : Obligations.TilesPartitionMatrix := by
  intro W H bs dir _ _ hbs
  refine (List.perm_ext_iff_of_nodup (tiles_nodup W H bs _ dir) List.nodup_range).2 fun i => ?_
  rw [List.mem_range, List.mem_flatMap]
  constructor
  · rintro ⟨k, -, hi⟩
    exact tileOf_index_lt hi
  · intro hi
    obtain ⟨k, hk, hmem⟩ := tileOf_covers (Nat.ne_of_gt hbs) hi dir
    exact ⟨k, List.mem_range.2 hk, hmem⟩

end Sys2Proof.Machine

/-! ## The header of a stream -/

namespace Sys2Proof.Machine

/-- The header fields that the input starts with, sound or not (43_abr.md R219). -/
def State.header (s : State) : Header :=
  ⟨unLE64 (s.memRead 0 8), unLE64 (s.memRead 8 8), unLE64 (s.memRead 16 8)⟩

/-- When `ABR.DEC` raises `MalformedHeader` (43_abr.md R219). -/
def State.BadHeader (s : State) : Prop :=
  s.operands.ilen.toNat < 24 ∨ s.header.W = 0 ∨ s.header.H = 0 ∨ s.header.bs = 0 ∨
    2 ^ 64 ≤ s.header.W * s.header.H ∨ s.operands.ilen.toNat - 24 < s.header.dirBytes

theorem abrParse_eq (s : State) : abrParse s =
    if s.operands.ilen.toNat < 24 then none
    else if s.header.W = 0 ∨ s.header.H = 0 ∨ s.header.bs = 0 then none
    else if 2 ^ 64 ≤ s.header.W * s.header.H then none
    else if s.operands.ilen.toNat - 24 < s.header.dirBytes then none
    else some s.header := rfl

theorem abrParse_bad {s : State} (h : s.BadHeader) : abrParse s = none := by
  rw [abrParse_eq]
  split
  · rfl
  · next hshort =>
    split
    · rfl
    · next hzero =>
      split
      · rfl
      · next hlarge =>
        obtain h | hW | hH | hbs | h | h := h
        · exact absurd h hshort
        · exact absurd (.inl hW) hzero
        · exact absurd (.inr (.inl hH)) hzero
        · exact absurd (.inr (.inr hbs)) hzero
        · exact absurd h hlarge
        · exact if_pos h

theorem abrParse_sound {s : State} (h : ¬ s.BadHeader) : abrParse s = some s.header := by
  simp only [State.BadHeader, not_or] at h
  obtain ⟨hshort, hW, hH, hbs, hlarge, hdirs⟩ := h
  rw [abrParse_eq, if_neg hshort, if_neg (not_or.2 ⟨hW, not_or.2 ⟨hH, hbs⟩⟩), if_neg hlarge, if_neg hdirs]

theorem exec_abrDec {s : State} (hlen : s.operands.ilen.toNat ≤ s.build.ibufCap.toNat) :
    exec .abrDec s = (abrDecBody s.restartOutput).outcome := congrArg Run.outcome (withInput_of_le hlen _)

theorem abrDecBody_sound {s : State} (h : ¬ s.BadHeader) : abrDecBody s =
    if s.build.obufCap.toNat < s.header.W * s.header.H then .ended (s.raise .capacity 0)
    else (abrBlocks s.header s.header.blocks 0 (abrFixedHeader + s.header.dirBytes) s).andThen fun t =>
      .going (t.setReverse s.header) := by
  rw [abrDecBody, abrParse_sound h]

/-- Past the header `ABR.DEC` raises other kinds of faults. -/
theorem abrDecBody_latch_ne {s : State} (h : ¬ s.BadHeader) (hfault : s.latch.fault = false) :
    (abrDecBody s).state.latch ≠ Latch.latched .malformedHeader 0 := by
  rw [abrDecBody_sound h]
  split
  · exact Latch.latched_ne (k := .capacity) (by decide)
  · rcases abrBlocks_cases s.header s.header.blocks 0 (abrFixedHeader + s.header.dirBytes) s with
      ⟨o, he⟩ | ⟨kind, info, he, hkind⟩
    · rw [he, Run.andThen_going, Run.state_going, State.setReverse_latch]
      exact Latch.ne_latched hfault
    · rw [he, Run.andThen_ended, Run.state_ended, State.raise_latch]
      exact Latch.latched_ne (k := kind) (by rcases hkind with rfl | rfl | rfl <;> decide)

/-- Settles O47: the header is checked before any block, and no block raises `MalformedHeader`. -/
theorem badHeaderRaises : Obligations.BadHeaderRaises := by
  rintro s W H bs bad hlen rfl rfl rfl hbad
  have hbad : bad ↔ s.restartOutput.BadHeader := hbad
  rw [exec_abrDec hlen]
  refine ⟨fun h => ?_, fun h hfault t ht => ?_⟩
  · rw [abrDecBody, abrParse_bad (hbad.1 h)]
    rfl
  · rw [← Host.Outcome.next.inj ht]
    exact abrDecBody_latch_ne (mt hbad.2 h) hfault

/-! ## The blocks of a stream -/

/-! ### Reading the input -/

@[simp] theorem State.length_memRead (s : State) (i n : Nat) : (s.memRead i n).length = n := by simp [State.memRead]

theorem State.memRead_add (s : State) (i m n : Nat) : s.memRead i (m + n) = s.memRead i m ++ s.memRead (i + m) n := by
  simp [State.memRead, List.range_add, Nat.add_assoc]

/-- The parts of what is read, each at its place. -/
theorem State.memRead_append {s : State} {i n : Nat} {x y : List Byte} (h : s.memRead i n = x ++ y) :
    s.memRead i x.length = x ∧ s.memRead (i + x.length) y.length = y := by
  have hlen := congrArg List.length h
  rw [State.length_memRead, List.length_append] at hlen
  rw [hlen, State.memRead_add] at h
  exact List.append_inj h (State.length_memRead ..)

theorem State.take_memRead (s : State) (i : Nat) {m n : Nat} (h : m ≤ n) : (s.memRead i n).take m = s.memRead i m := by
  obtain ⟨k, rfl⟩ := Nat.exists_eq_add_of_le h
  rw [State.memRead_add, List.take_left' (State.length_memRead ..)]

/-! ### Blocks that cannot be decoded -/

/-- Input that decodes to less than the block needs is too short for it (42_rle.md R196). -/
theorem rleBlockLoop_truncated {s : State} {left pos need : Nat} {st : RunState}
    (h : (rleInvFrom st (s.memRead pos left)).length < need) :
    rleBlockLoop s left pos need st = .error .truncated := by
  induction left generalizing pos need st with
  | zero =>
    unfold rleBlockLoop
    rw [if_neg (Nat.ne_of_gt (Nat.zero_lt_of_lt h))]
  | succ left ih =>
    rw [State.memRead_succ, rleInvFrom_cons, List.length_append] at h
    unfold rleBlockLoop
    dsimp only
    rw [if_neg (by omega), if_neg (by omega), ih (by omega)]

/-- Where the bytes decoded pass what the block needs, the block is overfilled (42_rle.md R196). -/
theorem rleBlockLoop_overrun {s : State} {m left pos need : Nat} {st : RunState} (hm : m ≤ left)
    (hover : need < (rleInvFrom st (s.memRead pos m)).length)
    (hbelow : ∀ j, j < m → (rleInvFrom st (s.memRead pos j)).length < need) :
    rleBlockLoop s left pos need st = .error .overrun := by
  induction m generalizing left pos need st with
  | zero => exact absurd hover (Nat.not_lt_zero _)
  | succ m ih =>
    obtain ⟨left, rfl⟩ := Nat.exists_eq_add_of_le' (Nat.le_of_add_left_le hm)
    have hpos := Nat.zero_lt_of_lt (hbelow 0 (Nat.zero_lt_succ m))
    rw [State.memRead_succ, rleInvFrom_cons, List.length_append] at hover
    unfold rleBlockLoop
    dsimp only
    rw [if_neg (Nat.ne_of_gt hpos)]
    split
    · rfl
    · next hle =>
      rw [ih (Nat.le_of_succ_le_succ hm) (by omega) fun j hj => ?_]
      have hj := hbelow (j + 1) (Nat.succ_lt_succ hj)
      rw [State.memRead_succ, rleInvFrom_cons, List.length_append] at hj
      omega

/-! ### Scattered writes -/

section WriteAt

variable (xs : List (Nat × Byte)) (s : State)

theorem writeAt_eq : writeAt xs s = { s with obuf := (writeAt xs s).obuf } := by
  obtain ⟨o, ho⟩ := writeAt_frame xs s
  rw [ho]

@[simp] theorem writeAt_operands : (writeAt xs s).operands = s.operands := by rw [writeAt_eq]

@[simp] theorem writeAt_memRead (i n : Nat) : (writeAt xs s).memRead i n = s.memRead i n := by rw [writeAt_eq]; rfl

@[simp] theorem writeAt_dirOf (k : Nat) : dirOf (writeAt xs s) k = dirOf s k := by rw [writeAt_eq]; rfl

@[simp] theorem writeAt_raise (k : ErrKind) (info : Word) : (writeAt xs s).raise k info = s.raise k info := by
  rw [writeAt_eq]; rfl

theorem writeAt_append (ys : List (Nat × Byte)) : writeAt (xs ++ ys) s = writeAt ys (writeAt xs s) := by
  induction xs generalizing s with
  | nil => rfl
  | cons x xs ih => exact ih (s.writeObuf x.1 x.2)

end WriteAt

/-- Among writes to different indices each leaves its byte. -/
theorem get_writeAt_of_mem {xs : List (Nat × Byte)} (hnodup : (xs.map Prod.fst).Nodup) {i : Nat} {v : Byte}
    (h : (i, v) ∈ xs) (s : State) : Table.get (writeAt xs s).obuf i = some v := by
  induction xs generalizing s with
  | nil => cases h
  | cons x xs ih =>
    rw [List.map_cons, List.nodup_cons] at hnodup
    rcases List.mem_cons.1 h with rfl | h
    · rw [writeAt, get_writeAt_other _ _ _ hnodup.1]
      exact Table.get_set_same ..
    · exact ih hnodup.2 h _

/-- What the block loop writes for the data `enc` of the blocks from `k` on, each in its recorded direction
(43_abr.md R220, R221). -/
def blockWrites (s : State) (h : Header) (k : Nat) (enc : List (List Byte)) : List (Nat × Byte) :=
  (enc.zipIdx k).flatMap fun x => ((tileOf h.W h.H h.bs x.2).indices h.W (dirOf s x.2)).zip (rleInv x.1)

theorem blockWrites_cons (s : State) (h : Header) (k : Nat) (d : List Byte) (enc : List (List Byte)) :
    blockWrites s h k (d :: enc) =
      ((tileOf h.W h.H h.bs k).indices h.W (dirOf s k)).zip (rleInv d) ++ blockWrites s h (k + 1) enc := rfl

@[simp] theorem blockWrites_writeAt (xs : List (Nat × Byte)) (s : State) (h : Header) (k : Nat)
    (enc : List (List Byte)) : blockWrites (writeAt xs s) h k enc = blockWrites s h k enc := by
  simp only [blockWrites, writeAt_dirOf]

/-! ### The block loop -/

/-- The block loop decodes the data that fill the blocks from `k` on, and goes on after them. -/
theorem abrBlocks_filled {h : Header} {enc : List (List Byte)} {k pos : Nat} {s : State}
    (hfills : ∀ j d, enc[j]? = some d → FillsExactly d (tileOf h.W h.H h.bs (k + j)).area)
    (hread : s.memRead pos enc.flatten.length = enc.flatten)
    (hend : pos + enc.flatten.length ≤ s.operands.ilen.toNat) (m : Nat) :
    abrBlocks h (enc.length + m) k pos s =
      abrBlocks h m (k + enc.length) (pos + enc.flatten.length) (writeAt (blockWrites s h k enc) s) := by
  induction enc generalizing k pos s with
  | nil =>
    rw [List.length_nil, Nat.zero_add]
    rfl
  | cons d enc ih =>
    rw [List.flatten_cons] at hread
    obtain ⟨hd, hrest⟩ := State.memRead_append hread
    simp only [List.flatten_cons, List.length_append] at hend
    have hblock := rleBlock_of_fills (s := s) (hfills 0 d rfl) (by omega) hd
    have hloop := ih (k := k + 1) (pos := pos + d.length)
      (s := scatter (rleInv d) (dirOf s k) (tileOf h.W h.H h.bs k) h.W s)
      (fun j d' hj => by rw [Nat.add_assoc, Nat.add_comm 1]; exact hfills (j + 1) d' hj)
      (by rw [scatter, writeAt_memRead]; exact hrest) (by rw [scatter, writeAt_operands]; omega)
    rw [List.length_cons, Nat.add_right_comm, abrBlocks]
    simp only [Nat.add_zero, Tile.area] at hblock
    simp only [hblock, hloop]
    rw [scatter, blockWrites_writeAt, ← writeAt_append, blockWrites_cons, List.flatten_cons, List.length_append]
    simp only [Nat.add_assoc, Nat.add_comm 1]

theorem abrBlocks_error {h : Header} {m k pos : Nat} {s : State} {e : BlockError}
    (hblock : rleBlock s pos (tileOf h.W h.H h.bs k).area = .error e) :
    abrBlocks h (m + 1) k pos s = .ended (s.raiseBlock e k) := by
  rw [Tile.area] at hblock
  simp only [abrBlocks, hblock]

theorem abrBlocks_trailing {h : Header} {k pos : Nat} {s : State} (hpos : pos < s.operands.ilen.toNat) :
    abrBlocks h 0 k pos s = .ended (s.raise .trailingData (BitVec.ofNat 64 pos)) := by
  rw [abrBlocks, if_pos hpos]

theorem abrBlocks_done {h : Header} {k pos : Nat} {s : State} (hpos : s.operands.ilen.toNat ≤ pos) :
    abrBlocks h 0 k pos s = .going s := by
  rw [abrBlocks, if_neg (Nat.not_lt.2 hpos)]

end Sys2Proof.Machine

/-! ## What `ABR.DEC` does with a stream -/

namespace Sys2Proof.Machine

theorem unLE64_lt (b : List Byte) : unLE64 b < 256 ^ b.length := by
  induction b with
  | nil => exact Nat.one_pos
  | cons v b ih =>
    have hv : v.toNat < 256 := v.isLt
    have hcons : unLE64 (v :: b) = v.toNat + 256 * unLE64 b := rfl
    rw [hcons, List.length_cons, Nat.pow_succ']
    omega

theorem unLE64_memRead_lt (s : State) (i : Nat) : unLE64 (s.memRead i 8) < 2 ^ 64 :=
  (unLE64_lt (s.memRead i 8)).trans_eq (by rw [State.length_memRead]; rfl)

theorem State.header_lt (s : State) : s.header.W < 2 ^ 64 ∧ s.header.H < 2 ^ 64 ∧ s.header.bs < 2 ^ 64 :=
  ⟨unLE64_memRead_lt s 0, unLE64_memRead_lt s 8, unLE64_memRead_lt s 16⟩

@[simp] theorem State.restartOutput_header (s : State) : s.restartOutput.header = s.header := rfl

/-- Index of the first byte of block data (43_abr.md R220). -/
def State.dataStart (s : State) : Nat := 24 + s.header.dirBytes

/-- After a sound header the stream is `enc`, each of which fills its block, and then `rest`; input and matrix fit their
buffers. -/
structure State.Stream (s : State) (enc : List (List Byte)) (rest : List Byte) : Prop where
  inputFits  : s.operands.ilen.toNat ≤ s.build.ibufCap.toNat
  sound      : ¬ s.BadHeader
  matrixFits : s.header.W * s.header.H ≤ s.build.obufCap.toNat
  read       : s.memRead s.dataStart (s.operands.ilen.toNat - s.dataStart) = enc.flatten ++ rest
  fills      : ∀ j d, enc[j]? = some d → FillsExactly d (tileOf s.header.W s.header.H s.header.bs j).area

/-- The state once the blocks of `enc` are decoded. -/
def State.decoded (s : State) (enc : List (List Byte)) : State :=
  writeAt (blockWrites s s.header 0 enc) s.restartOutput

section Stream

variable {s : State} {enc : List (List Byte)} {rest : List Byte} (h : s.Stream enc rest)
include h

theorem State.Stream.length_eq : s.operands.ilen.toNat = s.dataStart + enc.flatten.length + rest.length := by
  have hlen := congrArg List.length h.read
  have hsound := h.sound
  simp only [State.BadHeader, not_or] at hsound
  obtain ⟨hshort, -, -, -, -, hdirs⟩ := hsound
  rw [State.length_memRead, List.length_append, State.dataStart] at hlen
  rw [State.dataStart]
  omega

theorem State.Stream.read_rest : s.memRead (s.dataStart + enc.flatten.length) rest.length = rest :=
  (State.memRead_append h.read).2

/-- The command comes as far as the blocks of `enc`. -/
theorem State.Stream.exec {m : Nat} (hm : s.header.blocks = enc.length + m) : exec .abrDec s =
    ((abrBlocks s.header m enc.length (s.dataStart + enc.flatten.length) (s.decoded enc)).andThen fun t =>
      .going (t.setReverse s.header)).outcome := by
  have hblocks := abrBlocks_filled (h := s.header) (enc := enc) (k := 0) (pos := s.dataStart) (s := s.restartOutput)
    (fun j d hd => by rw [Nat.zero_add]; exact h.fills j d hd) (State.memRead_append h.read).1
    (by rw [State.restartOutput_operands, h.length_eq]; omega) m
  rw [Nat.zero_add, ← hm] at hblocks
  rw [exec_abrDec h.inputFits, abrDecBody_sound (s := s.restartOutput) h.sound, State.restartOutput_header,
    State.restartOutput_build, if_neg (Nat.not_lt.2 h.matrixFits)]
  exact congrArg (fun r => (Run.andThen r _).outcome) hblocks

theorem State.Stream.exec_raises {m : Nat} (hm : s.header.blocks = enc.length + m) {k : ErrKind} {info : Word}
    (hraise : abrBlocks s.header m enc.length (s.dataStart + enc.flatten.length) (s.decoded enc) =
      .ended ((s.decoded enc).raise k info)) :
    Machine.exec .abrDec s = .next { s with latch := Latch.latched k info, packer := ⟨0, 0, 0⟩, obuf := [] } := by
  rw [h.exec hm, hraise, Run.andThen_ended, State.decoded, writeAt_raise]
  rfl

theorem State.Stream.rleBlock_decoded (need : Nat) :
    rleBlock (s.decoded enc) (s.dataStart + enc.flatten.length) need =
      rleBlockLoop (s.decoded enc) rest.length (s.dataStart + enc.flatten.length) need RunState.start := by
  rw [rleBlock, State.decoded, writeAt_operands, State.restartOutput_operands, h.length_eq, Nat.add_sub_cancel_left]

theorem State.Stream.memRead_decoded :
    (s.decoded enc).memRead (s.dataStart + enc.flatten.length) rest.length = rest := by
  rw [State.decoded, writeAt_memRead]
  exact h.read_rest

theorem State.Stream.exec_truncated (hcount : enc.length < s.header.blocks)
    (hshort : (rleInv rest).length < (tileOf s.header.W s.header.H s.header.bs enc.length).area) :
    Machine.exec .abrDec s = .next { s with
      latch := Latch.latched .truncatedBlockData (BitVec.ofNat 64 enc.length), packer := ⟨0, 0, 0⟩, obuf := [] } := by
  obtain ⟨m, hm⟩ := Nat.exists_eq_add_of_le hcount
  refine h.exec_raises (m := m + 1) (by omega) (abrBlocks_error (e := .truncated) ?_)
  rw [h.rleBlock_decoded]
  exact rleBlockLoop_truncated (by rw [h.memRead_decoded]; exact hshort)

theorem State.Stream.exec_overrun (hcount : enc.length < s.header.blocks)
    (hover : Overfills rest (tileOf s.header.W s.header.H s.header.bs enc.length).area) :
    Machine.exec .abrDec s = .next { s with
      latch := Latch.latched .runOverrun (BitVec.ofNat 64 enc.length), packer := ⟨0, 0, 0⟩, obuf := [] } := by
  obtain ⟨m, hm⟩ := Nat.exists_eq_add_of_le hcount
  obtain ⟨n, hn, habove, hbelow⟩ := hover
  have htake : ∀ j, j ≤ rest.length →
      (s.decoded enc).memRead (s.dataStart + enc.flatten.length) j = rest.take j := fun j hj => by
    rw [← State.take_memRead _ _ hj, h.memRead_decoded]
  refine h.exec_raises (m := m + 1) (by omega) (abrBlocks_error (e := .overrun) ?_)
  rw [h.rleBlock_decoded]
  exact rleBlockLoop_overrun hn (by rw [htake n hn]; exact habove)
    fun j hj => by rw [htake j (by omega)]; exact hbelow j hj

theorem State.Stream.exec_trailing (hcount : enc.length = s.header.blocks) (hrest : rest ≠ []) :
    Machine.exec .abrDec s = .next { s with
      latch := Latch.latched .trailingData (BitVec.ofNat 64 (s.dataStart + enc.flatten.length))
      packer := ⟨0, 0, 0⟩, obuf := [] } := by
  have hpos := List.length_pos_iff.2 hrest
  refine h.exec_raises (m := 0) hcount.symm (abrBlocks_trailing ?_)
  rw [State.decoded, writeAt_operands, State.restartOutput_operands, h.length_eq]
  omega

/-! ### The matrix delivered -/

theorem State.Stream.length_rleInv {j : Nat} {d : List Byte} (hd : enc[j]? = some d) (dir : Bool) :
    ((tileOf s.header.W s.header.H s.header.bs j).indices s.header.W dir).length = (rleInv d).length := by
  rw [Tile.length_indices, (h.fills j d hd).1]
  rfl

/-- The writes of the blocks name the indices of the blocks, one block after the other. -/
theorem State.Stream.blockWrites_keys : (blockWrites s s.header 0 enc).map Prod.fst =
    (List.range enc.length).flatMap fun k =>
      (tileOf s.header.W s.header.H s.header.bs k).indices s.header.W (dirOf s k) := by
  rw [blockWrites, List.map_flatMap, List.range_eq_range', ← List.zipIdx_map_snd, List.flatMap_map]
  refine List.flatMap_congr fun x hx => ?_
  exact List.map_fst_zip (h.length_rleInv (List.mem_zipIdx_iff_getElem?.1 hx) _).le

theorem State.Stream.get_decoded {j : Nat} {d : List Byte} (hd : enc[j]? = some d) {x : Nat × Byte}
    (hx : x ∈ ((tileOf s.header.W s.header.H s.header.bs j).indices s.header.W (dirOf s j)).zip (rleInv d)) :
    Table.get (s.decoded enc).obuf x.1 = some x.2 := by
  refine get_writeAt_of_mem (by rw [h.blockWrites_keys]; exact tiles_nodup ..) ?_ _
  exact List.mem_flatMap.2 ⟨(d, j), List.mem_zipIdx_iff_getElem?.2 hd, hx⟩

theorem State.Stream.decoded_free {a : Nat} (ha : s.header.W * s.header.H ≤ a) :
    Table.get (s.decoded enc).obuf a = none := by
  rw [State.decoded, get_writeAt_other]
  · rfl
  · rw [h.blockWrites_keys, List.mem_flatMap]
    rintro ⟨k, -, hmem⟩
    exact absurd (tileOf_index_lt hmem) (Nat.not_lt.2 ha)

/-- What `ABR.DEC` delivers: each block's bytes at its indices, in the direction its bit records. -/
theorem State.Stream.exec_delivers (hcount : enc.length = s.header.blocks) (hrest : rest = []) :
    ∃ t, Machine.exec .abrDec s = .next t ∧ t.packer.olen.toNat = s.header.W * s.header.H ∧
      t.results.outw.toNat = s.header.W ∧ t.results.outh.toNat = s.header.H ∧ t.results.selbs.toNat = s.header.bs ∧
      (∀ j d, enc[j]? = some d →
        ((tileOf s.header.W s.header.H s.header.bs j).indices s.header.W (dirOf s j)).map t.readObuf = rleInv d) ∧
      t = { s with
        packer := ⟨t.packer.olen, 0, 0⟩, obuf := t.obuf
        results := { s.results with selbs := t.results.selbs, outw := t.results.outw, outh := t.results.outh } } ∧
      ∀ a, t.packer.olen.toNat ≤ a → Table.get t.obuf a = none := by
  have hdone : s.operands.ilen.toNat ≤ s.dataStart + enc.flatten.length := by
    rw [h.length_eq, hrest, List.length_nil, Nat.add_zero]
  have holen : ((s.decoded enc).setReverse s.header).packer.olen.toNat = s.header.W * s.header.H := by
    rw [State.setReverse_packer]
    exact toNat_ofNat_of_lt (h.matrixFits.trans_lt s.build.obufCap.isLt)
  obtain ⟨hW, hH, hbs⟩ := s.header_lt
  refine ⟨(s.decoded enc).setReverse s.header, ?_, holen, ?_, ?_, ?_, fun j d hd => ?_, ?_, fun a ha => ?_⟩
  · rw [h.exec (m := 0) hcount.symm, abrBlocks_done (by rw [State.decoded, writeAt_operands]; exact hdone)]
    rfl
  · rw [State.setReverse_results]
    exact toNat_ofNat_of_lt hW
  · rw [State.setReverse_results]
    exact toNat_ofNat_of_lt hH
  · rw [State.setReverse_results]
    exact toNat_ofNat_of_lt hbs
  · have hlen := h.length_rleInv hd (dirOf s j)
    rw [← List.map_fst_zip hlen.le, List.map_map]
    conv_rhs => rw [← List.map_snd_zip hlen.ge]
    refine List.map_inj_left.2 fun x hx => ?_
    have hlt := tileOf_index_lt (List.of_mem_zip hx).1
    rw [Function.comp_apply, State.readObuf, holen, if_pos hlt, State.setReverse_obuf, h.get_decoded hd hx]
    rfl
  · rw [State.decoded, writeAt_eq]
    rfl
  · rw [State.setReverse_obuf]
    exact h.decoded_free (holen.symm.le.trans ha)

end Stream

theorem State.not_badHeader {s : State} (hW : s.header.W ≠ 0) (hH : s.header.H ≠ 0) (hbs : s.header.bs ≠ 0)
    (hlarge : s.header.W * s.header.H < 2 ^ 64) (hstart : s.dataStart ≤ s.operands.ilen.toNat) : ¬ s.BadHeader := by
  rw [State.dataStart] at hstart
  rintro (h | h | h | h | h | h)
  · omega
  · exact hW h
  · exact hH h
  · exact hbs h
  · omega
  · omega

/-- Settles O48: the block loop decodes the blocks filled, and then meets what follows them. -/
theorem abrDecFollowsStream : Obligations.AbrDecFollowsStream := by
  intro s W H bs nb start hlen hW hH hbs hW0 hH0 hbs0 hlarge hnb hstart hstartLe
  obtain rfl : s.header.W = W := hW
  obtain rfl : s.header.H = H := hH
  obtain rfl : s.header.bs = bs := hbs
  obtain rfl : s.header.blocks = nb := hnb.symm
  obtain rfl : s.dataStart = start := hstart.symm
  have hsound := State.not_badHeader hW0 hH0 hbs0 hlarge hstartLe
  refine ⟨fun hfull => ?_, fun enc rest hfit _ hread hfills => ?_⟩
  · rw [exec_abrDec hlen, abrDecBody_sound (s := s.restartOutput) hsound, State.restartOutput_header,
      State.restartOutput_build, if_pos hfull]
    rfl
  · have h : s.Stream enc rest := ⟨hlen, hsound, hfit, hread, hfills⟩
    exact ⟨h.exec_truncated, h.exec_overrun, h.exec_trailing, h.exec_delivers⟩

end Sys2Proof.Machine

/-! ## `ABR.DEC` reads a candidate back -/

namespace Sys2Proof.Machine

/-! ### The header of a candidate -/

theorem unLE64_map_range (v n : Nat) :
    unLE64 ((List.range n).map fun i => BitVec.ofNat 8 (v / 256 ^ i)) = v % 256 ^ n := by
  induction n generalizing v with
  | zero => exact (Nat.mod_one v).symm
  | succ n ih =>
    have htail : ((List.range n).map Nat.succ).map (fun i => BitVec.ofNat 8 (v / 256 ^ i)) =
        (List.range n).map fun i => BitVec.ofNat 8 (v / 256 / 256 ^ i) := by
      rw [List.map_map]
      refine List.map_inj_left.2 fun i _ => ?_
      rw [Function.comp_apply, Nat.div_div_eq_div_mul, ← Nat.pow_succ']
    rw [List.range_succ_eq_map, List.map_cons, htail, Nat.pow_succ', Nat.mod_mul, ← ih (v / 256), Nat.pow_zero,
      Nat.div_one]
    rfl

theorem unLE64_le64 {v : Nat} (h : v < 2 ^ 64) : unLE64 (le64 v) = v :=
  (unLE64_map_range v 8).trans (Nat.mod_eq_of_lt h)

/-- Bit `n - 1 - i` of the number that `n` bits stand for is bit `i` of them. -/
theorem testBit_bitsValue (f : Nat → Bool) {n i : Nat} (hi : i < n) :
    (bitsValue ((List.range n).map f)).testBit (n - 1 - i) = f i := by
  induction n with
  | zero => exact absurd hi (Nat.not_lt_zero i)
  | succ n ih =>
    have hsplit : bitsValue ((List.range (n + 1)).map f) = 2 * bitsValue ((List.range n).map f) + (f n).toNat := by
      rw [bitsValue, List.range_succ, List.map_append, List.foldl_append]
      rfl
    have hb := (f n).toNat_lt
    rw [hsplit]
    rcases Nat.lt_succ_iff_lt_or_eq.1 hi with hi | rfl
    · rw [show n + 1 - 1 - i = (n - 1 - i) + 1 by omega, Nat.testBit_succ,
        show (2 * bitsValue ((List.range n).map f) + (f n).toNat) / 2 = bitsValue ((List.range n).map f) by omega]
      exact ih hi
    · rw [show i + 1 - 1 - i = 0 by omega, Nat.testBit_zero]
      cases f i <;> simp

/-- The direction bit of block `k` (43_abr.md R214). -/
theorem dirByte_getLsbD (dirs : List Bool) (k : Nat) :
    (dirByte dirs (k / 8)).getLsbD (7 - k % 8) = dirs.getD k false := by
  have hbit := testBit_bitsValue (fun i => dirs.getD (8 * (k / 8) + i) false) (Nat.mod_lt k (by decide : 8 > 0))
  rw [Nat.div_add_mod] at hbit
  rw [dirByte, BitVec.getLsbD_ofNat, decide_eq_true (by omega), Bool.true_and]
  exact hbit

/-! ### Its parts in the input -/

/-- The input is the candidate of `x`, a matrix of `W` columns and `H` rows, for the block size `bs`. -/
structure State.HoldsCandidate (s : State) (x : List Byte) (W H bs : Nat) : Prop where
  input      : s.input = abrCand x W H bs
  inputFits  : s.operands.ilen.toNat ≤ s.build.ibufCap.toNat
  matrixFits : W * H ≤ s.build.obufCap.toNat
  width      : 1 ≤ W
  height     : 1 ≤ H
  blockSize  : 1 ≤ bs ∧ bs < 2 ^ 64

/-- The direction bits of a candidate. -/
def directions (x : List Byte) (W H bs : Nat) : List Bool := (choices x W H bs).map Prod.fst

/-- The encoded blocks of a candidate. -/
def encodings (x : List Byte) (W H bs : Nat) : List (List Byte) := (choices x W H bs).map Prod.snd

theorem length_directions (x : List Byte) (W H bs : Nat) : (directions x W H bs).length = blockCount W H bs := by
  simp [directions, choices]

theorem length_encodings (x : List Byte) (W H bs : Nat) : (encodings x W H bs).length = blockCount W H bs := by
  simp [encodings, choices]

theorem choose_snd (x : List Byte) (W : Nat) (b : Tile) :
    (choose x W b).2 = rleFwd (b.extract x W (choose x W b).1) := by
  unfold choose
  dsimp only
  split <;> rfl

/-- A block is encoded in the direction of its bit (43_abr.md R213). -/
theorem encodings_getElem? (x : List Byte) {W H bs k : Nat} (hk : k < blockCount W H bs) :
    (encodings x W H bs)[k]? =
      some (rleFwd ((tileOf W H bs k).extract x W ((directions x W H bs).getD k false))) := by
  simp [encodings, directions, choices, hk, choose_snd]

theorem Tile.length_extract (b : Tile) (x : List Byte) (W : Nat) (dir : Bool) :
    (b.extract x W dir).length = b.area := by
  rw [Tile.extract, List.length_map, Tile.length_indices]
  rfl

section HoldsCandidate

variable {s : State} {x : List Byte} {W H bs : Nat} (h : s.HoldsCandidate x W H bs)
include h

theorem State.HoldsCandidate.dims_lt : W < 2 ^ 64 ∧ H < 2 ^ 64 := by
  have hfit := h.matrixFits.trans_lt s.build.obufCap.isLt
  exact ⟨(Nat.le_mul_of_pos_right W h.height).trans_lt hfit, (Nat.le_mul_of_pos_left H h.width).trans_lt hfit⟩

/-- The parts of the candidate, each at its place (30_encoding.md R105, R107). -/
theorem State.HoldsCandidate.parts :
    s.header = ⟨W, H, bs⟩ ∧
      s.memRead 24 (cdiv (blockCount W H bs) 8) = packDirs (directions x W H bs) ∧
      s.memRead (24 + cdiv (blockCount W H bs) 8)
        (s.operands.ilen.toNat - (24 + cdiv (blockCount W H bs) 8)) = (encodings x W H bs).flatten ∧
      24 + cdiv (blockCount W H bs) 8 ≤ s.operands.ilen.toNat := by
  have hinput : s.memRead 0 s.operands.ilen.toNat = le64 W ++ (le64 H ++ (le64 bs ++
      (packDirs (directions x W H bs) ++ (encodings x W H bs).flatten))) := by
    refine h.input.trans ?_
    simp [abrCand, abrHeader, encodings, directions, List.flatMap_def]
  have hdirs : (packDirs (directions x W H bs)).length = cdiv (blockCount W H bs) 8 := by
    rw [packDirs, List.length_map, List.length_range, length_directions]
  have hlen := congrArg List.length hinput
  obtain ⟨hW, hrest⟩ := State.memRead_append hinput
  obtain ⟨hH, hrest⟩ := State.memRead_append hrest
  obtain ⟨hbs, hrest⟩ := State.memRead_append hrest
  obtain ⟨hpack, hdata⟩ := State.memRead_append hrest
  simp only [State.length_memRead, List.length_append, le64_length, hdirs] at hlen hW hH hbs hpack hdata
  refine ⟨?_, hpack, ?_, by omega⟩
  · rw [State.header, hW, hH, hbs, unLE64_le64 h.dims_lt.1, unLE64_le64 h.dims_lt.2, unLE64_le64 h.blockSize.2]
  · rw [hlen, show 8 + (8 + (8 + (cdiv (blockCount W H bs) 8 + (encodings x W H bs).flatten.length))) -
      (24 + cdiv (blockCount W H bs) 8) = (encodings x W H bs).flatten.length by omega]
    exact hdata

theorem State.HoldsCandidate.dirOf {k : Nat} (hk : k < blockCount W H bs) :
    Machine.dirOf s k = (directions x W H bs).getD k false := by
  obtain ⟨-, hpack, -, -⟩ := h.parts
  rw [packDirs, length_directions] at hpack
  have hbyte := List.map_inj_left.1 hpack (k / 8) (List.mem_range.2 (div_lt_cdiv (by decide) hk))
  rw [Machine.dirOf, ← dirByte_getLsbD, ← hbyte]
  rfl

theorem State.HoldsCandidate.stream : s.Stream (encodings x W H bs) [] := by
  obtain ⟨hheader, -, hdata, hstart⟩ := h.parts
  have hdataStart : s.dataStart = 24 + cdiv (blockCount W H bs) 8 := by
    rw [State.dataStart, hheader]
    rfl
  refine ⟨h.inputFits, State.not_badHeader ?_ ?_ ?_ ?_ ?_, ?_, ?_, fun j d hd => ?_⟩ <;>
    simp only [hheader, hdataStart]
  · exact Nat.ne_of_gt h.width
  · exact Nat.ne_of_gt h.height
  · exact Nat.ne_of_gt h.blockSize.1
  · exact h.matrixFits.trans_lt s.build.obufCap.isLt
  · exact hstart
  · exact h.matrixFits
  · rw [hdata, List.append_nil]
  · have hj := (List.getElem?_eq_some_iff.1 hd).1
    rw [length_encodings] at hj
    rw [encodings_getElem? x hj, Option.some.injEq] at hd
    rw [← hd, ← Tile.length_extract _ x W ((directions x W H bs).getD j false)]
    exact fillsExactly_rleFwd _

end HoldsCandidate

/-- Settles O44: the blocks of a candidate fill theirs, and each inverse is written back where its bytes came from. -/
theorem abrDecInvertsCandidate : Obligations.AbrDecInvertsCandidate := by
  intro s x W H bs hW hH hbs hbslt hx hfit hlen hinput
  have h : s.HoldsCandidate x W H bs := ⟨hinput, hlen, hfit, hW, hH, hbs, hbslt⟩
  obtain ⟨hheader, -⟩ := h.parts
  have hcount : (encodings x W H bs).length = s.header.blocks := by
    rw [length_encodings, hheader]
    rfl
  obtain ⟨t, ht, holen, houtw, houth, hselbs, hblocks, hframe, hfree⟩ := h.stream.exec_delivers hcount rfl
  simp only [hheader] at holen houtw houth hselbs hblocks
  have hread : ∀ i, i < W * H → t.readObuf i = x.getD i 0 := fun i hi => by
    obtain ⟨k, hk, hmem⟩ := tileOf_covers (Nat.ne_of_gt hbs) hi (dirOf s)
    have hblock := hblocks k _ (encodings_getElem? x hk)
    rw [rleInv_rleFwd, ← h.dirOf hk] at hblock
    exact List.map_inj_left.1 hblock i hmem
  refine ⟨t, ht, ?_, houtw, houth, hselbs, hframe, hfree⟩
  rw [State.output, holen]
  refine List.ext_getElem (by rw [List.length_map, List.length_range, hx]) fun i hi hi' => ?_
  rw [List.getElem_map, List.getElem_range, hread i (hx ▸ hi'), List.getD_eq_getElem _ _ hi']

end Sys2Proof.Machine

/-! ## The moves of the host -/

namespace Sys2Proof.Machine

/-! ### A step is the host's next move -/

/-- The host's next move is taken off its list, and an idle block makes it (44_system.md R246). -/
theorem step_of_idle {s : State} {m : HostMove} {rest : List HostMove} (hhost : s.host = m :: rest)
    (hidle : s.latch.busy = false) : step s = idleMove m { s with host := rest } := by
  have hpop : s.popMove = { s with host := rest } := by rw [State.popMove, hhost, List.tail_cons]
  have hmove : step s = hostMove m s.popMove := by rw [step, hhost]
  rw [hmove, hpop, hostMove]
  split
  · next hreset => rw [hreset]; rfl
  · exact if_neg (ne_true_of_eq_false hidle)

/-- The latch lets every command through while no fault is latched, and `SRST` always. -/
theorem issue_of_decode {w : CmdWord} {s : State} {i : Instr} (hi : decode w = .ok i)
    (hfault : s.latch.fault = true → i = .srst) : issue w s = finishOutcome (exec i s.begin) := by
  have hopen : ¬ (s.latch.fault = true ∧ w ≠ srstWord) := by
    rintro ⟨hf, hw⟩
    rw [hfault hf] at hi
    exact hw (encode_of_decode hi).1.symm
  rw [issue, if_neg hopen, hi]

/-- A word keeps its 32 bits on the way through `CMD`. -/
theorem step_withFetchWord {s : State} (hidle : s.latch.busy = false) (nbits w : Nat) :
    step (s.withFetchWord nbits w) = issue (BitVec.ofNat 32 (w % 2 ^ nbits)) s := by
  rw [step_of_idle (s := s.withFetchWord nbits w) rfl hidle]
  show issue (((BitVec.ofNat 32 (w % 2 ^ nbits)).setWidth 64).setWidth 32) s = _
  rw [BitVec.setWidth_setWidth_of_le _ (by decide), BitVec.setWidth_eq]

theorem decode_of_decodeTableWord {nbits w : Nat} {i : Instr} (h : decodeTableWord nbits w = some i) :
    decode (BitVec.ofNat 32 (w % 2 ^ nbits)) = .ok i := by
  unfold decodeTableWord at h
  cases hd : decode (BitVec.ofNat 32 (w % 2 ^ nbits)) with
  | error e => rw [hd] at h; cases h
  | ok j => rw [hd] at h; cases h; rfl

/-- Settles O4: the move issues the word, the latch lets it through, and every command answers a next state. -/
theorem stepRunsDecodedCommand : Obligations.StepRunsDecodedCommand := by
  refine ⟨fun s v rest i hhost hidle hi hfault => ?_, fun s nbits w i hidle hi hfault => ?_⟩
  · obtain ⟨t, ht⟩ := exec_answers_next i (State.begin { s with host := rest })
    refine ⟨t, ht, ?_⟩
    calc step s = issue (v.setWidth 32) { s with host := rest } := step_of_idle hhost hidle
      _ = finishOutcome (exec i (State.begin { s with host := rest })) := issue_of_decode hi hfault
      _ = .next t.finish := by rw [ht]; rfl
  · rw [step_withFetchWord hidle]
    exact issue_of_decode (decode_of_decodeTableWord hi) hfault

/-! ### Registers -/

theorem Latch.toNat_statusWord (l : Latch) : l.statusWord.toNat = 2 * l.fault.toNat + l.busy.toNat := by
  rw [Latch.statusWord, BitVec.toNat_setWidth_of_le (by decide), toNat_append_eq, BitVec.toNat_ofBool,
    BitVec.toNat_ofBool, Nat.mul_comm, Nat.pow_one]

theorem Results.toNat_resultWord (r : Results) : r.resultWord.toNat = 256 * r.eos.toNat + r.val.toNat := by
  rw [Results.resultWord, BitVec.toNat_setWidth_of_le (by decide), toNat_append_eq, BitVec.toNat_ofBool, Nat.mul_comm,
    show 2 ^ 8 = 256 from rfl]

/-- Settles O8: the read replies with the value of the register, and the narrower registers are extended by zeros. -/
theorem hostReadsRegister : Obligations.HostReadsRegister := fun s =>
  ⟨fun _ _ hhost hidle => step_of_idle hhost hidle, rfl, s.latch.toNat_statusWord,
    BitVec.toNat_setWidth_of_le (by decide), rfl, rfl, rfl, rfl, rfl, rfl, s.results.toNat_resultWord, rfl, rfl, rfl,
    rfl, BitVec.toNat_setWidth_of_le (by decide), BitVec.toNat_setWidth_of_le (by decide),
    BitVec.toNat_setWidth_of_le (by decide)⟩

/-- The registers the host can write (10_state.md R21). -/
abbrev HostWritable (r : Reg) : Prop := r = .ilen ∨ r = .width ∨ r = .bsize ∨ r = .symcnt

theorem State.writeReg_of_not_hostWritable (s : State) {r : Reg} (h : ¬ HostWritable r) (v : Word) :
    s.writeReg r v = s := by
  cases r
  case ilen | width | bsize | symcnt => exact absurd (by decide) h
  all_goals rfl

/-- Read after write: the operand register written holds the value, and every other register what it held. -/
theorem State.readReg_writeReg (s : State) (r : Reg) (v : Word) (q : Reg) :
    (s.writeReg r v).readReg q = if q = r ∧ HostWritable r then v else s.readReg q := by
  by_cases h : HostWritable r
  · obtain rfl | rfl | rfl | rfl := h <;> cases q <;> rfl
  · rw [s.writeReg_of_not_hostWritable h, if_neg fun hq => h hq.2]

/-- Settles O9: a write to a register other than `CMD` is `writeReg`, which changes the operand registers only. -/
theorem hostWritesRegister : Obligations.HostWritesRegister := by
  intro s r v rest hhost hidle hr
  refine ⟨State.writeReg { s with host := rest } r v, ?_, State.writeReg_eq _ r v, State.readReg_writeReg _ r v⟩
  calc step s = writeRegMove r v { s with host := rest } := step_of_idle hhost hidle
    _ = .next (State.writeReg { s with host := rest } r v) := if_neg hr

/-! ### Buffers -/

theorem State.readIbuf_writeIbuf (s : State) (i : Nat) (b : Byte) (j : Nat) :
    (s.writeIbuf i b).readIbuf j = if j = i then b else s.readIbuf j := by
  rw [State.readIbuf, State.writeIbuf_ibuf, State.writeIbuf_ibufEpoch, Table.get_set]
  split <;> rfl

/-- Settles O10: a write within the capacity is `writeIbuf`; beyond it, and in `OBUF`, the move has no step. -/
theorem hostWritesInputByte : Obligations.HostWritesInputByte := by
  refine fun s i b rest hidle => ⟨fun hhost hi => ?_, fun hhost hi => ?_, fun hhost => step_of_idle hhost hidle⟩
  · refine ⟨State.writeIbuf { s with host := rest } i b, ?_, rfl, State.readIbuf_writeIbuf _ i b⟩
    exact (step_of_idle hhost hidle).trans (if_pos hi)
  · exact (step_of_idle hhost hidle).trans (if_neg (Nat.not_lt.2 hi))

theorem State.readObuf_of_get {s : State} {i : Nat} {b : Byte} (hi : i < s.packer.olen.toNat)
    (hb : Table.get s.obuf i = some b) : s.readObuf i = b := by
  rw [State.readObuf, if_pos hi, hb, Option.getD_some]

theorem State.readObuf_of_olen_le {s : State} {i : Nat} (hi : s.packer.olen.toNat ≤ i) :
    s.readObuf i = Config.freeObufByte s.obufEpoch i := if_neg (Nat.not_lt.2 hi)

/-- Settles O11: a read within the capacity replies with what `readObuf` finds on either side of `OLEN`. -/
theorem hostReadsBufferByte : Obligations.HostReadsBufferByte := by
  refine fun s i rest hidle => ⟨fun hhost hi => ?_, fun hhost hi holen b hb => ?_, fun hhost hi holen => ?_,
    fun hhost hi => ?_, fun hhost hi => ?_⟩
  · exact (step_of_idle hhost hidle).trans (if_pos hi)
  · rw [← State.readObuf_of_get holen hb]
    exact (step_of_idle hhost hidle).trans (if_pos hi)
  · rw [← State.readObuf_of_olen_le holen]
    exact (step_of_idle hhost hidle).trans (if_pos hi)
  · exact (step_of_idle hhost hidle).trans (if_neg (Nat.not_lt.2 hi))
  · exact (step_of_idle hhost hidle).trans (if_neg (Nat.not_lt.2 hi))

/-! ### The commands that only set state -/

/-- Settles O15: each of the four commands is one update of the state. -/
theorem settingCommandsResult : Obligations.SettingCommandsResult := fun _ => ⟨rfl, rfl, rfl, rfl⟩

/-- After a soft reset the registers read as in the reset state, where each of them is 0 (10_state.md R37). -/
theorem State.readReg_softReset (s : State) (r : Reg) : s.softReset.readReg r = 0 :=
  calc s.softReset.readReg r = State.reset.readReg r := by cases r <;> rfl
    _ = 0 := resetStateIsIdle.1 r

/-- Settles O16: `SRST` is the soft reset. -/
theorem softResetClearsRegisters : Obligations.SoftResetClearsRegisters := fun s =>
  ⟨s.softReset, rfl, s.readReg_softReset, rfl, rfl⟩

end Sys2Proof.Machine

/-! ## The diff model -/

namespace Sys2Proof.Machine

@[simp] theorem length_diffFwdFrom (prev : Byte) (x : List Byte) : (diffFwdFrom prev x).length = x.length := by
  induction x generalizing prev with
  | nil => rfl
  | cons v x ih => exact congrArg Nat.succ (ih v)

@[simp] theorem length_diffInvFrom (prev : Byte) (y : List Byte) : (diffInvFrom prev y).length = y.length := by
  induction y generalizing prev with
  | nil => rfl
  | cons v y ih => exact congrArg Nat.succ (ih (v + prev))

/-- The running sum after a difference is the byte the difference was taken of (47_pipeline_reference.md R251). -/
theorem diffInvFrom_diffFwdFrom (prev : Byte) (x : List Byte) : diffInvFrom prev (diffFwdFrom prev x) = x := by
  induction x generalizing prev with
  | nil => rfl
  | cons v x ih => rw [diffFwdFrom, diffInvFrom, BitVec.sub_add_cancel, ih]

theorem diffInv_diffFwd (x : List Byte) : diffInv (diffFwd x) = x := diffInvFrom_diffFwdFrom 0 x

theorem length_diffFwd (x : List Byte) : (diffFwd x).length = x.length := length_diffFwdFrom 0 x

/-- The byte before each one is the one at its own index once `prev` stands in front. -/
theorem getD_diffFwdFrom {x : List Byte} {i : Nat} (hi : i < x.length) (prev : Byte) :
    (diffFwdFrom prev x).getD i 0 = x.getD i 0 - (prev :: x).getD i 0 := by
  induction x generalizing prev i with
  | nil => exact absurd hi (Nat.not_lt_zero i)
  | cons v x ih =>
    cases i with
    | zero => rfl
    | succ i => exact ih (Nat.lt_of_succ_lt_succ hi) v

/-- Each decoded byte is the sum of `prev` and of all bytes so far. -/
theorem getD_diffInvFrom {y : List Byte} {i : Nat} (hi : i < y.length) (prev : Byte) :
    (diffInvFrom prev y).getD i 0 = prev + BitVec.ofNat 8 ((y.take (i + 1)).map BitVec.toNat).sum := by
  induction y generalizing prev i with
  | nil => exact absurd hi (Nat.not_lt_zero i)
  | cons v y ih =>
    cases i with
    | zero => simp [diffInvFrom, BitVec.add_comm]
    | succ i =>
      calc (diffInvFrom prev (v :: y)).getD (i + 1) 0
        _ = v + prev + BitVec.ofNat 8 ((y.take (i + 1)).map BitVec.toNat).sum :=
          ih (Nat.lt_of_succ_lt_succ hi) (v + prev)
        _ = prev + (v + BitVec.ofNat 8 ((y.take (i + 1)).map BitVec.toNat).sum) := by ac_rfl
        _ = prev + BitVec.ofNat 8 (((v :: y).take (i + 2)).map BitVec.toNat).sum := by
          rw [List.take_succ_cons, List.map_cons, List.sum_cons, BitVec.ofNat_add, BitVec.ofNat_toNat,
            BitVec.setWidth_eq]

/-- Settles O59: both recursions carry the byte before, which is 0 at the start. -/
theorem diffModelRoundTrip : Obligations.DiffModelRoundTrip := by
  refine fun x => ⟨diffInv_diffFwd x, length_diffFwd x, length_diffInvFrom 0 x, fun i hi => ⟨?_, ?_⟩⟩
  · refine (getD_diffFwdFrom hi 0).trans (congrArg _ ?_)
    cases i <;> rfl
  · exact (getD_diffInvFrom hi 0).trans (BitVec.zero_add _)

end Sys2Proof.Machine

/-! ## The reference pipeline -/

namespace Sys2Proof.Machine

/-! ### The result of a command -/

/-- The bytes loaded are listed at their indices. -/
theorem Table.get_zipIdx (x : List Byte) (n i : Nat) :
    Table.get ((x.zipIdx n).map fun y => (y.2, y.1)) (n + i) = x[i]? := by
  induction x generalizing n i with
  | nil => rfl
  | cons v x ih =>
    rw [List.zipIdx_cons, List.map_cons, Table.get]
    cases i with
    | zero => exact if_pos rfl
    | succ i => rw [if_neg (by omega), show n + (i + 1) = n + 1 + i by omega, ih, List.getElem?_cons_succ]

section Loaded

variable {b : Build} {x : List Byte} (hfit : x.length ≤ b.ibufCap.toNat) (width symcnt : Word)
include hfit

theorem loadedBlock_ilen : (loadedBlock b x width symcnt).operands.ilen.toNat = x.length :=
  toNat_ofNat_of_lt (hfit.trans_lt b.ibufCap.isLt)

theorem loadedBlock_ilen_le : (loadedBlock b x width symcnt).operands.ilen.toNat ≤ b.ibufCap.toNat :=
  (loadedBlock_ilen hfit width symcnt).trans_le hfit

theorem loadedBlock_input : (loadedBlock b x width symcnt).input = x := by
  refine List.ext_getElem (by rw [State.length_input, loadedBlock_ilen hfit]) fun i hi hi' => ?_
  have hget : Table.get (loadedBlock b x width symcnt).ibuf (0 + i) = some x[i] :=
    (Table.get_zipIdx x 0 i).trans (List.getElem?_eq_getElem hi')
  simp only [State.input, State.memRead, List.getElem_map, List.getElem_range]
  rw [State.readIbuf, hget, Option.getD_some]

theorem loadedBlock_inputBits : (loadedBlock b x width symcnt).inputBits = bytesBits x := by
  have hend : (loadedBlock b x width symcnt).inputEnd = (loadedBlock b x width symcnt).operands.ilen.toNat :=
    Nat.min_eq_left (loadedBlock_ilen_le hfit width symcnt)
  rw [State.inputBits, hend]
  exact congrArg bytesBits (loadedBlock_input hfit width symcnt)

end Loaded

section ResultOf

variable {b : Build} {x y : List Byte} {width symcnt : Word}

/-- A command has a result where its input fits `IBUF` and it ends without a fault (47_pipeline_reference.md R256). -/
theorem resultOf_eq_ok_iff {i : Instr} : resultOf b i x width symcnt = .ok y ↔
    x.length ≤ b.ibufCap.toNat ∧
      ∃ t, exec i (loadedBlock b x width symcnt) = .next t ∧ t.latch.fault = false ∧ t.output = y := by
  obtain ⟨t, ht⟩ := exec_answers_next i (loadedBlock b x width symcnt)
  by_cases hfit : b.ibufCap.toNat < x.length
  · simp [resultOf, hfit]
  · cases hf : t.latch.fault <;> simp [resultOf, hfit, ht, hf, Nat.le_of_not_lt hfit]

/-! ### The run-length stages -/

theorem resultOf_rleEnc (h : resultOf b .rleEnc x width symcnt = .ok y) :
    y = rleFwd x ∧ y.length ≤ b.obufCap.toNat := by
  obtain ⟨hin, t, ht, hfault, rfl⟩ := resultOf_eq_ok_iff.1 h
  obtain ⟨hfits, hfull⟩ := rleEncWritesTransform _ (loadedBlock_ilen_le hin width symcnt)
  rw [loadedBlock_input hin] at hfits hfull
  rcases Nat.lt_or_ge b.obufCap.toNat (rleFwd x).length with hlt | hle
  · cases (hfull hlt).symm.trans ht
    cases hfault
  · obtain ⟨u, hu, hout, -⟩ := hfits hle
    cases hu.symm.trans ht
    exact ⟨hout, hout ▸ hle⟩

theorem resultOf_rleDec (hin : x.length ≤ b.ibufCap.toNat) (hout : (rleInv x).length ≤ b.obufCap.toNat) :
    resultOf b .rleDec x width symcnt = .ok (rleInv x) := by
  obtain ⟨hfits, -⟩ := rleDecWritesInverse _ (loadedBlock_ilen_le hin width symcnt)
  rw [loadedBlock_input hin] at hfits
  obtain ⟨t, ht, hres, hframe, -⟩ := hfits hout
  exact resultOf_eq_ok_iff.2 ⟨hin, t, ht, congrArg (·.latch.fault) hframe, hres⟩

/-- A candidate emitted without a fault is the output. -/
theorem emitCandidate_unfaulted {s t : State} {c : Candidate} {h : Nat}
    (ht : (emitCandidate c h s.restartOutput).outcome = .next t) (hfault : t.latch.fault = false) :
    t.output = c.out ∧ c.out.length ≤ s.build.obufCap.toNat := by
  rcases Nat.lt_or_ge s.build.obufCap.toNat c.out.length with hfull | hfit
  · rw [emitCandidate_full hfull] at ht
    cases ht
    cases hfault
  · rw [emitCandidate_fits hfit] at ht
    cases ht
    exact ⟨State.emitted_output hfit, hfit⟩

/-- What `ABR.ENC` gives is a candidate of its input, read as a matrix (43_abr.md R223). -/
theorem resultOf_abrEnc (hb : b.wf) (h : resultOf b .abrEnc x width symcnt = .ok y) :
    ∃ W H bs, 1 ≤ W ∧ 1 ≤ H ∧ 1 ≤ bs ∧ bs < 2 ^ 64 ∧ x.length = W * H ∧ y = abrCand x W H bs ∧
      y.length ≤ b.obufCap.toNat := by
  obtain ⟨hin, t, ht, hfault, rfl⟩ := resultOf_eq_ok_iff.1 h
  have hinput : (loadedBlock b x width symcnt).restartOutput.input = x := loadedBlock_input hin width symcnt
  have hlen : (loadedBlock b x width symcnt).restartOutput.operands.ilen.toNat = x.length :=
    loadedBlock_ilen hin width symcnt
  rw [exec_abrEnc (loadedBlock_ilen_le hin width symcnt)] at ht
  by_cases hbad : (loadedBlock b x width symcnt).restartOutput.BadDimensions
  · rw [abrEncBody_bad hbad] at ht
    cases ht
    cases hfault
  · obtain ⟨j, hbody, ⟨-, hW, hH⟩, -⟩ := abrEncBody_sound (W := width.toNat) hbad rfl rfl
    rw [hbody, hinput, hlen] at ht
    rw [hlen] at hH
    obtain ⟨hout, hfit⟩ := emitCandidate_unfaulted ht hfault
    have hbs : 1 ≤ b.bsMin * 2 ^ j := Nat.mul_pos hb.1 (Nat.two_pow_pos j)
    have hmod : x.length % width.toNat = 0 := by
      rw [← hlen]
      exact not_not.1 fun h => hbad (.inr (.inl h))
    exact ⟨width.toNat, x.length / width.toNat, b.bsMin * 2 ^ j, hbs.trans hW, hbs.trans hH, hbs,
      hW.trans_lt width.isLt, (Nat.mul_div_cancel' (Nat.dvd_of_mod_eq_zero hmod)).symm, hout, hout ▸ hfit⟩

theorem resultOf_abrDec {W H bs : Nat} (hW : 1 ≤ W) (hH : 1 ≤ H) (hbs : 1 ≤ bs) (hlt : bs < 2 ^ 64)
    (hx : x.length = W * H) (hout : x.length ≤ b.obufCap.toNat)
    (hin : (abrCand x W H bs).length ≤ b.ibufCap.toNat) :
    resultOf b .abrDec (abrCand x W H bs) width symcnt = .ok x := by
  obtain ⟨t, ht, hres, -, -, -, hframe, -⟩ := abrDecInvertsCandidate (loadedBlock b (abrCand x W H bs) width symcnt)
    x W H bs hW hH hbs hlt hx (hx ▸ hout) (loadedBlock_ilen_le hin width symcnt) (loadedBlock_input hin width symcnt)
  exact resultOf_eq_ok_iff.2 ⟨hin, t, ht, congrArg (·.latch.fault) hframe, hres⟩

/-! ### The entropy-coding stage -/

/-- What `HT.ENCBUF` gives is its input's session, padded to a whole byte (40_aht.md R148). -/
theorem resultOf_htEncbuf (h : resultOf b .htEncbuf x width symcnt = .ok y) :
    x.length ≤ b.ibufCap.toNat ∧
      ∃ k, k < 8 ∧ bytesBits y = sessionBits Tree.fresh x ++ List.replicate k false := by
  obtain ⟨hin, t, ht, hfault, rfl⟩ := resultOf_eq_ok_iff.1 h
  obtain ⟨hfits, hfull⟩ := htEncbufWritesSession _ (loadedBlock_ilen_le hin width symcnt)
  rw [loadedBlock_input hin] at hfits hfull
  refine ⟨hin, ?_⟩
  rcases Nat.lt_or_ge (8 * b.obufCap.toNat) (sessionBits Tree.fresh x).length with hlt | hle
  · obtain ⟨u, _, _, hu, -, -, -, -, -, hframe⟩ := hfull hlt
    cases hu.symm.trans ht
    exact Bool.noConfusion (hfault.symm.trans (congrArg (·.latch.fault) hframe))
  · obtain ⟨u, -, k, hu, hk, hout, -⟩ := hfits hle
    cases hu.symm.trans ht
    exact ⟨k, hk, hout⟩

/-- `HT.DECBUF` delivers a session that less than a byte of padding follows (40_aht.md R149). -/
theorem resultOf_htDecbuf {pad : List Bool} (hpad : pad.length < 8)
    (hbits : bytesBits y = sessionBits Tree.fresh x ++ pad) (hin : y.length ≤ b.ibufCap.toNat)
    (hout : x.length ≤ b.obufCap.toNat) :
    resultOf b .htDecbuf y width (BitVec.ofNat 64 x.length) = .ok x := by
  obtain ⟨hdelivers, -⟩ := htDecbufInvertsSession (loadedBlock b y width (BitVec.ofNat 64 x.length)) x pad
    (loadedBlock_ilen_le hin _ _) ((loadedBlock_inputBits hin _ _).trans hbits)
  obtain ⟨t, u, ht, hres, -, -, hframe, -⟩ :=
    hdelivers (toNat_ofNat_of_lt (hout.trans_lt b.obufCap.isLt)) hout hpad
  exact resultOf_eq_ok_iff.2 ⟨hin, t, ht, congrArg (·.latch.fault) hframe, hres⟩

/-! ### The stages together -/

theorem Options.flags_bits (o : Options) : o.flags.getLsbD 6 = o.useAdaptive ∧ o.flags.getLsbD 7 = o.useDiff := by
  have hbits : ∀ d a : Bool, (BitVec.ofBool d ++ BitVec.ofBool a ++ (0 : BitVec 6)).getLsbD 6 = a ∧
      (BitVec.ofBool d ++ BitVec.ofBool a ++ (0 : BitVec 6)).getLsbD 7 = d := by decide
  exact hbits o.useDiff o.useAdaptive

/-- The RLE stage: its output fits `OBUF`, and where it fits `IBUF` and its input fits `OBUF`, the RLE and diff stages
of `decompress` undo it. -/
theorem decompressRle_compressRle {o : Options} (hb : b.wf) (h : compressRle b o x = .ok y) :
    y.length ≤ b.obufCap.toNat ∧ (y.length ≤ b.ibufCap.toNat → x.length ≤ b.obufCap.toNat →
      decompressRle b o.flags y = .ok (if o.useDiff then diffInv x else x)) := by
  rw [decompressRle, o.flags_bits.1, o.flags_bits.2]
  rw [compressRle] at h
  cases hrle : o.useAdaptive with
  | true =>
    rw [if_pos hrle] at h
    obtain ⟨W, H, bs, hW, hH, hbs, hlt, hx, rfl, hy⟩ := resultOf_abrEnc hb h
    refine ⟨hy, fun hin hout => ?_⟩
    rw [if_pos rfl, resultOf_abrDec hW hH hbs hlt hx hout hin]
  | false =>
    rw [if_neg (ne_true_of_eq_false hrle)] at h
    obtain ⟨rfl, hy⟩ := resultOf_rleEnc h
    refine ⟨hy, fun hin hout => ?_⟩
    rw [if_neg Bool.false_ne_true, resultOf_rleDec hin (by rwa [rleInv_rleFwd]), rleInv_rleFwd]

/-- What `compress` does where it accepts its input (47_pipeline_reference.md R254 to R256). -/
theorem compress_eq_ok {o : Options} {z : List Byte} (h : compress b o x = .ok z) :
    ∃ y bits, compressRle b o (if o.useDiff then diffFwd x else x) = .ok y ∧
      resultOf b .htEncbuf y 0 0 = .ok bits ∧ z = le64 y.length ++ [o.flags] ++ bits := by
  rw [compress] at h
  split at h
  · cases h
  · next y hy =>
    split at h
    · cases h
    · next bits hbits => exact ⟨y, bits, hy, hbits, (Except.ok.inj h).symm⟩

/-- The header in front of the bits is 9 bytes long (47_pipeline_reference.md R252). -/
theorem length_streamHeader (n : Nat) (flags : Byte) : (le64 n ++ [flags]).length = 9 :=
  List.length_append.trans (congrArg (· + 1) (le64_length n))

/-- `decompress` reads the two header fields and hands on what follows them (47_pipeline_reference.md R257). -/
theorem decompress_stream {n : Nat} (hn : n < 2 ^ 64) (flags : Byte) {bits : List Byte}
    (h : resultOf b .htDecbuf bits 0 (BitVec.ofNat 64 n) = .ok y) :
    decompress b (le64 n ++ [flags] ++ bits) = decompressRle b flags y := by
  have hlong : ¬ (le64 n ++ [flags] ++ bits).length < 9 := by
    rw [List.length_append, length_streamHeader]
    omega
  have hcount : (le64 n ++ [flags] ++ bits).take 8 = le64 n := by
    rw [List.append_assoc]
    exact List.take_left' (le64_length n)
  have hdata : (le64 n ++ [flags] ++ bits).drop 9 = bits := List.drop_left' (length_streamHeader n flags)
  rw [decompress, if_neg hlong, hcount, hdata, unLE64_le64 hn, h]
  rfl

end ResultOf

/-- Settles O60: each stage of `decompress` undoes its stage of `compress`, and what the RLE stage gives `HT.ENCBUF` has
stood in `OBUF` and fits `IBUF`. -/
theorem compressRoundTrip : Obligations.CompressRoundTrip := by
  intro b o x z hb hz hzlen hx
  obtain ⟨y, bits, hrle, hbits, rfl⟩ := compress_eq_ok hz
  obtain ⟨hyin, k, hk, hsession⟩ := resultOf_htEncbuf hbits
  obtain ⟨hyout, hundo⟩ := decompressRle_compressRle hb hrle
  rw [List.length_append, length_streamHeader] at hzlen
  have hdec := resultOf_htDecbuf (width := 0) (by rwa [List.length_replicate]) hsession
    (Nat.add_le_add_iff_left.1 hzlen) hyout
  rw [decompress_stream (hyout.trans_lt b.obufCap.isLt) o.flags hdec]
  have hlen : (if o.useDiff then diffFwd x else x).length = x.length := by
    cases o.useDiff
    · rfl
    · exact length_diffFwd x
  rw [hundo hyin (hlen.trans_le hx)]
  cases o.useDiff
  · rfl
  · exact congrArg Except.ok (diffInv_diffFwd x)

end Sys2Proof.Machine

/-! ## Faults: what raises them, what they leave, what a latched one refuses -/

namespace Sys2Proof.Machine

/-! ### Which kinds a command raises -/

/-- `t` has the latch and the output of a fault that command `i` may raise. -/
def State.RaisedBy (i : Instr) (t : State) : Prop :=
  ∃ k info, t.latch = Latch.latched k info ∧ mayRaise i k info = true ∧ t.packer.olen = 0 ∧ t.obuf = []

theorem State.raise_raisedBy (s : State) {i : Instr} {k : ErrKind} {info : Word} (h : mayRaise i k info = true) :
    (s.raise k info).RaisedBy i := ⟨k, info, rfl, h, rfl, rfl⟩

/-- A full `OBUF` is a `Capacity(0)`, which every command that writes `OBUF` may raise. -/
theorem State.packerFull_raisedBy (s : State) (p : Packer) {i : Instr} (h : writesObuf i = true) :
    (s.packerFull p).RaisedBy i := ⟨.capacity, 0, rfl, by simp [mayRaise, h], rfl, rfl⟩

/-- The parts of a command leave the latch alone, but for those that raise. -/
theorem keeps_latch (i : Instr) (s : State) : Keeps i (fun t => t.latch = s.latch) (State.RaisedBy i) where
  raise _ _ u hk _ := u.raise_raisedBy hk
  full p u hw _ := u.packerFull_raisedBy p hw
  store _ _ _ h _ := h
  byte _ _ _ h _ := h
  bit _ _ _ h _ := h
  restart _ _ h := h
  fresh _ _ h := h
  update _ _ _ _ h _ := h
  rewind _ _ h := h
  cursor _ _ h _ := h
  result _ _ _ h := h
  forward _ _ _ _ h := h
  reverse _ _ _ _ h _ _ _ := h

/-- Settles O55: `SRST` clears the latch, and the parts of every other command keep it or raise what the table gives. -/
theorem faultKindsByCommand : Obligations.FaultKindsByCommand := by
  intro i s t ht
  by_cases hi : i = .srst
  · subst hi
    cases ht
    exact .inr (.inl ⟨rfl, rfl⟩)
  · exact ((keeps_latch i s).exec hi rfl ht).imp id .inr

/-! ### What a fault leaves -/

/-- Settles O7: fault entry writes the latch, `OLEN` and `OBUF`, and with `OLEN` 0 the output is empty. -/
theorem raiseLatchesFault : Obligations.RaiseLatchesFault := fun _ _ _ =>
  ⟨rfl, rfl, rfl, rfl, rfl, rfl, rfl, rfl⟩

/-- With `ILEN` too large the common opening raises, whatever the command does after it (60_exceptions.md R274). -/
theorem withInput_of_tooLong {s : State} (h : s.build.ibufCap.toNat < s.operands.ilen.toNat) (f : State → Run) :
    withInput s f = .ended (s.raise .capacity 1) := by
  rcases withInput_cases s f with ⟨-, he⟩ | ⟨hle, -⟩
  · exact he
  · omega

/-- Settles O49: each of the seven commands opens with the check, which ends it before its body. -/
theorem inputTooLongRaises : Obligations.InputTooLongRaises := by
  intro s i hlong hi
  have hopen (f : State → Run) : (withInput s f).outcome = .next (s.raise .capacity 1) :=
    congrArg Run.outcome (withInput_of_tooLong hlong f)
  rcases hi with rfl | rfl | rfl | rfl | rfl | rfl | rfl <;> exact hopen _

/-! ### Words that are refused or illegal -/

/-- A latched fault refuses every word but that of `SRST` (60_exceptions.md R277). -/
theorem issue_of_fault {w : CmdWord} {s : State} (hfault : s.latch.fault = true) (hw : w ≠ srstWord) :
    issue w s = .next s := if_pos ⟨hfault, hw⟩

/-- A word that no row of the opcode map matches raises `IllegalCommand` (60_exceptions.md R283). -/
theorem issue_of_illegal {w : CmdWord} {s : State} {e : Illegal} (hfault : s.latch.fault = false)
    (he : decode w = .error e) : issue w s = .next (s.begin.raise .illegalCommand (w.setWidth 64)) := by
  rw [issue, if_neg fun h => Bool.eq_false_iff.1 hfault h.1, he]

/-- Settles O6: the block accepts the word, and decoding it is what raises. -/
theorem illegalWordRaises : Obligations.IllegalWordRaises := by
  intro s v rest e hhost hidle hfault he
  calc step s = issue (v.setWidth 32) { s with host := rest } := step_of_idle hhost hidle
    _ = .next ((State.begin { s with host := rest }).raise .illegalCommand ((v.setWidth 32).setWidth 64)) :=
      issue_of_illegal hfault he

/-- The list of pending moves has no part in a register write. -/
theorem State.writeReg_withHost (s : State) (moves : List HostMove) (r : Reg) (v : Word) :
    State.writeReg { s with host := moves } r v =
      { s with host := moves, operands := (s.writeReg r v).operands } := by cases r <;> rfl

/-- Settles O5: the latch stands in the way of command words only; every other move is the one of an idle block. -/
theorem faultedBlockRefusesCommands : Obligations.FaultedBlockRefusesCommands := by
  refine fun s rest hfault hidle => ⟨fun v hhost hv => ?_, fun r hhost => ?_, fun r v hr hhost => ?_,
    fun i b hi hhost => ?_, fun i hi hhost => ?_, fun i hi hhost => ?_⟩
  · calc step s = issue (v.setWidth 32) { s with host := rest } := step_of_idle hhost hidle
      _ = .next { s with host := rest } := issue_of_fault hfault hv
  · exact step_of_idle hhost hidle
  · calc step s = writeRegMove r v { s with host := rest } := step_of_idle hhost hidle
      _ = .next (State.writeReg { s with host := rest } r v) := if_neg hr
      _ = .next { s with host := rest, operands := (s.writeReg r v).operands } :=
        congrArg _ (s.writeReg_withHost rest r v)
  · exact (step_of_idle hhost hidle).trans (if_pos hi)
  · exact (step_of_idle hhost hidle).trans (if_pos hi)
  · exact (step_of_idle hhost hidle).trans (if_pos hi)

end Sys2Proof.Machine

/-! ## Hardware reset -/

namespace Sys2Proof.Machine

/-- Hardware reset is made at any time, the block busy or not (60_exceptions.md R285, 70_reset_and_hazards.md R300). -/
theorem step_of_hwReset {s : State} {rest : List HostMove} (hhost : s.host = .hwReset :: rest) :
    step s = .next (State.hardwareReset { s with host := rest }) := by
  rw [step, State.popMove, hhost]
  exact if_pos rfl

/-- Beyond the soft reset, hardware reset changes the buffers, which no register shows. -/
theorem State.readReg_hardwareReset (s : State) (r : Reg) : s.hardwareReset.readReg r = 0 :=
  calc s.hardwareReset.readReg r = s.softReset.readReg r := by cases r <;> rfl
    _ = 0 := s.readReg_softReset r

/-- Settles O13: the step is hardware reset, after which every register reads 0; it writes or keeps the other fields. -/
theorem hardwareResetState : Obligations.HardwareResetState := fun s rest hhost =>
  ⟨State.hardwareReset { s with host := rest }, step_of_hwReset hhost, State.readReg_hardwareReset _,
    rfl, rfl, rfl, rfl, rfl, rfl⟩

/-! ## Who changes the tree -/

/-- The commands that run `update` are `HT.UPD` and the two session commands. -/
theorem updatesTree_iff (i : Instr) :
    updatesTree i = true ↔ (∃ v, i = .htUpd v) ∨ i = .htEncbuf ∨ i = .htDecbuf := by
  cases i <;> simp [updatesTree]

/-- The parts that change the tree, `update` and the fresh tree, belong to `HT.INIT`, `HT.UPD`, `HT.ENCBUF` and
`HT.DECBUF`. -/
theorem keeps_tree {i : Instr} (hinit : i ≠ .htInit) (hupd : ∀ v, i ≠ .htUpd v) (hencbuf : i ≠ .htEncbuf)
    (hdecbuf : i ≠ .htDecbuf) (s : State) : Keeps i (fun u => u.tree = s.tree) (fun u => u.tree = s.tree) where
  raise _ _ _ _ h := h
  full _ _ _ h := h
  store _ _ _ h _ := h
  byte _ _ _ h _ := h
  bit _ _ _ h _ := h
  restart _ _ h := h
  fresh _ hi := absurd hi (not_or.2 ⟨hinit, not_or.2 ⟨hencbuf, hdecbuf⟩⟩)
  update _ _ _ hi :=
    absurd ((updatesTree_iff i).1 hi) (not_or.2 ⟨not_exists.2 hupd, not_or.2 ⟨hencbuf, hdecbuf⟩⟩)
  rewind _ _ h := h
  cursor _ _ h _ := h
  result _ _ _ h := h
  forward _ _ _ _ h := h
  reverse _ _ _ _ h _ _ _ := h

/-- Settles O51: no part of any other command changes the tree, whether the command completes or raises. -/
theorem treeChangedOnlyByTreeCommands : Obligations.TreeChangedOnlyByTreeCommands := by
  intro i s t ht hsrst hinit hupd hencbuf hdecbuf
  exact ((keeps_tree hinit hupd hencbuf hdecbuf s).exec hsrst rfl ht).elim id id

end Sys2Proof.Machine
